-- ==== Sys2Proof/Word.lean ====
section
/-!
DEFINITION. The plain words CORE moves: bytes, 32-bit and 256-bit register values, byte strings of a fixed length
(spec/00_scope.md R15, R16), VM addresses (R12), and two helpers that only make evaluation eager.
-/

namespace Sys2Proof

/-- A byte, an integer in `[0, 256)` (R16). -/
abbrev Byte := BitVec 8

/-- `U32`, the type of CTRL and STATUS (R20). -/
abbrev U32 := BitVec 32

/-- `U256`, the type of the operand and result registers (R15, R20). -/
abbrev U256 := BitVec 256

/-- `BytesN`: a byte string of length `n`, index 0 first (R16). -/
abbrev Bytes (n : Nat) := { bs : List Byte // bs.length = n }

/-- `ADDR_T`, the type of a VM memory address, a parameter of the spec (R12, D24, U4). An address is a name, told from
others by its number; no rule of the machine computes with the number, and `a + k` is left open (`Config.addrAdd`). How
the numbers stand for a VM's addresses is free. DESIGN CHOICE, safe: notes/assumptions/2.md. -/
structure Addr where
  name : Nat
  deriving DecidableEq, Repr, Inhabited

/-- `withNat n k` is `k n`. Written as a match so that the kernel computes `n` to a numeral before it goes on. -/
def withNat {α : Type} (n : Nat) (k : Nat → α) : α :=
  match n with
  | 0 => k 0
  | m + 1 => k (m + 1)

@[simp] theorem withNat_eq {α : Type} (n : Nat) (k : Nat → α) : withNat n k = k n := by
  cases n <;> rfl

/-- `withWord x k` is `k x`, with `x` computed to a numeral first. -/
def withWord {α : Type} (x : U32) (k : U32 → α) : α :=
  withNat x.toNat fun n => k (BitVec.ofNat 32 n)

@[simp] theorem withWord_eq {α : Type} (x : U32) (k : U32 → α) : withWord x k = k x := by
  simp [withWord]

end Sys2Proof
end

