-- ==== Sys2Proof/Config.lean ====
section
/-!
DEFINITION. What an implementation fixes: the hard-wired constants of spec/00_scope.md R6 to R11, field elements and VM
cells over them, and the values the spec leaves open, as constants without a body.
-/

namespace Sys2Proof

namespace Config

/-- The field prime `P = 2^251 + 17·2^192 + 1` (R6). Hard-wired (R8). -/
def P : Nat := 3618502788666131213697322783095070105623107215331596699973092056135872020481

/-- The curve coefficient (R7). Hard-wired (R8). -/
def ALPHA : Nat := 1

/-- The curve constant (R8). Hard-wired. -/
def BETA : Nat := 3141592653589793238462643383279502884197169399375105820974944592307816406665

/-- `HALF = (P − 1) / 2` (R9). -/
def HALF : Nat := 1809251394333065606848661391547535052811553607665798349986546028067936010240

/-- `Q`, the odd part of `P − 1 = 2^192 · Q` (R9). -/
def oddPart : Nat := 576460752303423505

/-- `S`, the 2-adicity of `P − 1` (R9). -/
def twoAdicity : Nat := 192

/-- `Z`, the smallest quadratic non-residue modulo P (R9). -/
def nonResidue : Nat := 3

/-- `N_ITER`, the number of candidates the sampling loop tries at most (R10). -/
def nIter : Nat := 100

theorem P_pos : 0 < P := by decide

end Config

/-- `Felt`, a field element: an integer in `[0, P)` (R15). -/
abbrev Felt := Fin Config.P

/-- `felt(n)`: `n mod P` as a field element (R15). -/
def felt (n : Nat) : Felt := ⟨n % Config.P, Nat.mod_lt n Config.P_pos⟩

@[simp] theorem felt_val (n : Nat) : (felt n).val = n % Config.P := rfl

/-- `Cell`, what a VM memory cell holds: an integer, an address, or nothing (spec/20_memory.md R47, D23). An integer
cell outside `[0, P)` cannot be written down (D40). -/
inductive VmCell where
  | int (v : Felt)
  | addr (a : Addr)
  | unset
  deriving DecidableEq, Repr

namespace Config

/-- What a bus read of OUT0, OUT1, HSEED or SEED0..SEED4 answers while BUSY = 1: any value of the register's type, a
fresh draw on each read (R118, U1). The argument numbers the draws. A free value: notes/assumptions/4.md. -/
opaque busyRead : Nat → U256

/-- Whether HINT's two-cell transaction completes when reset is asserted in the very step that issues it: the spec
allows both (R136, U6). The argument numbers the draws. A free value: notes/assumptions/8.md. -/
opaque resetRace : Nat → Bool

/-- `addr_add`, the address `a + k` of R12, a total function the spec leaves to the model as a parameter (U4, D24): nothing
says that `a + 1` differs from `a`, or that it is one above in any order. A free value: notes/assumptions/2.md. -/
opaque addrAdd : Addr → Nat → Addr

/-- `MemAdmit`, whether the VM memory (here: its listed cells) accepts a write of a value to a cell. The spec leaves it
to the model as a parameter (R12, D22, U3). A free value: notes/assumptions/3.md. -/
opaque memAdmit : List (Addr × VmCell) → Addr → Felt → Bool

end Config

end Sys2Proof
end

