-- ==== Sys2Proof/Machine/Field.lean ====
section
/-!
DEFINITION. The field datapath of units U1 and U2 (spec/40_field_primitives.md R77, R81 to R86). Arguments and results
are exact unbounded integers (R77); a result is reduced only where the rule writes `mod P`. The recursions force their
numerals (`withNat`), so that the kernel runs them on 256-bit operands.
-/

namespace Sys2Proof.Machine

open Sys2Proof.Config

/-- Square and multiply: `acc · b ^ (e mod 2^fuel) mod P`. The method is not observable (R81, I4). -/
def powLoop : (fuel b e acc : Nat) → Nat
  | 0, _, _, acc => acc
  | fuel + 1, b, e, acc =>
    withNat (if e % 2 = 1 then acc * b % P else acc) fun acc' =>
      withNat (b * b % P) fun b' => withNat (e / 2) fun e' => powLoop fuel b' e' acc'

/-- Modular exponentiation, U1: `b ^ e mod P`, with `b ^ 0 = 1` for every `b` (R81). -/
def modexp (b e : Nat) : Nat := powLoop (e.log2 + 1) (b % P) e 1

/-- The quadratic-residue predicate, U2: the shortcut for 0 and 1, then Euler's criterion (R82). -/
def isQr (a : Nat) : Bool := if a < 2 then true else modexp a HALF == 1

/-- `n` squarings modulo P. -/
def squarings : (n b : Nat) → Nat
  | 0, b => b
  | n + 1, b => withNat (b * b % P) (squarings n)

/-- The loop of a Tonelli–Shanks root extraction of fixed length: at `n + 1` the order of `t` divides `2^(n+1)` and `c`
has order `2^(n+2)`; a step leaves `t` of order dividing `2^n`. DESIGN CHOICE of method, not observable (R84, I2):
notes/assumptions/16.md. -/
def rootLoop : (n c t r : Nat) → Nat
  | 0, _, _, r => r
  | n + 1, c, t, r =>
    withNat (c * c % P) fun c' =>
      if squarings n t = 1 then rootLoop n c' t r
      else withNat (t * c' % P) fun t' => withNat (r * c % P) fun r' => rootLoop n c' t' r'

/-- A square root of a residue `a`, either of the two. -/
def someRoot (a : Nat) : Nat :=
  rootLoop (twoAdicity - 1) (modexp nonResidue oddPart) (modexp a oddPart) (modexp a ((oddPart + 1) / 2))

/-- The canonical square root, U2: 0 for 0, else the smaller of the two roots `r` and `P − r` (R83, D13). -/
def sqrtC (a : Nat) : Nat :=
  if a = 0 then 0 else withNat (someRoot a) fun r => min r (P - r)

/-- The curve right-hand side: the cube by modular exponentiation, the sum in ordinary integers, reduced once; `x` need
not be reduced (R85). -/
def curveRhs (x : Nat) : Nat := withNat (modexp x 3 + ALPHA * x) fun n => (n + BETA) % P

/-- Negation in the field; `neg 0 = 0` (R86). -/
def neg (y : Nat) : Nat := (P - y) % P

/-- Sign selection (R86). -/
def applySign (y : Nat) (signBit : Bool) : Nat := if signBit then neg y else y

end Sys2Proof.Machine
end

