-- ==== Sys2Proof/Syntax.lean ====
section
/-!
DEFINITION. The instructions: the commands of format CMD and the two bus operations of format BUS
(spec/30_encoding.md), one constructor per row of spec/opcode_table.json, with the values a bus transaction carries.
-/

namespace Sys2Proof

/-- A register of the map of spec/10_state.md R20. -/
inductive Reg where
  | ctrl | status
  | in0 | in1 | in2 | in3 | in4
  | out0 | out1 | hseed
  | seed0 | seed1 | seed2 | seed3 | seed4
  | ap | aq | am | as
  /-- an index 0x13 to 0x3F (R28) -/
  | reserved
  deriving DecidableEq, Repr

/-- The type of a register's value (R20, R57). -/
inductive BusType where
  | u32 | u256 | oaddr
  deriving DecidableEq, Repr

/-- One typed value of a bus data phase (R55, R57, R68). An address value is `NONE` or an address (`OADDR`, R20). -/
inductive BusValue where
  | u32 (w : U32)
  | u256 (v : U256)
  | oaddr (a : Option Addr)
  deriving DecidableEq, Repr

/-- The type of a bus value. -/
def BusValue.type : BusValue → BusType
  | .u32 _ => .u32
  | .u256 _ => .u256
  | .oaddr _ => .oaddr

/-- The single-phase commands (R39: phase `EXEC`). -/
inductive Primitive where
  | modexp | qrtest | sqrt | crhs | serialize
  deriving DecidableEq, Repr

/-- A command that runs: every decoded command but CLEAR and ILLEGAL (R71). -/
inductive Op where
  | prim (p : Primitive)
  | derive
  | hint
  deriving DecidableEq, Repr

/-- The instructions, one constructor per row of spec/opcode_table.json. A command takes its operands from fixed
registers (R69), so only the bus operations and the catch-all row have fields. -/
inductive Instr where
  /-- CLEAR (R116) -/
  | clear
  /-- MODEXP (R88) -/
  | modexp
  /-- QRTEST (R89) -/
  | qrtest
  /-- SQRT (R90) -/
  | sqrt
  /-- CRHS (R91) -/
  | crhs
  /-- SERIALIZE (R92) -/
  | serialize
  /-- DERIVE (R105) -/
  | derive
  /-- HINT (R107) -/
  | hint
  /-- HOST_WR: the register index and the value of the data phase (R117) -/
  | hostWr (idx : BitVec 6) (v : BusValue)
  /-- HOST_RD: the register index (R118) -/
  | hostRd (idx : BitVec 6)
  /-- ILLEGAL: any other command word (R72) -/
  | illegal (w : U32)
  deriving DecidableEq, Repr

/-- An instruction as it reaches CORE, before decoding: a command word (R67), or a bus transaction, an 8-bit header
and, for a write, the typed value the data phase carries from the host (R68). -/
inductive Raw where
  | command (w : U32)
  | bus (header : BitVec 8) (data : Option BusValue)
  deriving DecidableEq, Repr

/-- Why a bus transaction is none that CORE takes. -/
inductive DecodeError where
  /-- header bit 6 (`RSVD`) is 1 (R68, U9) -/
  | reservedHeaderBit
  /-- a write whose value is not of the indexed register's type (R21, U8) -/
  | wrongValueType
  /-- a write without a value (R68) -/
  | missingData
  /-- a read that carries a value from the host (R68) -/
  | unexpectedData
  deriving DecidableEq, Repr

end Sys2Proof
end

