-- ==== Sys2Proof/Machine/RegMap.lean ====
section
/-!
DEFINITION. The register map of spec/10_state.md R20: which register an index names, and the type of its value.
-/

namespace Sys2Proof

/-- The register an index names (R20); 0x13 to 0x3F are reserved (R28). -/
def Reg.ofIndex (idx : BitVec 6) : Reg :=
  match idx.toNat with
  | 0x00 => .ctrl
  | 0x01 => .status
  | 0x02 => .in0
  | 0x03 => .in1
  | 0x04 => .in2
  | 0x05 => .in3
  | 0x06 => .in4
  | 0x07 => .out0
  | 0x08 => .out1
  | 0x09 => .hseed
  | 0x0A => .seed0
  | 0x0B => .seed1
  | 0x0C => .seed2
  | 0x0D => .seed3
  | 0x0E => .seed4
  | 0x0F => .ap
  | 0x10 => .aq
  | 0x11 => .am
  | 0x12 => .as
  | _ => .reserved

/-- The type of a register's value (R20, R57); a reserved index carries 32 bits. -/
def Reg.type : Reg → BusType
  | .ctrl | .status | .reserved => .u32
  | .in0 | .in1 | .in2 | .in3 | .in4 => .u256
  | .out0 | .out1 | .hseed => .u256
  | .seed0 | .seed1 | .seed2 | .seed3 | .seed4 => .u256
  | .ap | .aq | .am | .as => .oaddr

/-- The type of the value a transaction on an index carries (R68). -/
def busType (idx : BitVec 6) : BusType := (Reg.ofIndex idx).type

/-- The value of a type whose bits are all zero. An address has no bits in the spec (R12); its reset value `NONE`
stands for the zero data phase. DESIGN CHOICE: notes/assumptions/11.md. -/
def BusType.zero : BusType → BusValue
  | .u32 => .u32 0
  | .u256 => .u256 0
  | .oaddr => .oaddr none

end Sys2Proof
end

