-- ==== Sys2Proof/WellFormed.lean ====
section
/-!
DEFINITION. Which instructions have an encoding (spec/30_encoding.md R67, R68, R72).
-/

namespace Sys2Proof

/-- An instruction is well formed when some raw form stands for it: a HOST_WR carries a value of the indexed register's
type (R21, R68), and ILLEGAL carries a word that is no command, that is, one that is 8 or more (R70, R72). -/
def Instr.wf : Instr → Bool
  | .hostWr idx v => v.type == busType idx
  | .illegal w => decide (8 ≤ w.toNat)
  | .clear | .modexp | .qrtest | .sqrt | .crhs | .serialize | .derive | .hint => true
  | .hostRd _ => true

end Sys2Proof
end

