-- ==== Sys2Proof/Decode.lean ====
section
/-!
DEFINITION. Decoding and encoding of command words and bus transactions (spec/30_encoding.md R67 to R73, R76). The
decoder is total: every raw form gives an instruction or a named reason.
-/

namespace Sys2Proof

/-- `RSVD`, bits 31:8 of a command word (R67). -/
def cmdReserved (w : U32) : BitVec 24 := w.extractLsb' 8 24

/-- `OPC`, bits 7:0 of a command word (R67). -/
def cmdOpcode (w : U32) : BitVec 8 := w.extractLsb' 0 8

/-- Decoding of a command word, total on every word (R70, R71). -/
def decodeCmd (w : U32) : Instr :=
  if cmdReserved w ≠ 0 then .illegal w
  else
    match (cmdOpcode w).toNat with
    | 0x00 => .clear
    | 0x01 => .modexp
    | 0x02 => .qrtest
    | 0x03 => .sqrt
    | 0x04 => .crhs
    | 0x05 => .serialize
    | 0x06 => .derive
    | 0x07 => .hint
    | _ => .illegal w

/-- The command an instruction runs, if it is one that runs: neither CLEAR nor ILLEGAL nor a bus operation (R71). -/
def Instr.op? : Instr → Option Op
  | .modexp => some (.prim .modexp)
  | .qrtest => some (.prim .qrtest)
  | .sqrt => some (.prim .sqrt)
  | .crhs => some (.prim .crhs)
  | .serialize => some (.prim .serialize)
  | .derive => some .derive
  | .hint => some .hint
  | .clear | .illegal _ | .hostWr _ _ | .hostRd _ => none

/-- The command word of a command that runs (R70). -/
def Op.word : Op → U32
  | .prim .modexp => 0x00000001
  | .prim .qrtest => 0x00000002
  | .prim .sqrt => 0x00000003
  | .prim .crhs => 0x00000004
  | .prim .serialize => 0x00000005
  | .derive => 0x00000006
  | .hint => 0x00000007

/-- `IDX`, bits 5:0 of a bus header (R68). -/
def headerIndex (h : BitVec 8) : BitVec 6 := h.extractLsb' 0 6

/-- `RSVD`, bit 6 of a bus header (R68). -/
def headerReserved (h : BitVec 8) : Bool := h.getLsbD 6

/-- `WE`, bit 7 of a bus header (R68). -/
def headerWrite (h : BitVec 8) : Bool := h.getLsbD 7

/-- Decoding of a bus transaction (R68): the reserved bit first, then the direction, then the type of the value. -/
def decodeBus (h : BitVec 8) (data : Option BusValue) : Except DecodeError Instr :=
  if headerReserved h then .error .reservedHeaderBit
  else if headerWrite h then
    match data with
    | none => .error .missingData
    | some v => if v.type = busType (headerIndex h) then .ok (.hostWr (headerIndex h) v) else .error .wrongValueType
  else
    match data with
    | none => .ok (.hostRd (headerIndex h))
    | some _ => .error .unexpectedData

/-- Decoding of a raw form. -/
def decode : Raw → Except DecodeError Instr
  | .command w => .ok (decodeCmd w)
  | .bus h data => decodeBus h data

/-- The header of a bus transaction, `WE·0x80 + IDX` (R68, R76). -/
def busHeader (we : Bool) (idx : BitVec 6) : BitVec 8 := BitVec.ofBool we ++ 0#1 ++ idx

/-- The raw form of an instruction, from the tables of R68 and R70. -/
def encode : Instr → Raw
  | .clear => .command 0x00000000
  | .modexp => .command 0x00000001
  | .qrtest => .command 0x00000002
  | .sqrt => .command 0x00000003
  | .crhs => .command 0x00000004
  | .serialize => .command 0x00000005
  | .derive => .command 0x00000006
  | .hint => .command 0x00000007
  | .illegal w => .command w
  | .hostWr idx v => .bus (busHeader true idx) (some v)
  | .hostRd idx => .bus (busHeader false idx) none

/-- The raw form of an instruction whose table bits are `w`: 8 bits are a bus header, whose data phase, if it is a
write, is all zeros; 32 bits are a command word. -/
def rawOfTableWord (nbits w : Nat) : Raw :=
  if nbits = 8 then
    let h := BitVec.ofNat 8 w
    .bus h (if headerWrite h then some (busType (headerIndex h)).zero else none)
  else .command (BitVec.ofNat 32 w)

/-- The instruction the decoder reads from an instruction whose table bits are `w`. -/
def decodeTableWord (nbits w : Nat) : Option Instr :=
  match decode (rawOfTableWord nbits w) with
  | .ok i => some i
  | .error _ => none

end Sys2Proof
end

