-- ==== Sys2Proof/Machine/State.lean ====
section
/-!
DEFINITION. The state of CORE and of the VM memory beside it, as plain data (spec/10_state.md, spec/20_memory.md), the
reasons a step can stop, and the machine right after reset.
-/

namespace Sys2Proof.Machine

/-- The fields of STATUS (R29) but BUSY, which is 1 exactly when the engine is not idle (R39) and is read off `fsm`. -/
structure Status where
  done : Bool
  err : Bool
  ovr : Bool
  seedValid : Bool
  sign : Bool
  errcode : BitVec 4
  errid : Bool
  errmem : Bool
  iter : BitVec 7
  deriving DecidableEq, Repr

/-- The two commands that derive a point: the sampler's phases are run for one of them (R39). -/
inductive Requester where
  | derive | hint
  deriving DecidableEq, Repr

/-- The engine's control state `fsm` (R39): `IDLE`, or `RUN(op, phase)` with one constructor per phase, carrying what
of `op` the phase leaves open. `attempt` is `TRY(i)`, whose index `i` is the counter `icnt` (R40). -/
inductive Fsm where
  /-- `IDLE` -/
  | idle
  /-- `RUN(p, EXEC)` -/
  | exec (p : Primitive)
  /-- `RUN(r, SEEDHASH)` -/
  | seedHash (r : Requester)
  /-- `RUN(r, TRY(icnt))` -/
  | attempt (r : Requester)
  /-- `RUN(r, FAIL)` -/
  | fail (r : Requester)
  /-- `RUN(HINT, CHECK)` -/
  | check
  /-- `RUN(HINT, READ(k))` -/
  | read (k : Fin 5)
  /-- `RUN(HINT, WRITE)` -/
  | write
  deriving DecidableEq, Repr

/-- The five field elements of a seed bundle (R80). -/
structure Inputs where
  px : Felt
  py : Felt
  m : Felt
  qx : Felt
  qy : Felt
  deriving DecidableEq, Repr

/-- The working state of a command in progress (R41): the seed digest, the candidate before reduction, its right-hand
side, the root, and the five elements HINT has read. Not host-visible. -/
structure Work where
  hd : Bytes 32
  xraw : U256
  rhs : Felt
  y0 : Felt
  inputs : Inputs
  deriving DecidableEq, Repr

/-- Which writes the VM memory accepts, `MemAdmit` of R12 (U3): the uninterpreted parameter, or one of the two choices
the vectors of spec/95_test_vectors.md section 2.8 name. notes/assumptions/3.md. -/
inductive AdmitPolicy where
  /-- `Config.memAdmit`, about which nothing is known -/
  | parameter
  /-- a cell is writable while it is UNSET -/
  | writeOnce
  /-- every write is accepted -/
  | always
  deriving DecidableEq, Repr

/-- VM memory (R19, R46, R47): its cells, as a list of address and content in the canonical form `Memory.wf`, where an
unlisted address reads UNSET; the policy of its writes; and the values of the parameter `addr_add` (R12, U4) that are
known, as entries `((a, k), b)` for `a + k = b`. -/
structure Memory where
  cells : List (Addr × VmCell)
  policy : AdmitPolicy
  /-- MODEL: notes/assumptions/2.md -/
  offsets : List ((Addr × Nat) × Addr)
  deriving DecidableEq, Repr

/-- One turn of the interleaving of R19 and R63: what happens next, and by which agent. The model's own;
notes/assumptions/5.md. -/
inductive Turn where
  /-- the host issues an instruction: a bus transaction, or a command word run as a whole (notes/assumptions/6.md) -/
  | raw (r : Raw)
  /-- the engine takes one step, that is, one phase (R102) -/
  | engine
  /-- the reset input is asserted (R135) -/
  | reset
  /-- the host writes a VM cell by its own means (R19) -/
  | vmWrite (a : Addr) (c : VmCell)
  deriving DecidableEq, Repr

/-- The state: the host-visible registers (R20, R29), the seed buffer (R26), the hidden state (R39 to R41), VM memory
(R46), and the model's own `agenda`, `rdata` and `draws`. -/
structure State where
  /-- CTRL, the last accepted command word (R22) -/
  ctrl : U32
  status : Status
  in0 : U256
  in1 : U256
  in2 : U256
  in3 : U256
  in4 : U256
  out0 : U256
  out1 : U256
  hseed : U256
  /-- SEEDBUF, the storage behind SEED0..SEED4 (R26) -/
  seedBuf : Bytes 160
  /-- AP (R27) -/
  addrP : Option Addr
  /-- AQ (R27) -/
  addrQ : Option Addr
  /-- AM (R27) -/
  addrM : Option Addr
  /-- AS (R27) -/
  addrS : Option Addr
  fsm : Fsm
  /-- the iteration counter, 0 to 100 (R40) -/
  icnt : BitVec 7
  work : Work
  vm : Memory
  /-- MODEL: the turns still to come, the next one first -/
  agenda : List Turn
  /-- MODEL: the value the last bus read gave the host -/
  rdata : Option BusValue
  /-- MODEL: how many free values have been drawn -/
  draws : Nat
  deriving DecidableEq, Repr

/-- The struct identifier of an E_NO_MEMBER error (R36, R109). -/
inductive StructId where
  | p | q
  deriving DecidableEq, Repr

/-- The struct member of an E_NO_MEMBER error (R36, R109). -/
inductive Member where
  | x | y
  deriving DecidableEq, Repr

/-- The errors CORE raises (R119). They are reported in STATUS and stop nothing. -/
inductive CoreError where
  /-- E_ILLEGAL_CMD -/
  | illegalCmd
  /-- E_RANGE -/
  | range
  /-- E_NOT_QR -/
  | notQr
  /-- E_SEED_INVALID -/
  | seedInvalid
  /-- E_ADDR_UNSET -/
  | addrUnset
  /-- E_NO_MEMBER, with the information it records -/
  | noMember (id : StructId) (mem : Member)
  /-- E_INPUT_READ -/
  | inputRead
  /-- E_NOT_ON_CURVE -/
  | notOnCurve
  /-- E_WRITE -/
  | write
  deriving DecidableEq, Repr

/-- Why a step stops with a fault. CORE never traps and never stops: every error is a code in STATUS and the machine
goes on (R125, R128). So there is no reason, and no step ends in a fault. DEDUCED, safe: notes/assumptions/17.md. -/
inductive Fault where
  deriving DecidableEq, Repr

/-- Why a step is refused: there is no such transition of the machine. All are safe, since the machine stops. -/
inductive Refusal where
  /-- Raised by `exec`'s arm of an instruction without a meaning. No arm raises it. Safe. -/
  | notModelled (mnemonic : String)
  /-- Raised by the step for a bus transaction CORE does not take: a reserved header bit (R68, U9), a missing or
  misplaced data phase (R68), a value of the wrong type (R21, U8). Safe. -/
  | notATransaction (e : DecodeError)
  /-- Raised by HOST_WR on a value that is not of the indexed register's type (R21, U8); no raw form decodes to such an
  instruction. Safe. -/
  | busValueType
  /-- Raised by a host write to a cell that HINT reads or writes while BUSY = 1 (R142, U7). Safe. -/
  | hostWriteDuringCommand
  deriving DecidableEq, Repr

/-- All STATUS fields 0 (R29). -/
def Status.zero : Status :=
  { done := false, err := false, ovr := false, seedValid := false, sign := false, errcode := 0, errid := false,
    errmem := false, iter := 0 }

/-- The working state the model starts from; the spec gives none (R45, U5). DESIGN CHOICE: notes/assumptions/9.md. -/
def Work.zero : Work :=
  { hd := ⟨List.replicate 32 0, rfl⟩, xraw := 0, rhs := felt 0, y0 := felt 0,
    inputs := { px := felt 0, py := felt 0, m := felt 0, qx := felt 0, qy := felt 0 } }

/-- The machine right after reset (R45, R135): registers 0 or NONE, SEEDBUF zero, the engine idle. VM memory lists
nothing and the agenda is empty, which the spec does not give: notes/assumptions/7.md and 5.md. -/
def State.reset : State :=
  { ctrl := 0, status := .zero
    in0 := 0, in1 := 0, in2 := 0, in3 := 0, in4 := 0
    out0 := 0, out1 := 0, hseed := 0
    seedBuf := ⟨List.replicate 160 0, rfl⟩
    addrP := none, addrQ := none, addrM := none, addrS := none
    fsm := .idle, icnt := 0, work := .zero
    vm := { cells := [], policy := .parameter, offsets := [] }
    agenda := [], rdata := none, draws := 0 }

end Sys2Proof.Machine
end

