-- ==== Sys2Proof/Machine/Serializer.lean ====
section
/-!
DEFINITION. The serializer and deserializer of unit U3 (spec/40_field_primitives.md R78 to R80) and the byte views of
the 256-bit registers (spec/10_state.md R25, R26). All big-endian (R52, R53, R55).
-/

namespace Sys2Proof.Machine

/-- `to_padded_bytes(n)`: 32 bytes, `out[k] = (n div 256^(31−k)) mod 256` (R78). -/
def toPaddedBytes (n : Nat) : Bytes 32 :=
  ⟨(List.range 32).map fun k => BitVec.ofNat 8 (n / 256 ^ (31 - k)), by simp⟩

/-- The unsigned integer a byte string spells, first byte most significant. -/
def fromBigEndian (bs : List Byte) : Nat := bs.foldl (fun n b => n * 256 + b.toNat) 0

/-- `from_be32(D)`, in `[0, 2^256)` and not reduced modulo P (R79). -/
def fromBe32 (d : Bytes 32) : Nat := fromBigEndian d.val

/-- `seed_bundle`: five padded encodings, in the order p.x, p.y, m, q.x, q.y (R80). -/
def seedBundle (px py m qx qy : Nat) : Bytes 160 :=
  ⟨(toPaddedBytes px).val ++ (toPaddedBytes py).val ++ (toPaddedBytes m).val ++ (toPaddedBytes qx).val ++
    (toPaddedBytes qy).val, by
    simp only [List.length_append, (toPaddedBytes _).property]⟩

/-- The seed bundle of five elements read from VM memory (R110). -/
def Inputs.bundle (i : Inputs) : Bytes 160 := seedBundle i.px.val i.py.val i.m.val i.qx.val i.qy.val

/-- Register `SEEDk`: the big-endian integer of `SEEDBUF[32k .. 32k+32]` (R26). -/
def seedView (buf : Bytes 160) (k : Nat) : U256 :=
  BitVec.ofNat 256 (fromBigEndian ((buf.val.drop (32 * k)).take 32))

/-- The register view of a digest: its big-endian integer (R25). -/
def digestView (d : Bytes 32) : U256 := BitVec.ofNat 256 (fromBe32 d)

end Sys2Proof.Machine
end

