-- ==== Sys2Proof/Machine/Sha256.lean ====
section
/-!
DEFINITION. SHA-256 as FIPS 180-4 defines it (spec/00_scope.md R13, spec/92_eei_decisions.md D28). The spec names the
function and gives test vectors (spec/95_test_vectors.md 2.1), not its text: PRESUMED, notes/assumptions/1.md. Section
numbers below are those of FIPS 180-4. Messages and digests are taken as the integers their bytes spell, as R79 takes a
digest.
-/

namespace Sys2Proof.Machine

/-- A hash function of CORE's kind: a digest of 32 bytes, a function of the input bytes alone (R13, R42). -/
abbrev Hash := List Byte → Bytes 32

namespace Sha

/-- `withWords xs k` is `k xs`, with every word computed to a numeral first. -/
def withWords {α : Type} : List U32 → (List U32 → α) → α
  | [], k => k []
  | x :: xs, k => withWord x fun x' => withWords xs fun xs' => k (x' :: xs')

@[simp] theorem withWords_eq {α : Type} (xs : List U32) (k : List U32 → α) : withWords xs k = k xs := by
  induction xs generalizing k with
  | nil => rfl
  | cons x xs ih => simp [withWords, ih]

/-- The last `n` 32-bit words of an integer, the most significant first. -/
def wordsOf (n m : Nat) : List U32 := (List.range n).map fun k => BitVec.ofNat 32 (m / 2 ^ (32 * (n - 1 - k)))

/-- The 64 round constants, eight to a row (4.2.2). Sys2Proof/Tests/Slice0.lean computes them from their definition, the
fractional parts of the cube roots of the first 64 primes. -/
def roundConstants : List U32 := List.flatMap (wordsOf 8) [
  0x428a2f98_71374491_b5c0fbcf_e9b5dba5_3956c25b_59f111f1_923f82a4_ab1c5ed5,
  0xd807aa98_12835b01_243185be_550c7dc3_72be5d74_80deb1fe_9bdc06a7_c19bf174,
  0xe49b69c1_efbe4786_0fc19dc6_240ca1cc_2de92c6f_4a7484aa_5cb0a9dc_76f988da,
  0x983e5152_a831c66d_b00327c8_bf597fc7_c6e00bf3_d5a79147_06ca6351_14292967,
  0x27b70a85_2e1b2138_4d2c6dfc_53380d13_650a7354_766a0abb_81c2c92e_92722c85,
  0xa2bfe8a1_a81a664b_c24b8b70_c76c51a3_d192e819_d6990624_f40e3585_106aa070,
  0x19a4c116_1e376c08_2748774c_34b0bcb5_391c0cb3_4ed8aa4a_5b9cca4f_682e6ff3,
  0x748f82ee_78a5636f_84c87814_8cc70208_90befffa_a4506ceb_bef9a3f7_c67178f2]

/-- The initial hash value (5.3.3). The same tests compute it from the square roots of the first eight primes. -/
def initialWords : List U32 := wordsOf 8 0x6a09e667_bb67ae85_3c6ef372_a54ff53a_510e527f_9b05688c_1f83d9ab_5be0cd19

/-! ### One block -/

/-- The sum modulo 2 of rotations to the right, the common part of the four functions of 4.1.2. -/
def rotations (amounts : List Nat) (x : U32) : U32 := amounts.foldl (fun y n => y ^^^ x.rotateRight n) 0

/-- Where the bits of `x` are 1 the bits of `y`, else those of `z` (4.1.2, Ch). -/
def choose (x y z : U32) : U32 := z ^^^ x &&& (y ^^^ z)

/-- Bitwise majority (4.1.2, Maj). -/
def majority (x y z : U32) : U32 := x &&& y ||| z &&& (x ||| y)

/-- The message schedule (6.2.2 step 1): `n` more words, on the words so far with the latest first. -/
def schedule : Nat → List U32 → List U32
  | 0, ws => ws.reverse
  | n + 1, ws =>
    withWord (rotations [17, 19] (ws.getD 1 0) ^^^ ws.getD 1 0 >>> 10) fun s1 =>
      withWord (rotations [7, 18] (ws.getD 14 0) ^^^ ws.getD 14 0 >>> 3) fun s0 =>
        withWord (s1 + ws.getD 6 0 + s0 + ws.getD 15 0) fun w => schedule n (w :: ws)

/-- Four consecutive words of one of the two sequences a round extends, the latest first: the working variables a, b, c, d
are the last four of one, and e, f, g, h of the other (6.2.2). -/
structure Window where
  (w0 w1 w2 w3 : U32)

/-- The window after one more word. -/
def Window.push (x : U32) (v : Window) : Window := ⟨x, v.w0, v.w1, v.w2⟩

/-- Word by word sum, computed before `k` goes on. -/
def Window.sum {α : Type} (u v : Window) (k : Window → α) : α :=
  withWord (u.w0 + v.w0) fun a => withWord (u.w1 + v.w1) fun b =>
    withWord (u.w2 + v.w2) fun c => withWord (u.w3 + v.w3) fun d => k ⟨a, b, c, d⟩

/-- The rounds of a block (6.2.2 step 3), one for each constant and schedule word: the two sequences' windows after them. -/
def rounds : List U32 → List U32 → Window → Window → Window × Window
  | k :: ks, w :: ws, as, es =>
    withWord (es.w3 + rotations [6, 11, 25] es.w0 + choose es.w0 es.w1 es.w2 + k + w) fun t =>
      withWord (t + rotations [2, 13, 22] as.w0 + majority as.w0 as.w1 as.w2) fun a =>
        withWord (as.w3 + t) fun e => rounds ks ws (as.push a) (es.push e)
  | _, _, as, es => (as, es)

/-- The blocks of a padded message, the last `n` of the integer `m`, over the round constants `ks` (6.2.2). -/
def blocks (ks : List U32) (m : Nat) : Nat → Window → Window → Window × Window
  | 0, as, es => (as, es)
  | n + 1, as, es =>
    withWords (wordsOf 16 (m / 2 ^ (512 * n))) fun ws =>
      let r := rounds ks (schedule 48 ws.reverse) as es
      as.sum r.1 fun as' => es.sum r.2 fun es' => blocks ks m n as' es'

/-! ### The message -/

/-- A message as its length in bits and the integer it spells, from the bits `l` and the integer `n` read so far; both are
computed to numerals byte by byte. -/
def withMessage {α : Type} : List Byte → (l n : Nat) → (Nat → Nat → α) → α
  | [], l, n, k => k l n
  | b :: bs, l, n, k => withNat (l + 8) fun l' => withNat (n * 256 + b.toNat) fun n' => withMessage bs l' n' k

@[simp] theorem withMessage_eq {α : Type} (bs : List Byte) (l n : Nat) (k : Nat → Nat → α) :
    withMessage bs l n k = k (l + 8 * bs.length) (bs.foldl (fun m b => m * 256 + b.toNat) n) := by
  induction bs generalizing l n with
  | nil => simp [withMessage]
  | cons b bs ih =>
    simp only [withMessage, withNat_eq, ih, List.length_cons, List.foldl_cons]
    congr 1
    omega

/-- The zero bits of the padding of an `l`-bit message, so that the message, a 1 bit, they and 64 bits of length fill whole
blocks (5.1.1). -/
def zeroBits (l : Nat) : Nat := (959 - l % 512) % 512

/-- The padded message, as the integer its bits spell (5.1.1). -/
def padded (l m : Nat) : Nat := (2 * m + 1) * 2 ^ (zeroBits l + 64) + l

/-- The eight words of a hash value, as one integer, first word most significant. -/
def digestNat (as es : Window) : Nat :=
  [as.w0, as.w1, as.w2, as.w3, es.w0, es.w1, es.w2, es.w3].foldl (fun n w => n * 2 ^ 32 + w.toNat) 0

/-- The hash of an `l`-bit message that spells the integer `m`. -/
def hashNat (l m : Nat) : Nat :=
  withNat (padded l m) fun p =>
    withWords roundConstants fun ks => withWords initialWords fun h =>
      let r := blocks ks p ((l + 1 + zeroBits l + 64) / 512) ⟨h.getD 0 0, h.getD 1 0, h.getD 2 0, h.getD 3 0⟩
        ⟨h.getD 4 0, h.getD 5 0, h.getD 6 0, h.getD 7 0⟩
      digestNat r.1 r.2

end Sha

/-- SHA-256 (FIPS 180-4, 6.2) of a byte string (R13). -/
def sha256 : Hash := fun m => Sha.withMessage m 0 0 fun l n => withNat (Sha.hashNat l n) toPaddedBytes

end Sys2Proof.Machine
end

