-- ==== Sys2Proof/Machine/Derivation.lean ====
section
/-!
DEFINITION. The derivation function `random_ec_point` (spec/41_point_derivation.md R93 to R101). The hash is an argument,
as R13 allows: the machine gives it `sha256`, and the exhaustion vector V-D7 gives it a constant function.
-/

namespace Sys2Proof.Machine

open Sys2Proof.Config

/-- The sign bit: bit 0 of the first digest byte (R94). -/
def signBit (digest : Bytes 32) : Bool := (digest.val.headD 0).getLsbD 0

/-- The 41-byte block of iteration `i`: the 31 bytes after the first digest byte, the byte `i`, nine zero bytes (R95,
R54; C1). -/
def blockOf (digest : Bytes 32) (i : Nat) : List Byte :=
  digest.val.drop 1 ++ BitVec.ofNat 8 i :: List.replicate 9 0

/-- The candidate of iteration `i`, a 256-bit integer that is not reduced (R96, R97). -/
def candidate (H : Hash) (digest : Bytes 32) (i : Nat) : Nat := fromBe32 (H (blockOf digest i))

/-- A derived point: the coordinates, the accepted index and the seed digest (R93: `OK(x, y, i, H)`). -/
structure Point where
  x : Felt
  y : Felt
  i : Nat
  h : Bytes 32
  deriving DecidableEq, Repr

/-- The result of an accepted candidate (R100): `x = xr mod P`, `y = apply_sign(y0, sign_bit)`. -/
def pointOf (digest : Bytes 32) (i xr y0 : Nat) : Point :=
  { x := felt xr, y := felt (applySign y0 (signBit digest)), i := i, h := digest }

/-- The sampling loop from index `i`, `n` candidates long: the first accepted candidate, or none (R99 to R101). The index is
the number of candidates rejected so far, which the phases of R102 hold in the counter `icnt`. -/
def search (H : Hash) (digest : Bytes 32) : (n i : Nat) → Option Point
  | 0, _ => none
  | n + 1, i =>
    withNat (candidate H digest i) fun xr => withNat (curveRhs xr) fun rhs =>
      if isQr rhs then some (pointOf digest i xr (sqrtC rhs)) else search H digest n (i + 1)

/-- `random_ec_point(seed)` (R93): the digest of the seed, then up to 100 candidates; `none` is `NOT_ON_CURVE`. -/
def randomEcPoint (H : Hash) (seed : Bytes 160) : Option Point := search H (H seed.val) nIter 0

end Sys2Proof.Machine
end

