-- ==== Sys2Proof/Machine/Flags.lean ====
section
/-!
DEFINITION. The STATUS register (spec/10_state.md R29 to R38): its word, BUSY, and what acceptance, completion and an
error do to its fields. CORE computes no arithmetic flag (R44).
-/

namespace Sys2Proof.Machine

/-- BUSY: `fsm = IDLE` exactly when `BUSY = 0` (R39). -/
def State.busy (s : State) : Bool := s.fsm != .idle

/-- The STATUS word with a given BUSY bit, in the layout of R29; every reserved bit reads 0. -/
def Status.word (busy : Bool) (st : Status) : U32 :=
  0#9 ++ st.iter ++ 0#2 ++ BitVec.ofBool st.errmem ++ BitVec.ofBool st.errid ++ st.errcode ++ 0#2 ++
    BitVec.ofBool st.sign ++ BitVec.ofBool st.seedValid ++ BitVec.ofBool st.ovr ++ BitVec.ofBool st.err ++
    BitVec.ofBool st.done ++ BitVec.ofBool busy

/-- STATUS as the host reads it (R118). -/
def State.statusWord (s : State) : U32 := s.status.word s.busy

/-- The 4-bit code of an error (R119). -/
def CoreError.code : CoreError → BitVec 4
  | .illegalCmd => 1
  | .range => 2
  | .notQr => 3
  | .seedInvalid => 4
  | .addrUnset => 5
  | .noMember _ _ => 6
  | .inputRead => 7
  | .notOnCurve => 8
  | .write => 9

/-- What acceptance does to STATUS (R38): DONE, ERR, ERRCODE, ERRID, ERRMEM and ITER are cleared; OVR, SEED_VALID and
SIGN stay. -/
def Status.accepted (st : Status) : Status :=
  { st with done := false, err := false, errcode := 0, errid := false, errmem := false, iter := 0 }

/-- What completion without error does to STATUS (R121). -/
def Status.completed (st : Status) : Status := { st with done := true, err := false }

/-- What an error does to STATUS (R120); ERRID (p = 0, q = 1) and ERRMEM (x = 0, y = 1) only for E_NO_MEMBER. -/
def Status.failed (e : CoreError) (st : Status) : Status :=
  match e with
  | .noMember id mem =>
    { st with errcode := e.code, errid := id == .q, errmem := mem == .y, err := true, done := false }
  | _ => { st with errcode := e.code, err := true, done := false }

end Sys2Proof.Machine
end

