-- ==== Sys2Proof/Machine/Operands.lean ====
section
/-!
DEFINITION. Operand forms: registers as the bus reads and writes them (spec/10_state.md R20, spec/43_control.md R117,
R118), field-element operands (spec/40_field_primitives.md R87), and the effective addresses of VM cells
(spec/20_memory.md R51).
-/

namespace Sys2Proof.Machine

open Sys2Proof.Config

/-- The committed value of a register (R118); the seed registers are views of SEEDBUF (R26), a reserved index is 0
(R28). -/
def State.regValue (s : State) : Reg → BusValue
  | .ctrl => .u32 s.ctrl
  | .status => .u32 s.statusWord
  | .in0 => .u256 s.in0
  | .in1 => .u256 s.in1
  | .in2 => .u256 s.in2
  | .in3 => .u256 s.in3
  | .in4 => .u256 s.in4
  | .out0 => .u256 s.out0
  | .out1 => .u256 s.out1
  | .hseed => .u256 s.hseed
  | .seed0 => .u256 (seedView s.seedBuf 0)
  | .seed1 => .u256 (seedView s.seedBuf 1)
  | .seed2 => .u256 (seedView s.seedBuf 2)
  | .seed3 => .u256 (seedView s.seedBuf 3)
  | .seed4 => .u256 (seedView s.seedBuf 4)
  | .ap => .oaddr s.addrP
  | .aq => .oaddr s.addrQ
  | .am => .oaddr s.addrM
  | .as => .oaddr s.addrS
  | .reserved => .u32 0

/-- The registers whose read while BUSY = 1 answers any value: 0x07 to 0x0E (R118). -/
def isResultReg : Reg → Bool
  | .out0 | .out1 | .hseed | .seed0 | .seed1 | .seed2 | .seed3 | .seed4 => true
  | .ctrl | .status | .in0 | .in1 | .in2 | .in3 | .in4 | .ap | .aq | .am | .as | .reserved => false

/-- The check of field-element operands, in the order given: E_RANGE at the first that is P or more (R87). -/
def checkFelts : List U256 → Except CoreError Unit
  | [] => .ok ()
  | v :: vs => if P ≤ v.toNat then .error .range else checkFelts vs

/-- `a + k` on VM addresses (R12), for `k` above 0 the value that is known of the parameter `addr_add`, and else the
parameter itself, about which nothing is. `a + 0` is `a`: R107 and R142 write `AM` and `AP` for the cells that R51 and R109
write `AM + 0` and `AP + 0`. DEDUCED, and DESIGN CHOICE for the table of known values: notes/assumptions/2.md. -/
def Memory.addrAdd (m : Memory) (a : Addr) (k : Nat) : Addr :=
  if k = 0 then a else (m.offsets.lookup (a, k)).getD (Config.addrAdd a k)

/-- The cell of member `x`, or of a scalar: base + 0 (R51). -/
def Memory.memberX (m : Memory) (base : Addr) : Addr := m.addrAdd base 0

/-- The cell of member `y`: base + 1 (R51). -/
def Memory.memberY (m : Memory) (base : Addr) : Addr := m.addrAdd base 1

/-- The cells a HINT on these address registers reads or writes (R142). -/
def State.hintCells (s : State) : List Addr :=
  (s.addrP.toList.flatMap fun a => [s.vm.memberX a, s.vm.memberY a]) ++
  (s.addrQ.toList.flatMap fun a => [s.vm.memberX a, s.vm.memberY a]) ++
  (s.addrM.toList.map s.vm.memberX) ++
  (s.addrS.toList.flatMap fun a => [s.vm.memberX a, s.vm.memberY a])

end Sys2Proof.Machine
end

