-- ==== Sys2Proof/Machine/Ops.lean ====
section
/-!
DEFINITION. The named operations the meanings share: VM memory and its port (spec/20_memory.md), acceptance of a command
word (spec/10_state.md R38), ending a command in error or without (spec/60_exceptions.md R120, R121; this is what
"taking an exception" is on CORE), commits of results, and the reset input (spec/70_reset_and_hazards.md R135, R136).
-/

namespace Sys2Proof.Machine

open Sys2Proof.Config

/-! ### VM memory -/

/-- The order of addresses in a canonical memory list: by the number that names them (notes/assumptions/2.md). -/
def addrBefore (a b : Addr) : Bool := decide (a.name < b.name)

/-- The content of an address in a list of cells; an unlisted address reads UNSET (notes/assumptions/7.md). -/
def cellAt : List (Addr × VmCell) → Addr → VmCell
  | [], _ => .unset
  | (b, c) :: rest, a => if a = b then c else cellAt rest a

/-- The list with the content of one address replaced, kept in canonical form; UNSET removes the entry. -/
def setCell : List (Addr × VmCell) → Addr → VmCell → List (Addr × VmCell)
  | [], a, c => if c = .unset then [] else [(a, c)]
  | (b, d) :: rest, a, c =>
    if a = b then (if c = .unset then rest else (a, c) :: rest)
    else if addrBefore a b then (if c = .unset then (b, d) :: rest else (a, c) :: (b, d) :: rest)
    else (b, d) :: setCell rest a c

/-- The canonical form: addresses strictly rising, and no entry that reads as an unlisted address does. -/
abbrev Memory.wf (m : Memory) : Prop :=
  (m.cells.Pairwise fun x y => addrBefore x.1 y.1 = true) ∧ ∀ x ∈ m.cells, x.2 ≠ .unset

/-- `MemRead(a, 1)` (R48). -/
def Memory.read (m : Memory) (a : Addr) : VmCell := cellAt m.cells a

/-- `mem[a] <- c`. -/
def Memory.set (m : Memory) (a : Addr) (c : VmCell) : Memory := { m with cells := setCell m.cells a c }

/-- `MemAdmit(mem, a, v)` (R12, U3). -/
def Memory.admits (m : Memory) (a : Addr) (v : Felt) : Bool :=
  match m.policy with
  | .parameter => memAdmit m.cells a v
  | .writeOnce => m.read a == .unset
  | .always => true

/-- `MemWrite(a, 2, (v0, v1))`, one atomic transaction: both cells written, in R49's order, or `none` and neither
(R49). -/
def Memory.writePair (m : Memory) (a : Addr) (v0 v1 : Felt) : Option Memory :=
  if m.admits a v0 && m.admits (m.addrAdd a 1) v1 then some ((m.set a (.int v0)).set (m.addrAdd a 1) (.int v1))
  else none

/-- `read_integer(a)`: the field element of an INT cell; an ADDR or UNSET cell is a read failure, reported as the given
error (R48, R109). -/
def Memory.readInt (m : Memory) (a : Addr) (e : CoreError) : Except CoreError Felt :=
  match m.read a with
  | .int v => .ok v
  | .addr _ | .unset => .error e

/-! ### Acceptance, completion, error -/

/-- The writes of acceptance (R38), but for starting the engine. -/
def accept (w : U32) (s : State) : State := { s with ctrl := w, status := s.status.accepted }

/-- A host write that arrives while BUSY = 1: OVR is set and nothing else happens (R33). -/
def overrun (s : State) : State := { s with status := { s.status with ovr := true } }

/-- `raise E(info)` (R120): the error is recorded and the engine is idle. What the command had pending is dropped, since
nothing of it is in the state. -/
def raise (e : CoreError) (s : State) : State := { s with status := s.status.failed e, fsm := .idle }

/-- `complete_ok()` (R121): DONE, and the engine is idle. The register writes it commits are made by its argument. -/
def completeOk (s : State) : State := { s with status := s.status.completed, fsm := .idle }

/-- The end of a command in NOT_ON_CURVE: ITER becomes 100 (R103). -/
def raiseNotOnCurve (s : State) : State :=
  raise .notOnCurve { s with status := { s.status with iter := 100 } }

/-- The iteration counter of a derivation that rejects its first `n` candidates: 0 from SEEDHASH on, and one more for each
(R40, R102). -/
def countRejected (n : Nat) (s : State) : State := { s with icnt := BitVec.ofNat 7 n }

/-- A command word as an instruction of its own (notes/assumptions/6.md): the CTRL write, then, in the same step, all
the command does on the accepted state. While BUSY = 1 the write is ignored and sets OVR (R22, R33). -/
def issue (w : U32) (body : State → State) (s : State) : State :=
  if s.busy then overrun s else body (accept w s)

/-! ### Commits -/

/-- The result of a single-phase command in OUT0 (R69). -/
def commitOut0 (n : Nat) (s : State) : State := { s with out0 := BitVec.ofNat 256 n }

/-- A loaded seed bundle: SEEDBUF and SEED_VALID (R34, R92, R107). -/
def commitSeed (buf : Bytes 160) (s : State) : State :=
  { s with seedBuf := buf, status := { s.status with seedValid := true } }

/-- A derived point: OUT0, OUT1, HSEED, SIGN and ITER (R105, R107). -/
def commitPoint (p : Point) (s : State) : State :=
  { s with
    out0 := BitVec.ofNat 256 p.x.val
    out1 := BitVec.ofNat 256 p.y.val
    hseed := digestView p.h
    status := { s.status with sign := signBit p.h, iter := BitVec.ofNat 7 p.i } }

/-! ### HINT's memory accesses -/

/-- The five reads of HINT, in order, stopping at the first that fails (R109). -/
def readInputs (m : Memory) (p q scalar : Addr) : Except CoreError Inputs := do
  let px ← m.readInt (m.memberX p) (.noMember .p .x)
  let py ← m.readInt (m.memberY p) (.noMember .p .y)
  let qx ← m.readInt (m.memberX q) (.noMember .q .x)
  let qy ← m.readInt (m.memberY q) (.noMember .q .y)
  let mv ← m.readInt (m.memberX scalar) .inputRead
  return { px := px, py := py, m := mv, qx := qx, qy := qy }

/-- The end of HINT on a derived point (R107, R112): the atomic write of `s`, and, if the VM accepts it, the commit of
registers; if it rejects, E_WRITE. -/
def finishHint (dest : Addr) (buf : Bytes 160) (p : Point) (s : State) : State :=
  match s.vm.writePair dest p.x p.y with
  | none => raise .write s
  | some vm => completeOk (commitPoint p (commitSeed buf { s with vm := vm }))

/-! ### The reset input and the host's own writes -/

/-- The result the engine is about to write in phase WRITE, from its working state (R100, R41). -/
def State.pendingPoint (s : State) : Point :=
  { x := felt s.work.xraw.toNat, y := felt (applySign s.work.y0.val (signBit s.work.hd)), i := s.icnt.toNat,
    h := s.work.hd }

/-- VM memory after a reset: untouched, but that a reset in the step of HINT's write leaves either both cells written or
neither, a free choice (R136, U6; notes/assumptions/8.md). -/
def State.vmAfterReset (s : State) : Memory :=
  match s.fsm, s.addrS with
  | .write, some dest =>
    if resetRace s.draws then
      match s.vm.writePair dest s.pendingPoint.x s.pendingPoint.y with
      | some vm => vm
      | none => s.vm
    else s.vm
  | _, _ => s.vm

/-- The reset input (R135): every register and field of CORE at its reset value, a command in progress abandoned (R136).
VM memory is outside CORE; the agenda, the value last read and the draws are the model's own and go on. -/
def resetCore (s : State) : State :=
  { State.reset with vm := s.vmAfterReset, agenda := s.agenda, rdata := s.rdata, draws := s.draws + 1 }

/-- A host write to a VM cell by the host's own means (R19): refused for the cells of a HINT while BUSY = 1 (R142, U7).
notes/assumptions/10.md. -/
def hostVmWrite (a : Addr) (c : VmCell) (s : State) : Host.Outcome State Fault Refusal :=
  if s.busy && s.hintCells.contains a then .refused .hostWriteDuringCommand
  else .next { s with vm := s.vm.set a c }

end Sys2Proof.Machine
end

