-- ==== Sys2Proof/Machine/Control.lean ====
section
/-!
DEFINITION. CLEAR, ILLEGAL and the bus operations HOST_WR and HOST_RD (spec/43_control.md R116 to R118,
spec/30_encoding.md R72).
-/

namespace Sys2Proof.Machine

/-- The pseudocode of CLEAR, after acceptance (R116). -/
def clearBody (s : State) : State := { s with status := { s.status with ovr := false } }

/-- CLEAR (R116). -/
def execClear (s : State) : Host.Outcome State Fault Refusal := .next (issue 0x00000000 clearBody s)

/-- ILLEGAL: the word is latched and the command ends at once in E_ILLEGAL_CMD (R72). -/
def execIllegal (w : U32) (s : State) : Host.Outcome State Fault Refusal := .next (issue w (raise .illegalCmd) s)

/-- The first phase of a command that runs (R71). -/
def firstPhase : Op → Fsm
  | .prim p => .exec p
  | .derive => .seedHash .derive
  | .hint => .check

/-- A write to CTRL with BUSY = 0 (R22, R38, R71): a command that runs starts the engine; CLEAR and an illegal word
complete in this step (R30). -/
def acceptCommand (w : U32) (s : State) : State :=
  match decodeCmd w with
  | .clear => clearBody (accept w s)
  | .illegal _ | .hostWr _ _ | .hostRd _ => raise .illegalCmd (accept w s)
  | .modexp => { accept w s with fsm := firstPhase (.prim .modexp) }
  | .qrtest => { accept w s with fsm := firstPhase (.prim .qrtest) }
  | .sqrt => { accept w s with fsm := firstPhase (.prim .sqrt) }
  | .crhs => { accept w s with fsm := firstPhase (.prim .crhs) }
  | .serialize => { accept w s with fsm := firstPhase (.prim .serialize) }
  | .derive => { accept w s with fsm := firstPhase .derive }
  | .hint => { accept w s with fsm := firstPhase .hint }

/-- A bus write with BUSY = 0 (R117): writes to read-only registers (R21) and reserved indices (R28) are ignored. -/
def busWrite (r : Reg) (v : BusValue) (s : State) : State :=
  match v with
  | .u32 w =>
    match r with
    | .ctrl => acceptCommand w s
    | _ => s
  | .u256 x =>
    match r with
    | .in0 => { s with in0 := x }
    | .in1 => { s with in1 := x }
    | .in2 => { s with in2 := x }
    | .in3 => { s with in3 := x }
    | .in4 => { s with in4 := x }
    | _ => s
  | .oaddr a =>
    match r with
    | .ap => { s with addrP := a }
    | .aq => { s with addrQ := a }
    | .am => { s with addrM := a }
    | .as => { s with addrS := a }
    | _ => s

/-- HOST_WR (R117): refused only for a value of another type (R21, U8); while BUSY = 1 it sets OVR (R33). -/
def execHostWr (idx : BitVec 6) (v : BusValue) (s : State) : Host.Outcome State Fault Refusal :=
  if v.type = busType idx then .next (if s.busy then overrun s else busWrite (Reg.ofIndex idx) v s)
  else .refused .busValueType

/-- A bus read (R118): the register's value, but any value for a result register while BUSY = 1, a fresh draw on each
read. No read changes CORE (R58). -/
def busRead (r : Reg) (s : State) : State :=
  if s.busy && isResultReg r then
    { s with rdata := some (.u256 (Config.busyRead s.draws)), draws := s.draws + 1 }
  else { s with rdata := some (s.regValue r) }

/-- HOST_RD (R118). -/
def execHostRd (idx : BitVec 6) (s : State) : Host.Outcome State Fault Refusal := .next (busRead (Reg.ofIndex idx) s)

end Sys2Proof.Machine
end

