-- ==== Sys2Proof/Machine/Derive.lean ====
section
/-!
DEFINITION. The DERIVE command (spec/41_point_derivation.md R105), its phases taken together.
-/

namespace Sys2Proof.Machine

open Sys2Proof.Config

/-- The pseudocode of DERIVE with a given hash (R105, "all phases together"): the SEED_VALID check, then `random_ec_point`
on SEEDBUF. The counter `icnt` ends at the number of rejected candidates, as R40 and R102 drive it. The working state of R41
is left as it was, since R41 lets it be local to this step: DESIGN CHOICE, unsafe, notes/assumptions/9.md. -/
def deriveBody (H : Hash) (s : State) : State :=
  if s.status.seedValid then
    match randomEcPoint H s.seedBuf with
    | some p => completeOk (commitPoint p (countRejected p.i s))
    | none => raiseNotOnCurve (countRejected nIter s)
  else raise .seedInvalid s

/-- DERIVE with a given hash. -/
def deriveWith (H : Hash) (s : State) : Host.Outcome State Fault Refusal :=
  .next (issue Op.derive.word (deriveBody H) s)

/-- DERIVE (R105), with SHA-256 (R13). -/
def execDerive (s : State) : Host.Outcome State Fault Refusal := deriveWith sha256 s

end Sys2Proof.Machine
end

