-- ==== Sys2Proof/Machine/Hint.lean ====
section
/-!
DEFINITION. The HINT command (spec/42_marker_handler.md R107 to R113), its phases taken together.
-/

namespace Sys2Proof.Machine

open Sys2Proof.Config

/-- The pseudocode of HINT with a given hash (R107, "all phases together"): the address check, the five reads, the
derivation, the write. From the derivation on the counter `icnt` holds the number of rejected candidates, as R40 and R102
drive it. The working state of R41 is left as it was, since R41 lets it be local to this step: DESIGN CHOICE, unsafe,
notes/assumptions/9.md. -/
def hintBody (H : Hash) (s : State) : State :=
  match s.addrP, s.addrQ, s.addrM, s.addrS with
  | some p, some q, some m, some dest =>
    match readInputs s.vm p q m with
    | .error e => raise e s
    | .ok inputs =>
      match randomEcPoint H inputs.bundle with
      | some pt => finishHint dest inputs.bundle pt (countRejected pt.i s)
      | none => raiseNotOnCurve (countRejected nIter s)
  | _, _, _, _ => raise .addrUnset s

/-- HINT with a given hash. -/
def hintWith (H : Hash) (s : State) : Host.Outcome State Fault Refusal := .next (issue Op.hint.word (hintBody H) s)

/-- HINT (R107), with SHA-256 (R13). -/
def execHint (s : State) : Host.Outcome State Fault Refusal := hintWith sha256 s

end Sys2Proof.Machine
end

