-- ==== Sys2Proof/Machine/Primitives.lean ====
section
/-!
DEFINITION. The field commands MODEXP, QRTEST, SQRT, CRHS and SERIALIZE (spec/40_field_primitives.md R88 to R92). Each
body is the command's pseudocode on the accepted state, which is also the engine's phase `EXEC` (R39).
-/

namespace Sys2Proof.Machine

/-- The pseudocode of MODEXP (R88). -/
def modexpBody (s : State) : State := completeOk (commitOut0 (modexp s.in0.toNat s.in1.toNat) s)

/-- The pseudocode of QRTEST (R89). -/
def qrtestBody (s : State) : State :=
  match checkFelts [s.in0] with
  | .error e => raise e s
  | .ok _ => completeOk (commitOut0 (if isQr s.in0.toNat then 1 else 0) s)

/-- The pseudocode of SQRT (R90): the range check before the residue test. -/
def sqrtBody (s : State) : State :=
  match checkFelts [s.in0] with
  | .error e => raise e s
  | .ok _ =>
    if isQr s.in0.toNat then completeOk (commitOut0 (sqrtC s.in0.toNat) s) else raise .notQr s

/-- The pseudocode of CRHS (R91). -/
def crhsBody (s : State) : State := completeOk (commitOut0 (curveRhs s.in0.toNat) s)

/-- The pseudocode of SERIALIZE (R92). -/
def serializeBody (s : State) : State :=
  match checkFelts [s.in0, s.in1, s.in2, s.in3, s.in4] with
  | .error e => raise e s
  | .ok _ =>
    completeOk (commitSeed (seedBundle s.in0.toNat s.in1.toNat s.in2.toNat s.in3.toNat s.in4.toNat) s)

/-- MODEXP (R88). -/
def execModexp (s : State) : Host.Outcome State Fault Refusal := .next (issue (Op.prim .modexp).word modexpBody s)

/-- QRTEST (R89). -/
def execQrtest (s : State) : Host.Outcome State Fault Refusal := .next (issue (Op.prim .qrtest).word qrtestBody s)

/-- SQRT (R90). -/
def execSqrt (s : State) : Host.Outcome State Fault Refusal := .next (issue (Op.prim .sqrt).word sqrtBody s)

/-- CRHS (R91). -/
def execCrhs (s : State) : Host.Outcome State Fault Refusal := .next (issue (Op.prim .crhs).word crhsBody s)

/-- SERIALIZE (R92). -/
def execSerialize (s : State) : Host.Outcome State Fault Refusal :=
  .next (issue (Op.prim .serialize).word serializeBody s)

end Sys2Proof.Machine
end

