-- ==== Sys2Proof/Machine/Dispatch.lean ====
section
/-!
DEFINITION. The meaning of every instruction, one arm per constructor of Instr.
-/

namespace Sys2Proof.Machine

def exec (i : Instr) (s : State) : Host.Outcome State Fault Refusal :=
  match i with
  | .clear => Sys2Proof.Machine.execClear s
  | .modexp => Sys2Proof.Machine.execModexp s
  | .qrtest => Sys2Proof.Machine.execQrtest s
  | .sqrt => Sys2Proof.Machine.execSqrt s
  | .crhs => Sys2Proof.Machine.execCrhs s
  | .serialize => Sys2Proof.Machine.execSerialize s
  | .derive => Sys2Proof.Machine.execDerive s
  | .hint => Sys2Proof.Machine.execHint s
  | .hostWr idx v => Sys2Proof.Machine.execHostWr idx v s
  | .hostRd idx => Sys2Proof.Machine.execHostRd idx s
  | .illegal w => Sys2Proof.Machine.execIllegal w s

end Sys2Proof.Machine
end

