-- ==== Sys2Proof/Machine/Engine.lean ====
section
/-!
DEFINITION. The engine's steps, one phase each (spec/10_state.md R39 to R41, spec/41_point_derivation.md R102, R103,
spec/42_marker_handler.md R107 to R112). This is how a command started by a HOST_WR to CTRL runs, with the host's
transactions in between.
-/

namespace Sys2Proof.Machine

/-- Phase EXEC of a single-phase command (R39). -/
def execPhase : Primitive → State → State
  | .modexp => modexpBody
  | .qrtest => qrtestBody
  | .sqrt => sqrtBody
  | .crhs => crhsBody
  | .serialize => serializeBody

/-- Phase CHECK of HINT (R108). -/
def checkPhase (s : State) : State :=
  if s.addrP.isNone || s.addrQ.isNone || s.addrM.isNone || s.addrS.isNone then raise .addrUnset s
  else { s with fsm := .read 0 }

/-- The cell that phase READ(k) reads, and the error of a failed read (R109). -/
def State.readTarget (s : State) (k : Fin 5) : Option (Addr × CoreError) :=
  match k with
  | 0 => s.addrP.map fun a => (s.vm.memberX a, .noMember .p .x)
  | 1 => s.addrP.map fun a => (s.vm.memberY a, .noMember .p .y)
  | 2 => s.addrQ.map fun a => (s.vm.memberX a, .noMember .q .x)
  | 3 => s.addrQ.map fun a => (s.vm.memberY a, .noMember .q .y)
  | 4 => s.addrM.map fun a => (s.vm.memberX a, .inputRead)

/-- The element that phase READ(k) reads (R109). -/
def Inputs.put (k : Fin 5) (v : Felt) (i : Inputs) : Inputs :=
  match k with
  | 0 => { i with px := v }
  | 1 => { i with py := v }
  | 2 => { i with qx := v }
  | 3 => { i with qy := v }
  | 4 => { i with m := v }

/-- The phase after READ(k) (R39). -/
def afterRead (k : Fin 5) : Fsm :=
  match k with
  | 0 => .read 1
  | 1 => .read 2
  | 2 => .read 3
  | 3 => .read 4
  | 4 => .seedHash .hint

/-- Phase READ(k) of HINT, one cell (R109). An address register that is NONE cannot occur here (CHECK has passed); it
ends the command as CHECK would. DEDUCED: notes/assumptions/14.md. -/
def readPhase (k : Fin 5) (s : State) : State :=
  match s.readTarget k with
  | none => raise .addrUnset s
  | some (a, e) =>
    match s.vm.readInt a e with
    | .error e => raise e s
    | .ok v => { s with work := { s.work with inputs := s.work.inputs.put k v }, fsm := afterRead k }

/-- The seed a derivation hashes: SEEDBUF for DERIVE, the bundle of the values read for HINT (R105, R110). -/
def State.seedOf (s : State) : Requester → Bytes 160
  | .derive => s.seedBuf
  | .hint => s.work.inputs.bundle

/-- Phase SEEDHASH (R102): for DERIVE the SEED_VALID check, then the seed digest. -/
def seedHashPhase (H : Hash) (r : Requester) (s : State) : State :=
  if r = .derive ∧ s.status.seedValid = false then raise .seedInvalid s
  else { s with work := { s.work with hd := H (s.seedOf r).val }, icnt := 0, fsm := .attempt r }

/-- Phase TRY(icnt) (R102): an accepted candidate is committed by DERIVE and written by HINT; a rejected one advances
the counter by one (R40), to the next candidate or to FAIL. -/
def attemptPhase (H : Hash) (r : Requester) (s : State) : State :=
  withNat (candidate H s.work.hd s.icnt.toNat) fun xr => withNat (curveRhs xr) fun rhs =>
    if isQr rhs then
      let s' := { s with work := { s.work with xraw := BitVec.ofNat 256 xr, rhs := felt rhs, y0 := felt (sqrtC rhs) } }
      match r with
      | .derive => completeOk (commitPoint s'.pendingPoint s')
      | .hint => { s' with fsm := .write }
    else
      { s with
        work := { s.work with xraw := BitVec.ofNat 256 xr, rhs := felt rhs }
        icnt := s.icnt + 1
        fsm := if s.icnt.toNat < Config.nIter - 1 then .attempt r else .fail r }

/-- Phase WRITE of HINT (R112). -/
def writePhase (s : State) : State :=
  match s.addrS with
  | none => raise .addrUnset s
  | some dest => finishHint dest s.work.inputs.bundle s.pendingPoint s

/-- One engine step with a given hash: the current phase. An idle engine takes no step (R134). -/
def engineStepWith (H : Hash) (s : State) : State :=
  match s.fsm with
  | .idle => s
  | .exec p => execPhase p s
  | .seedHash r => seedHashPhase H r s
  | .attempt r => attemptPhase H r s
  | .fail _ => raiseNotOnCurve s
  | .check => checkPhase s
  | .read k => readPhase k s
  | .write => writePhase s

/-- One engine step, with SHA-256 (R13). -/
def engineStep (s : State) : State := engineStepWith sha256 s

end Sys2Proof.Machine
end

