-- ==== Sys2Proof/Machine/Turn.lean ====
section
/-!
DEFINITION. What one turn of the interleaving does (spec/10_state.md R19, spec/20_memory.md R63).
-/

namespace Sys2Proof.Machine

/-- An instruction the host issues: decoded, then run; a transaction CORE does not take is refused by name (R68). -/
def runRaw (r : Raw) (s : State) : Host.Outcome State Fault Refusal :=
  match decode r with
  | .ok i => exec i s
  | .error e => .refused (.notATransaction e)

/-- One turn, on the state with the turn already taken off the agenda. -/
def runTurn (t : Turn) (s : State) : Host.Outcome State Fault Refusal :=
  match t with
  | .raw r => runRaw r s
  | .engine => .next (engineStep s)
  | .reset => .next (resetCore s)
  | .vmWrite a c => hostVmWrite a c s

end Sys2Proof.Machine
end

