-- ==== Sys2Proof/Machine/Step.lean ====
section
/-!
DEFINITION. One step of the machine: the next turn of the interleaving (spec/10_state.md R19, spec/20_memory.md R63).
-/

namespace Sys2Proof.Machine

/-- One step: the first turn of the agenda. With none to come the host waits and the engine advances the command in
progress (R14, U15); an idle engine takes no step (R134). -/
def step (s : State) : Host.Outcome State Fault Refusal :=
  match s.agenda with
  | [] => .next (engineStep s)
  | t :: rest => runTurn t { s with agenda := rest }

/-- `s` with an instruction, given by its table bits, as the next turn. A data phase beyond the table's bits is zero. -/
def State.withFetchWord (s : State) (nbits w : Nat) : State :=
  { s with agenda := .raw (rawOfTableWord nbits w) :: s.agenda }

end Sys2Proof.Machine
end

