-- ==== Sys2Proof/Machine/HostProgram.lean ====
section
/-!
DEFINITION. The host's side: host programs and their pseudo-instructions (spec/30_encoding.md R74 to R76), a host that
runs one against the machine (spec/70_reset_and_hazards.md R138, R146), and the VM error kind the host reports for a
HINT (spec/42_marker_handler.md R114). The host's program counter and variables are no CORE state (R40), so they stand
beside State, in `HostRun`.
-/

namespace Sys2Proof.Machine

/-- What a host variable holds: an integer, an address or `NONE`, or a truth value (`ok` of PR2). -/
inductive HostValue where
  | int (n : Int)
  | addr (a : Option Addr)
  | bool (b : Bool)
  deriving DecidableEq, Repr

/-- A value of a host line (R74): an integer, the constants P, BETA and HALF, a host variable or some of its bits, sums
and differences, a host-resolved VM address `@name`, or `NONE`; and whether two values are equal, the one condition that
the programs of spec/95_test_vectors.md part 3 use, as a condition and as a value (PR2). R74 leaves the forms of COND and
of host computation open: DESIGN CHOICE, notes/assumptions/18.md. -/
inductive HostExpr where
  | lit (n : Nat)
  | P
  | BETA
  | HALF
  | var (name : String)
  | bits (name : String) (hi lo : Nat)
  | add (a b : HostExpr)
  | sub (a b : HostExpr)
  | eq (a b : HostExpr)
  | at (name : String)
  | none
  deriving DecidableEq, Repr

/-- A line of a host program (R74). `goto` and `assign` are host control flow and host computation, as the programs of
spec/95_test_vectors.md part 3 use them; COND, whose forms R74 does not give, is an expression with a truth value. DESIGN
CHOICE: notes/assumptions/18.md. -/
inductive HostLine where
  | wr (idx : BitVec 6) (value : HostExpr)
  | rd (idx : BitVec 6) (name : String)
  | label (name : String)
  /-- `if COND goto label` -/
  | ifGoto (cond : HostExpr) (label : String)
  | goto (label : String)
  | assign (name : String) (value : HostExpr)
  deriving DecidableEq, Repr

/-- The pseudo-instructions (R75). -/
inductive Pseudo where
  | cmd (op : U32)
  | wait
  | run (op : U32)
  | modexp (b e : HostExpr) (r : String)
  | qrtest (a : HostExpr) (r : String)
  | sqrt (a : HostExpr) (r : String)
  | crhs (x : HostExpr) (r : String)
  | seed (a b c d e : HostExpr)
  | derive (x y : String)
  | hint (p q m s : String)
  deriving DecidableEq, Repr

/-- `cmd w`: a write of the command word to CTRL (R75). -/
def cmdLines (w : U32) : List HostLine := [.wr 0x00 (.lit w.toNat)]

/-- `wait`: poll STATUS until BUSY = 0, with a label and a variable of the caller's choice (R75). -/
def waitLines (fresh : String) : List HostLine :=
  [.label fresh, .rd 0x01 fresh, .ifGoto (.eq (.bits fresh 0 0) (.lit 1)) fresh]

/-- `run w` (R75). -/
def runLines (fresh : String) (w : U32) : List HostLine := cmdLines w ++ waitLines fresh

/-- The expansion of a pseudo-instruction (R75). Each holds at most one `wait`, whose label and variable are `fresh`. -/
def Pseudo.expand (fresh : String) : Pseudo → List HostLine
  | .cmd w => cmdLines w
  | .wait => waitLines fresh
  | .run w => runLines fresh w
  | .modexp b e r => [.wr 0x02 b, .wr 0x03 e] ++ runLines fresh (Op.prim .modexp).word ++ [.rd 0x07 r]
  | .qrtest a r => [.wr 0x02 a] ++ runLines fresh (Op.prim .qrtest).word ++ [.rd 0x07 r]
  | .sqrt a r => [.wr 0x02 a] ++ runLines fresh (Op.prim .sqrt).word ++ [.rd 0x07 r]
  | .crhs x r => [.wr 0x02 x] ++ runLines fresh (Op.prim .crhs).word ++ [.rd 0x07 r]
  | .seed a b c d e =>
    [.wr 0x02 a, .wr 0x03 b, .wr 0x04 c, .wr 0x05 d, .wr 0x06 e] ++ runLines fresh (Op.prim .serialize).word
  | .derive x y => runLines fresh Op.derive.word ++ [.rd 0x07 x, .rd 0x08 y]
  | .hint p q m s =>
    [.wr 0x0F (.at p), .wr 0x10 (.at q), .wr 0x11 (.at m), .wr 0x12 (.at s)] ++ runLines fresh Op.hint.word

/-- A host running a program against the machine: the lines, the next line, the variables, and the addresses behind
`@name`. -/
structure HostRun where
  lines : List HostLine
  pc : Nat
  vars : List (String × HostValue)
  names : List (String × Addr)
  machine : State
  deriving DecidableEq, Repr

/-- Why a host program cannot go on. -/
inductive HostStop where
  /-- a variable, name or label that is not defined, or an expression without a value -/
  | undefinedName
  /-- a value that is none of the register's type (R21, U8), or no truth value where a condition stands -/
  | badValue
  /-- the machine refused the transaction -/
  | refused (r : Refusal)
  deriving DecidableEq, Repr

/-- The value of an expression; integers are exact (R18). -/
def HostExpr.eval (h : HostRun) : HostExpr → Option HostValue
  | .lit n => some (.int n)
  | .P => some (.int Config.P)
  | .BETA => some (.int Config.BETA)
  | .HALF => some (.int Config.HALF)
  | .var name => h.vars.lookup name
  | .bits name hi lo =>
    match h.vars.lookup name with
    | some (.int n) => some (.int (n / 2 ^ lo % 2 ^ (hi + 1 - lo)))
    | _ => .none
  | .add a b =>
    match a.eval h, b.eval h with
    | some (.int m), some (.int n) => some (.int (m + n))
    | _, _ => .none
  | .sub a b =>
    match a.eval h, b.eval h with
    | some (.int m), some (.int n) => some (.int (m - n))
    | _, _ => .none
  | .eq a b =>
    match a.eval h, b.eval h with
    | some x, some y => some (.bool (x == y))
    | _, _ => .none
  | .at name => (h.names.lookup name).map fun a => .addr (some a)
  | .none => some (.addr .none)

/-- A host value as a bus value of a register's type, if it is one. -/
def HostValue.toBus (t : BusType) (v : HostValue) : Option BusValue :=
  match t, v with
  | .u32, .int n => if 0 ≤ n ∧ n < 2 ^ 32 then some (.u32 (BitVec.ofInt 32 n)) else none
  | .u256, .int n => if 0 ≤ n ∧ n < 2 ^ 256 then some (.u256 (BitVec.ofInt 256 n)) else none
  | .oaddr, .addr a => some (.oaddr a)
  | _, _ => none

/-- A bus value as the host sees it. -/
def HostValue.ofBus : BusValue → HostValue
  | .u32 w => .int w.toNat
  | .u256 v => .int v.toNat
  | .oaddr a => .addr a

/-- The transaction of a `wr` line (R74, R76). -/
def HostRun.write (h : HostRun) (idx : BitVec 6) (e : HostExpr) : Except HostStop HostRun :=
  match e.eval h with
  | none => .error .undefinedName
  | some v =>
    match v.toBus (busType idx) with
    | none => .error .badValue
    | some b =>
      match runRaw (.bus (busHeader true idx) (some b)) h.machine with
      | .next m => .ok { h with machine := m, pc := h.pc + 1 }
      | .refused r => .error (.refused r)

/-- The transaction of a `rd` line, and its variable (R74, R76). -/
def HostRun.read (h : HostRun) (idx : BitVec 6) (name : String) : Except HostStop HostRun :=
  match runRaw (.bus (busHeader false idx) none) h.machine with
  | .next m =>
    match m.rdata with
    | some b => .ok { h with machine := m, pc := h.pc + 1, vars := (name, .ofBus b) :: h.vars }
    | none => .error .badValue
  | .refused r => .error (.refused r)

/-- The jump to a label. -/
def HostRun.jump (h : HostRun) (label : String) : Except HostStop HostRun :=
  match h.lines.findIdx? (· == .label label) with
  | some k => .ok { h with pc := k }
  | none => .error .undefinedName

/-- The host's turn: one line of its program; past the last line it waits. -/
def HostRun.hostTurn (h : HostRun) : Except HostStop HostRun :=
  match h.lines[h.pc]? with
  | none => .ok h
  | some (.wr idx e) => h.write idx e
  | some (.rd idx name) => h.read idx name
  | some (.label _) => .ok { h with pc := h.pc + 1 }
  | some (.ifGoto cond l) =>
    match cond.eval h with
    | some (.bool true) => h.jump l
    | some (.bool false) => .ok { h with pc := h.pc + 1 }
    | some _ => .error .badValue
    | none => .error .undefinedName
  | some (.goto l) => h.jump l
  | some (.assign name e) =>
    match e.eval h with
    | some v => .ok { h with pc := h.pc + 1, vars := (name, v) :: h.vars }
    | none => .error .undefinedName

/-- The engine's turn: one phase. -/
def HostRun.engineTurn (h : HostRun) : HostRun := { h with machine := engineStep h.machine }

/-- A run under a schedule of turns, `true` for the host and `false` for the engine (R19, R63). The spec does not say whether
a reset, or a write of VM memory by the host's own means, may fall inside a run of a host program (R146), and R74 has no
line for either: neither does here. In the machine itself both are turns, at any point of any run (`Turn`). DESIGN CHOICE,
unsafe for a claim about every run of a host program: notes/assumptions/18.md. -/
def HostRun.run (h : HostRun) : List Bool → Except HostStop HostRun
  | [] => .ok h
  | true :: rest =>
    match h.hostTurn with
    | .ok h' => h'.run rest
    | .error e => .error e
  | false :: rest => h.engineTurn.run rest

/-- A run is over when the host program has executed its last line and BUSY = 0 (R146). -/
def HostRun.over (h : HostRun) : Bool := decide (h.lines.length ≤ h.pc) && !h.machine.busy

/-- The VM's error kinds, as the host reports a failed HINT (R114). -/
inductive VmError where
  | identifierHasNoMember (name member : String)
  /-- the document's "(input read failure)" -/
  | inputReadFailure
  | randomEcPointNotOnCurve
  /-- no kind in the document: the host's own channel, with CORE's code -/
  | hostChannel (code : BitVec 4)
  deriving DecidableEq, Repr

/-- The error the host reports for the HINT that STATUS shows, if it ended in error (R114). -/
def Status.vmError (st : Status) : Option VmError :=
  if st.err then
    if st.errcode = 6 then
      some (.identifierHasNoMember (if st.errid then "q" else "p") (if st.errmem then "y" else "x"))
    else if st.errcode = 7 then some .inputReadFailure
    else if st.errcode = 8 then some .randomEcPointNotOnCurve
    else some (.hostChannel st.errcode)
  else none

end Sys2Proof.Machine
end

