-- ==== Sys2Proof/Safety.lean ====
section
/-!
DEFINITION. The terms the statements use: squares modulo P and the curve, the candidates of a derivation, STATUS after a
command, the invariant of the machine, a turn that keeps the hazards of spec/70_reset_and_hazards.md, and what a safe run is.
They are written apart from the meanings, from the words of the rules.
-/

namespace Sys2Proof.Machine

open Sys2Proof.Config

/-- `a` is a quadratic residue: "there exists b in [0, p) with b² ≡ a (mod p)" (R82). -/
def Square (a : Nat) : Prop := ∃ b, b < P ∧ b * b % P = a

/-- `(x, y)` is on the curve: `y² ≡ x³ + x + BETA (mod P)` (R8, R106). -/
def OnCurve (x y : Nat) : Prop := y * y % P = (x ^ 3 + x + BETA) % P

/-- The candidate of index `i` for a seed digest: the hash of the 41-byte block, as a big-endian integer (R95 to R97). -/
def candidateOf (H : Hash) (d : Bytes 32) (i : Nat) : Nat :=
  fromBe32 (H (d.val.drop 1 ++ [BitVec.ofNat 8 i] ++ List.replicate 9 0))

/-- The candidate's right-hand side, from the unreduced candidate (R98). -/
def rhsOf (H : Hash) (d : Bytes 32) (i : Nat) : Nat :=
  ((candidateOf H d i) ^ 3 + candidateOf H d i + BETA) % P

/-- STATUS after a command that completed without error, started on STATUS `st` (R38, R121). -/
def doneStatus (st : Status) : Status :=
  { done := true, err := false, ovr := st.ovr, seedValid := st.seedValid, sign := st.sign, errcode := 0,
    errid := false, errmem := false, iter := 0 }

/-- STATUS after a command that ended in the error of a code, started on STATUS `st` (R38, R120). -/
def errorStatus (code : BitVec 4) (st : Status) : Status :=
  { done := false, err := true, ovr := st.ovr, seedValid := st.seedValid, sign := st.sign, errcode := code,
    errid := false, errmem := false, iter := 0 }

/-- The command in progress (R39). -/
def Fsm.op? : Fsm → Option Op
  | .idle => none
  | .exec p => some (.prim p)
  | .seedHash .derive | .attempt .derive | .fail .derive => some .derive
  | .seedHash .hint | .attempt .hint | .fail .hint | .check | .read _ | .write => some .hint

/-- The state without the working state, which nothing can observe after a command (R41, R143). -/
def State.forgetWork (s : State) : State := { s with work := .zero }

/-- HINT has passed its address check: it is in a phase after CHECK (R39). -/
def Fsm.afterCheck : Fsm → Bool
  | .read _ | .seedHash .hint | .attempt .hint | .fail .hint | .write => true
  | .idle | .exec _ | .check | .seedHash .derive | .attempt .derive | .fail .derive => false

/-- What holds in every state a run reaches, and what every step keeps. -/
structure State.Inv (s : State) : Prop where
  /-- VM memory is in canonical form -/
  vmCanonical : s.vm.wf
  /-- DONE and ERR never hold together (R32) -/
  doneErrApart : ¬ (s.status.done = true ∧ s.status.err = true)
  /-- while BUSY, DONE and ERR are 0 (R32) -/
  busyQuiet : s.busy = true → s.status.done = false ∧ s.status.err = false
  /-- ERRCODE is 0 exactly when there is no error (R36) -/
  codeIffErr : s.status.err = true ↔ s.status.errcode ≠ 0
  /-- codes 10 to 15 are never written (R119) -/
  codeInTable : s.status.errcode.toNat ≤ 9
  /-- ERRID and ERRMEM are 0 unless ERRCODE is E_NO_MEMBER (R29) -/
  memberInfo : s.status.errcode ≠ 6 → s.status.errid = false ∧ s.status.errmem = false
  /-- ITER is 0 to 100 (R29) -/
  iterRange : s.status.iter.toNat ≤ 100
  /-- ITER is 100 exactly after E_NOT_ON_CURVE (R37) -/
  iterExhausted : s.status.iter = 100 ↔ s.status.errcode = 8
  /-- ITER is 0 unless a derivation succeeded or was exhausted (R37) -/
  iterZero : s.status.done = false → s.status.errcode ≠ 8 → s.status.iter = 0
  /-- OUT0 and OUT1 hold field elements (R24, R69) -/
  out0Felt : s.out0.toNat < P
  out1Felt : s.out1.toNat < P
  /-- SEEDBUF is zero until a bundle is loaded (R34, R45) -/
  seedUnloaded : s.status.seedValid = false → s.seedBuf = State.reset.seedBuf
  /-- SEEDBUF holds five field elements (R80) -/
  seedFelts : ∀ k < 5, (seedView s.seedBuf k).toNat < P
  /-- CTRL holds the word of the command in progress (R22) -/
  ctrlRuns : ∀ op, s.fsm.op? = some op → s.ctrl = op.word
  /-- DERIVE hashes only a loaded bundle (R102) -/
  deriveLoaded : ∀ r, s.fsm = .attempt r ∨ s.fsm = .fail r → r = .derive → s.status.seedValid = true
  /-- HINT goes past CHECK only with four addresses (R108) -/
  hintAddressed : s.fsm.afterCheck = true →
    s.addrP.isSome = true ∧ s.addrQ.isSome = true ∧ s.addrM.isSome = true ∧ s.addrS.isSome = true
  /-- the counter is 0 to 100 (R40) -/
  counterBound : s.icnt.toNat ≤ 100
  /-- the counter of a candidate being tried, or accepted, is 0 to 99 (R40) -/
  counterRange : ∀ r, s.fsm = .attempt r ∨ s.fsm = .write → s.icnt.toNat ≤ 99
  /-- the counter is 100 when every candidate was rejected (R40) -/
  counterExhausted : ∀ r, s.fsm = .fail r → s.icnt.toNat = 100
  /-- HINT writes the result of an accepted candidate (R99, R111) -/
  pendingAccepted : s.fsm = .write →
    s.work.rhs.val = (s.work.xraw.toNat ^ 3 + s.work.xraw.toNat + BETA) % P ∧
      s.work.y0.val * s.work.y0.val % P = s.work.rhs.val

/-- When STATUS shows a completed DERIVE or HINT, OUT0 and OUT1 hold a point of the curve (R24, R106). -/
def State.ShowsCurvePoint (s : State) : Prop :=
  s.status.done = true → s.ctrl = Op.derive.word ∨ s.ctrl = Op.hint.word → OnCurve s.out0.toNat s.out1.toNat

/-- A turn that keeps the hazards software must respect: no host write and no read of a result register while BUSY = 1
(R139, R140), and no host write to HINT's cells (R142). -/
def Turn.keepsHazards (s : State) : Turn → Bool
  | .raw (.command _) => !s.busy
  | .raw (.bus h _) => !s.busy || (!headerWrite h && !isResultReg (Reg.ofIndex (headerIndex h)))
  | .vmWrite a _ => !(s.busy && s.hintCells.contains a)
  | .engine | .reset => true

/-- A run of `k` steps is safe when it ends in no fault and no refusal. -/
def SafeRun (k : Nat) (s : State) : Prop := ∃ t, Host.Core.run Sys2Proof.core k s = .next t

end Sys2Proof.Machine
end

