-- ==== Sys2Proof/Certificates/Slice0/Obligations.lean ====
section
/-!
DEFINITION. The statements for the provers. Each says what the rules of spec/ say; where a clause is the model's own
choice, its docstring names the log entry.
-/

open Sys2Proof Sys2Proof.Machine Sys2Proof.Config

/-! ### Encoding -/

/-- Decoding the raw form of a well-formed instruction gives the instruction back (R67, R68, R70, R72). -/
def Obligations.DecodeEncodeRoundTrip : Prop :=
  ∀ i : Instr, i.wf = true → decode (encode i) = .ok i

/-- Every raw form that decodes is the raw form of the well-formed instruction it decodes to, so each has one meaning. -/
def Obligations.EncodeDecodeRoundTrip : Prop :=
  ∀ (r : Raw) (i : Instr), decode r = .ok i → i.wf = true ∧ encode i = r

/-- The opcode map, as 32-bit words (R70); every other word is illegal. -/
def Obligations.OpcodeMapOfCommandWords : Prop :=
  decodeCmd 0x00000000 = .clear ∧ decodeCmd 0x00000001 = .modexp ∧ decodeCmd 0x00000002 = .qrtest ∧
  decodeCmd 0x00000003 = .sqrt ∧ decodeCmd 0x00000004 = .crhs ∧ decodeCmd 0x00000005 = .serialize ∧
  decodeCmd 0x00000006 = .derive ∧ decodeCmd 0x00000007 = .hint ∧
  ∀ w : U32, 8 ≤ w.toNat → decodeCmd w = .illegal w

/-- The headers of the assembly lines of R76, and the header of any transaction. -/
def Obligations.BusHeadersOfAssemblyLines : Prop :=
  (∀ w : U32, decode (.bus 0x80 (some (.u32 w))) = .ok (.hostWr 0x00 (.u32 w))) ∧
  decode (.bus 0x01 none) = .ok (.hostRd 0x01) ∧
  (∀ v : U256, decode (.bus 0x82 (some (.u256 v))) = .ok (.hostWr 0x02 (.u256 v))) ∧
  decode (.bus 0x07 none) = .ok (.hostRd 0x07) ∧
  decode (.bus 0x08 none) = .ok (.hostRd 0x08) ∧
  (∀ a : Option Addr, decode (.bus 0x8F (some (.oaddr a))) = .ok (.hostWr 0x0F (.oaddr a))) ∧
  (∀ a : Option Addr, decode (.bus 0x92 (some (.oaddr a))) = .ok (.hostWr 0x12 (.oaddr a))) ∧
  ∀ (we : Bool) (idx : BitVec 6), (busHeader we idx).toNat = (if we then 0x80 else 0) + idx.toNat

/-- A transaction whose header has bit 6 set is refused by the step, whatever the state and the data phase (R68, U9). -/
def Obligations.ReservedHeaderBitIsRefused : Prop :=
  ∀ (s : State) (h : BitVec 8) (data : Option BusValue) (rest : List Turn),
    s.agenda = .raw (.bus h data) :: rest → h.getLsbD 6 = true →
    step s = .refused (.notATransaction .reservedHeaderBit)

/-- A HOST_WR whose value is not of the indexed register's type is refused, by the instruction and at the bus (R21,
U8). -/
def Obligations.WrongValueTypeIsRefused : Prop :=
  ∀ (s : State) (idx : BitVec 6) (v : BusValue), v.type ≠ busType idx →
    exec (.hostWr idx v) s = .refused .busValueType ∧
    ∀ rest, s.agenda = .raw (.bus (busHeader true idx) (some v)) :: rest →
      step s = .refused (.notATransaction .wrongValueType)

/-! ### The step -/

/-- A step whose next turn is an instruction runs it: the step is `exec` of the decoded instruction on the state with the
turn taken off the agenda; and the same for an instruction given by its table bits. -/
def Obligations.StepRunsDecodedInstruction : Prop :=
  (∀ (s : State) (r : Raw) (i : Instr) (rest : List Turn),
    s.agenda = .raw r :: rest → decode r = .ok i → step s = exec i { s with agenda := rest }) ∧
  ∀ (s : State) (nbits w : Nat) (i : Instr),
    decodeTableWord nbits w = some i → step (s.withFetchWord nbits w) = exec i s

/-- With BUSY = 0 and nothing from the host, CORE takes no step: all state is kept (R134; that an empty agenda means
waiting is the model's choice, notes/assumptions/5.md). -/
def Obligations.IdleMachineKeepsItsState : Prop :=
  ∀ s : State, s.agenda = [] → s.busy = false → step s = .next s

/-- Every well-formed instruction answers a next state in every state: none stops the machine (R119, R125). -/
def Obligations.WellFormedInstructionsAnswerNext : Prop :=
  ∀ (i : Instr) (s : State), i.wf = true → ∃ t, exec i s = .next t

/-- A step is refused only for a bus transaction that does not decode, or a host write to HINT's cells while BUSY = 1, and
it never ends in a fault (R125, R142, U7 to U9). -/
def Obligations.OnlyMalformedTurnsStop : Prop :=
  ∀ s : State,
    (∃ t, step s = .next t) ∨
    (∃ h data rest e, s.agenda = .raw (.bus h data) :: rest ∧ decode (.bus h data) = .error e ∧
      step s = .refused (.notATransaction e)) ∨
    (∃ a c rest, s.agenda = .vmWrite a c :: rest ∧ s.busy = true ∧ a ∈ s.hintCells ∧
      step s = .refused .hostWriteDuringCommand)

/-! ### The commands: result, STATUS and everything unchanged -/

/-- While BUSY = 1 a command word and a bus write are ignored and set OVR (R33). -/
def Obligations.WritesWhileBusyOnlySetOvr : Prop :=
  ∀ (s : State) (i : Instr), s.busy = true → i.wf = true → (∀ idx, i ≠ .hostRd idx) →
    exec i s = .next { s with status := { s.status with ovr := true } }

/-- CLEAR: CTRL reads 0; DONE, ERR, ERRCODE, ERRID, ERRMEM, ITER and OVR are 0; nothing else changes. While BUSY = 1 it is
ignored and sets OVR (R116). -/
def Obligations.ClearResult : Prop :=
  ∀ s : State,
    (s.busy = false →
      exec .clear s = .next
        { s with
          ctrl := 0
          status := { done := false, err := false, ovr := false, seedValid := s.status.seedValid, sign := s.status.sign,
                      errcode := 0, errid := false, errmem := false, iter := 0 } }) ∧
    (s.busy = true → exec .clear s = .next { s with status := { s.status with ovr := true } })

/-- An illegal word is latched and ends at once in E_ILLEGAL_CMD; nothing else changes (R72). -/
def Obligations.IllegalWordResult : Prop :=
  ∀ (s : State) (w : U32), s.busy = false → ((w.extractLsb' 8 24).toNat ≠ 0 ∨ 8 ≤ (w.extractLsb' 0 8).toNat) →
    decodeCmd w = .illegal w ∧
    exec (.illegal w) s = .next { s with ctrl := w, status := errorStatus 1 s.status }

/-- MODEXP puts `b ^ e mod P` in OUT0, for every 256-bit base and exponent; nothing else but CTRL and STATUS changes
(R81, R88). -/
def Obligations.ModexpResult : Prop :=
  ∀ s : State, s.busy = false →
    exec .modexp s = .next
      { s with
        ctrl := 0x00000001
        out0 := BitVec.ofNat 256 (s.in0.toNat ^ s.in1.toNat % P)
        status := doneStatus s.status }

/-- QRTEST: 1 in OUT0 for a quadratic residue, 0 for a field element that is none, E_RANGE at P and above; nothing else
changes (R82, R89). -/
def Obligations.QrtestResult : Prop :=
  ∀ s : State, s.busy = false →
    (P ≤ s.in0.toNat → exec .qrtest s = .next { s with ctrl := 0x00000002, status := errorStatus 2 s.status }) ∧
    (s.in0.toNat < P → Square s.in0.toNat →
      exec .qrtest s = .next { s with ctrl := 0x00000002, out0 := 1, status := doneStatus s.status }) ∧
    (s.in0.toNat < P → ¬ Square s.in0.toNat →
      exec .qrtest s = .next { s with ctrl := 0x00000002, out0 := 0, status := doneStatus s.status })

/-- SQRT: the one root that is at most HALF in OUT0, E_NOT_QR for a field element that is no residue, E_RANGE at P and
above; nothing else changes (R83, R90). -/
def Obligations.SqrtResult : Prop :=
  ∀ s : State, s.busy = false →
    (P ≤ s.in0.toNat → exec .sqrt s = .next { s with ctrl := 0x00000003, status := errorStatus 2 s.status }) ∧
    (s.in0.toNat < P → ¬ Square s.in0.toNat →
      exec .sqrt s = .next { s with ctrl := 0x00000003, status := errorStatus 3 s.status }) ∧
    (s.in0.toNat < P → Square s.in0.toNat →
      ∃ r, r ≤ HALF ∧ r * r % P = s.in0.toNat ∧ (∀ r', r' ≤ HALF → r' * r' % P = s.in0.toNat → r' = r) ∧
        exec .sqrt s = .next
          { s with ctrl := 0x00000003, out0 := BitVec.ofNat 256 r, status := doneStatus s.status })

/-- CRHS puts `x³ + x + BETA mod P` in OUT0, for every 256-bit `x`; nothing else but CTRL and STATUS changes (R85,
R91). -/
def Obligations.CrhsResult : Prop :=
  ∀ s : State, s.busy = false →
    exec .crhs s = .next
      { s with
        ctrl := 0x00000004
        out0 := BitVec.ofNat 256 ((s.in0.toNat ^ 3 + s.in0.toNat + BETA) % P)
        status := doneStatus s.status }

/-- SERIALIZE: the five operands, big-endian in 32 bytes each, in SEEDBUF, so that SEEDk reads INk, and SEED_VALID; or
E_RANGE and SEEDBUF as before, if an operand is P or more; nothing else changes (R80, R87, R92). -/
def Obligations.SerializeResult : Prop :=
  ∀ s : State, s.busy = false →
    ((∃ v ∈ [s.in0, s.in1, s.in2, s.in3, s.in4], P ≤ v.toNat) →
      exec .serialize s = .next { s with ctrl := 0x00000005, status := errorStatus 2 s.status }) ∧
    ((∀ v ∈ [s.in0, s.in1, s.in2, s.in3, s.in4], v.toNat < P) →
      ∃ buf : Bytes 160,
        exec .serialize s = .next
          { s with ctrl := 0x00000005, seedBuf := buf, status := { doneStatus s.status with seedValid := true } } ∧
        (seedView buf 0 = s.in0 ∧ seedView buf 1 = s.in1 ∧ seedView buf 2 = s.in2 ∧ seedView buf 3 = s.in3 ∧
          seedView buf 4 = s.in4) ∧
        ∀ (k j : Nat) (v : U256), [s.in0, s.in1, s.in2, s.in3, s.in4][k]? = some v → j < 32 →
          buf.val[32 * k + j]? = some (BitVec.ofNat 8 (v.toNat / 256 ^ (31 - j))))

/-- DERIVE without a loaded bundle ends in E_SEED_INVALID; nothing else changes (R105). -/
def Obligations.DeriveWithoutSeed : Prop :=
  ∀ s : State, s.busy = false → s.status.seedValid = false →
    exec .derive s = .next { s with ctrl := 0x00000006, status := errorStatus 4 s.status }

/-- DERIVE on a loaded bundle, when the candidate of index `i` is the first whose right-hand side is a residue: OUT0 is the
candidate modulo P, OUT1 the smaller root or its negative by the sign bit, HSEED the digest; SIGN and ITER, and the counter
`icnt` at the number of rejected candidates; nothing else changes (R40, R93 to R100, R102, R105). That the working state of
R41 keeps its values is the model's choice (notes/assumptions/9.md). -/
def Obligations.DeriveResult : Prop :=
  ∀ (s : State) (d : Bytes 32) (i : Nat), s.busy = false → s.status.seedValid = true →
    d = sha256 s.seedBuf.val → i < 100 → Square (rhsOf sha256 d i) → (∀ j < i, ¬ Square (rhsOf sha256 d j)) →
    ∃ y0, y0 ≤ HALF ∧ y0 * y0 % P = rhsOf sha256 d i ∧
      exec .derive s = .next
        { s with
          ctrl := 0x00000006
          out0 := BitVec.ofNat 256 (candidateOf sha256 d i % P)
          out1 := BitVec.ofNat 256 (if (d.val.headD 0).getLsbD 0 then (P - y0) % P else y0)
          hseed := BitVec.ofNat 256 (fromBe32 d)
          icnt := BitVec.ofNat 7 i
          status := { doneStatus s.status with sign := (d.val.headD 0).getLsbD 0, iter := BitVec.ofNat 7 i } }

/-- DERIVE when none of the 100 candidates is a residue: E_NOT_ON_CURVE and ITER = 100, and the counter `icnt` at 100;
nothing else changes (R40, R101 to R103, R105). That the working state of R41 keeps its values is the model's choice
(notes/assumptions/9.md). Stated for any hash, of which SHA-256 is the machine's (R13). -/
def Obligations.DeriveExhaustion : Prop :=
  (∀ (H : Hash) (s : State), s.busy = false → s.status.seedValid = true →
    (∀ j < 100, ¬ Square (rhsOf H (H s.seedBuf.val) j)) →
    deriveWith H s = .next
      { s with ctrl := 0x00000006, icnt := 100, status := { errorStatus 8 s.status with iter := 100 } }) ∧
  ∀ s : State, exec .derive s = deriveWith sha256 s

/-- HINT on four addresses whose five input cells hold integers, when the derivation from their bundle succeeds and the VM
accepts both cells of `s`: the two cells hold the coordinates, every other address reads as before, and the registers are
those of a DERIVE on the bundle, which is loaded, the counter `icnt` included; nothing else changes (R40, R49 to R51, R102,
R107, R110 to R112). `AS + 1` is whatever address the VM's `addr_add` says (R12); should it be `AS` itself, the second of
R49's two writes stands. That the working state of R41 keeps its values is the model's choice (notes/assumptions/9.md). -/
def Obligations.HintResult : Prop :=
  ∀ (s : State) (p q m dest : Addr) (i : Inputs) (pt : Point), s.busy = false →
    s.addrP = some p → s.addrQ = some q → s.addrM = some m → s.addrS = some dest →
    s.vm.read p = .int i.px → s.vm.read (s.vm.addrAdd p 1) = .int i.py → s.vm.read q = .int i.qx →
    s.vm.read (s.vm.addrAdd q 1) = .int i.qy → s.vm.read m = .int i.m →
    randomEcPoint sha256 i.bundle = some pt →
    s.vm.admits dest pt.x = true → s.vm.admits (s.vm.addrAdd dest 1) pt.y = true →
    (∃ vm : Memory,
      exec .hint s = .next
        { s with
          ctrl := 0x00000007
          vm := vm
          seedBuf := i.bundle
          out0 := BitVec.ofNat 256 pt.x.val
          out1 := BitVec.ofNat 256 pt.y.val
          hseed := BitVec.ofNat 256 (fromBe32 pt.h)
          icnt := BitVec.ofNat 7 pt.i
          status := { doneStatus s.status with
            seedValid := true, sign := (pt.h.val.headD 0).getLsbD 0, iter := BitVec.ofNat 7 pt.i } } ∧
      vm.policy = s.vm.policy ∧ vm.offsets = s.vm.offsets ∧
      (s.vm.addrAdd dest 1 ≠ dest → vm.read dest = .int pt.x) ∧ vm.read (s.vm.addrAdd dest 1) = .int pt.y ∧
      ∀ a, a ≠ dest → a ≠ s.vm.addrAdd dest 1 → vm.read a = s.vm.read a) ∧
    (seedView i.bundle 0).toNat = i.px.val ∧ (seedView i.bundle 1).toNat = i.py.val ∧
    (seedView i.bundle 2).toNat = i.m.val ∧ (seedView i.bundle 3).toNat = i.qx.val ∧
    (seedView i.bundle 4).toNat = i.qy.val

/-- HINT with an address register that holds NONE ends in E_ADDR_UNSET; with all four addresses, at the first of p.x, p.y,
q.x, q.y whose cell holds no integer in E_NO_MEMBER naming it, and else at `m` in E_INPUT_READ; nothing else changes
(R108, R109, R122, R123). That the input values of the working state, which the READ phases write (R41, R109), keep theirs
is the model's choice (notes/assumptions/9.md). -/
def Obligations.HintInputErrors : Prop :=
  ∀ s : State, s.busy = false →
    ((s.addrP = none ∨ s.addrQ = none ∨ s.addrM = none ∨ s.addrS = none) →
      exec .hint s = .next { s with ctrl := 0x00000007, status := errorStatus 5 s.status }) ∧
    ∀ p q m dest : Addr, s.addrP = some p → s.addrQ = some q → s.addrM = some m → s.addrS = some dest →
      ((∀ v, s.vm.read p ≠ .int v) →
        exec .hint s = .next { s with ctrl := 0x00000007, status := errorStatus 6 s.status }) ∧
      ((∃ v, s.vm.read p = .int v) → (∀ v, s.vm.read (s.vm.addrAdd p 1) ≠ .int v) →
        exec .hint s = .next
          { s with ctrl := 0x00000007, status := { errorStatus 6 s.status with errmem := true } }) ∧
      ((∃ v, s.vm.read p = .int v) → (∃ v, s.vm.read (s.vm.addrAdd p 1) = .int v) → (∀ v, s.vm.read q ≠ .int v) →
        exec .hint s = .next
          { s with ctrl := 0x00000007, status := { errorStatus 6 s.status with errid := true } }) ∧
      ((∃ v, s.vm.read p = .int v) → (∃ v, s.vm.read (s.vm.addrAdd p 1) = .int v) → (∃ v, s.vm.read q = .int v) →
        (∀ v, s.vm.read (s.vm.addrAdd q 1) ≠ .int v) →
        exec .hint s = .next
          { s with ctrl := 0x00000007, status := { errorStatus 6 s.status with errid := true, errmem := true } }) ∧
      ((∃ v, s.vm.read p = .int v) → (∃ v, s.vm.read (s.vm.addrAdd p 1) = .int v) → (∃ v, s.vm.read q = .int v) →
        (∃ v, s.vm.read (s.vm.addrAdd q 1) = .int v) → (∀ v, s.vm.read m ≠ .int v) →
        exec .hint s = .next { s with ctrl := 0x00000007, status := errorStatus 7 s.status })

/-- HINT on readable inputs ends in E_NOT_ON_CURVE with ITER = 100 when the derivation is exhausted, and in E_WRITE when
the VM rejects a cell of `s`, with the counter `icnt` at the number of rejected candidates; nothing else changes, VM memory
included (R40, R49, R102, R103, R107, R112). That the working state of R41 keeps its values is the model's choice
(notes/assumptions/9.md). Stated for any hash, of which SHA-256 is the machine's (R13). -/
def Obligations.HintLateErrors : Prop :=
  (∀ (H : Hash) (s : State) (p q m dest : Addr) (i : Inputs), s.busy = false →
    s.addrP = some p → s.addrQ = some q → s.addrM = some m → s.addrS = some dest →
    s.vm.read p = .int i.px → s.vm.read (s.vm.addrAdd p 1) = .int i.py → s.vm.read q = .int i.qx →
    s.vm.read (s.vm.addrAdd q 1) = .int i.qy → s.vm.read m = .int i.m →
    (randomEcPoint H i.bundle = none →
      hintWith H s = .next
        { s with ctrl := 0x00000007, icnt := 100, status := { errorStatus 8 s.status with iter := 100 } }) ∧
    ∀ pt, randomEcPoint H i.bundle = some pt →
      (s.vm.admits dest pt.x = false ∨ s.vm.admits (s.vm.addrAdd dest 1) pt.y = false) →
      hintWith H s = .next
        { s with ctrl := 0x00000007, icnt := BitVec.ofNat 7 pt.i, status := errorStatus 9 s.status }) ∧
  ∀ s : State, exec .hint s = hintWith sha256 s

/-! ### The bus operations -/

/-- HOST_WR. With BUSY = 1 it sets OVR and does nothing else. With BUSY = 0: IN0..IN4 and AP..AS take the value, a
read-only or reserved index ignores it, a command word that runs is latched, clears the acceptance fields and starts the
engine in the command's first phase, and CLEAR or an illegal word completes in this step; nothing else changes (R38, R71,
R117). -/
def Obligations.HostWriteResult : Prop :=
  ∀ s : State,
    (s.busy = true → ∀ (idx : BitVec 6) (v : BusValue), v.type = busType idx →
      exec (.hostWr idx v) s = .next { s with status := { s.status with ovr := true } }) ∧
    (s.busy = false →
      (∀ v : U256,
        exec (.hostWr 0x02 (.u256 v)) s = .next { s with in0 := v } ∧
        exec (.hostWr 0x03 (.u256 v)) s = .next { s with in1 := v } ∧
        exec (.hostWr 0x04 (.u256 v)) s = .next { s with in2 := v } ∧
        exec (.hostWr 0x05 (.u256 v)) s = .next { s with in3 := v } ∧
        exec (.hostWr 0x06 (.u256 v)) s = .next { s with in4 := v }) ∧
      (∀ a : Option Addr,
        exec (.hostWr 0x0F (.oaddr a)) s = .next { s with addrP := a } ∧
        exec (.hostWr 0x10 (.oaddr a)) s = .next { s with addrQ := a } ∧
        exec (.hostWr 0x11 (.oaddr a)) s = .next { s with addrM := a } ∧
        exec (.hostWr 0x12 (.oaddr a)) s = .next { s with addrS := a }) ∧
      (∀ (idx : BitVec 6) (v : BusValue), v.type = busType idx →
        (idx.toNat = 0x01 ∨ (0x07 ≤ idx.toNat ∧ idx.toNat ≤ 0x0E) ∨ 0x13 ≤ idx.toNat) →
        exec (.hostWr idx v) s = .next s) ∧
      ∀ w : U32,
        (∀ op : Op, w = op.word →
          exec (.hostWr 0x00 (.u32 w)) s = .next
            { s with
              ctrl := w
              status := { errorStatus 0 s.status with err := false }
              fsm := match op with
                | .prim p => .exec p
                | .derive => .seedHash .derive
                | .hint => .check }) ∧
        (w = 0 → exec (.hostWr 0x00 (.u32 w)) s = exec .clear s) ∧
        (8 ≤ w.toNat → exec (.hostWr 0x00 (.u32 w)) s = exec (.illegal w) s))

/-- HOST_RD gives the host the register's value, exactly, and changes nothing else; while BUSY = 1 a read of 0x07 to 0x0E
gives some 256-bit value of its own draw (R26, R28, R48, R58, R118). The value read stands in `rdata`, and `draws` counts
the draws (notes/assumptions/13.md, 4.md). -/
def Obligations.HostReadResult : Prop :=
  ∀ (s : State) (idx : BitVec 6),
    (∀ v : BusValue,
      [BusValue.u32 s.ctrl, .u32 s.statusWord, .u256 s.in0, .u256 s.in1, .u256 s.in2, .u256 s.in3, .u256 s.in4][idx.toNat]?
          = some v →
        exec (.hostRd idx) s = .next { s with rdata := some v }) ∧
    (∀ v : BusValue, 0x0F ≤ idx.toNat →
      [BusValue.oaddr s.addrP, .oaddr s.addrQ, .oaddr s.addrM, .oaddr s.addrS][idx.toNat - 0x0F]? = some v →
        exec (.hostRd idx) s = .next { s with rdata := some v }) ∧
    (0x13 ≤ idx.toNat → exec (.hostRd idx) s = .next { s with rdata := some (.u32 0) }) ∧
    (∀ v : U256, 0x07 ≤ idx.toNat → s.busy = false →
      [s.out0, s.out1, s.hseed, seedView s.seedBuf 0, seedView s.seedBuf 1, seedView s.seedBuf 2, seedView s.seedBuf 3,
        seedView s.seedBuf 4][idx.toNat - 0x07]? = some v →
        exec (.hostRd idx) s = .next { s with rdata := some (.u256 v) }) ∧
    (0x07 ≤ idx.toNat → idx.toNat ≤ 0x0E → s.busy = true →
      ∃ v : U256, exec (.hostRd idx) s = .next { s with rdata := some (.u256 v), draws := s.draws + 1 })

/-- STATUS, bit by bit (R29); BUSY is 1 exactly while the engine is not idle (R39). -/
def Obligations.StatusWordLayout : Prop :=
  ∀ s : State,
    (s.statusWord.getLsbD 0 = true ↔ s.fsm ≠ .idle) ∧
    s.statusWord.getLsbD 1 = s.status.done ∧
    s.statusWord.getLsbD 2 = s.status.err ∧
    s.statusWord.getLsbD 3 = s.status.ovr ∧
    s.statusWord.getLsbD 4 = s.status.seedValid ∧
    s.statusWord.getLsbD 5 = s.status.sign ∧
    s.statusWord.extractLsb' 6 2 = 0 ∧
    s.statusWord.extractLsb' 8 4 = s.status.errcode ∧
    s.statusWord.getLsbD 12 = s.status.errid ∧
    s.statusWord.getLsbD 13 = s.status.errmem ∧
    s.statusWord.extractLsb' 14 2 = 0 ∧
    s.statusWord.extractLsb' 16 7 = s.status.iter ∧
    s.statusWord.extractLsb' 23 9 = 0

/-! ### Errors -/

/-- A command that ends in error changes no register but CTRL and STATUS, no STATUS field OVR, SEED_VALID or SIGN, and no VM
cell (R113, R122); of the hidden state it changes the counter `icnt` alone, and that only when the derivation has run, that
is, in E_NOT_ON_CURVE or E_WRITE (R40, R102). That the working state of R41 keeps its values is the model's choice
(notes/assumptions/9.md). -/
def Obligations.ErrorsArePrecise : Prop :=
  ∀ (i : Instr) (s t : State), (∀ idx v, i ≠ .hostWr idx v) → (∀ idx, i ≠ .hostRd idx) → s.busy = false →
    exec i s = .next t → t.status.err = true →
    { t with ctrl := s.ctrl, status := s.status, icnt := s.icnt } = s ∧ t.status.ovr = s.status.ovr ∧
      t.status.seedValid = s.status.seedValid ∧ t.status.sign = s.status.sign ∧
      (t.status.errcode ≠ 8 → t.status.errcode ≠ 9 → t.icnt = s.icnt)

/-- The same for the engine's phases: the step that ends a command in error changes only STATUS, not its OVR, SEED_VALID or
SIGN, and the engine's control state (R120, R122). -/
def Obligations.EngineErrorsArePrecise : Prop :=
  ∀ s : State, s.Inv → s.busy = true → (engineStep s).status.err = true →
    { engineStep s with status := s.status, fsm := s.fsm } = s ∧ (engineStep s).fsm = .idle ∧
      (engineStep s).status.ovr = s.status.ovr ∧ (engineStep s).status.seedValid = s.status.seedValid ∧
      (engineStep s).status.sign = s.status.sign

/-! ### VM memory -/

/-- Only HINT touches VM memory (R50), and it leaves every cell but the two of `s`, the addresses `AS` and `AS + 1`, as it
was (R112). -/
def Obligations.OnlyHintWritesVmMemory : Prop :=
  (∀ (i : Instr) (s t : State), i ≠ .hint → exec i s = .next t → t.vm = s.vm) ∧
  ∀ s t : State, exec .hint s = .next t →
    ∀ a, (∀ dest, s.addrS = some dest → a ≠ dest ∧ a ≠ s.vm.addrAdd dest 1) → t.vm.read a = s.vm.read a

/-- MemWrite: both cells, when the VM admits both values on the memory as it was, or neither (R49). Should `a + 1` be `a`,
which R12 leaves open, the second write stands. -/
def Obligations.MemWriteIsAtomic : Prop :=
  ∀ (m : Memory) (a : Addr) (v0 v1 : Felt),
    (m.admits a v0 = true → m.admits (m.addrAdd a 1) v1 = true →
      ∃ m', m.writePair a v0 v1 = some m' ∧ (m.addrAdd a 1 ≠ a → m'.read a = .int v0) ∧
        m'.read (m.addrAdd a 1) = .int v1 ∧ ∀ b, b ≠ a → b ≠ m.addrAdd a 1 → m'.read b = m.read b) ∧
    (m.admits a v0 = false ∨ m.admits (m.addrAdd a 1) v1 = false → m.writePair a v0 v1 = none)

/-- Two memories in canonical form of VMs with the same policy and the same known values of `addr_add` that read alike at
every address are equal: the model's list says no more about VM memory than its reads do (the form is the model's own,
notes/assumptions/2.md, 3.md, 7.md). -/
def Obligations.CanonicalMemoriesAreEqual : Prop :=
  ∀ m n : Memory, m.wf → n.wf → m.policy = n.policy → m.offsets = n.offsets →
    (∀ a, m.read a = n.read a) → m = n

/-- The host's own write to a cell: refused for the cells AP, AP+1, AQ, AQ+1, AM, AS and AS+1 while BUSY = 1, and else done,
with every other address as before (R142, U7; that nothing else limits it is the model's choice,
notes/assumptions/10.md). -/
def Obligations.HostVmWriteKeepsOffHintCells : Prop :=
  ∀ (s : State) (a : Addr) (c : VmCell) (rest : List Turn), s.vm.wf → s.agenda = .vmWrite a c :: rest →
    ∀ hintCell : Prop,
      (hintCell ↔ (s.addrP = some a ∨ s.addrQ = some a ∨ s.addrM = some a ∨ s.addrS = some a ∨
        ∃ b, a = s.vm.addrAdd b 1 ∧ (s.addrP = some b ∨ s.addrQ = some b ∨ s.addrS = some b))) →
      (s.busy = true → hintCell → step s = .refused .hostWriteDuringCommand) ∧
      (s.busy = false ∨ ¬ hintCell →
        ∃ vm : Memory, step s = .next { s with agenda := rest, vm := vm } ∧ vm.wf ∧ vm.read a = c ∧
          ∀ b, b ≠ a → vm.read b = s.vm.read b)

/-! ### The derivation -/

/-- A DERIVE that succeeds leaves a point of the curve: its coordinates are field elements, OUT0 is not 0, and OUT1 is at
most HALF with SIGN = 0 and above HALF, or 0, with SIGN = 1 (R106). -/
def Obligations.DerivedPointIsOnCurve : Prop :=
  ∀ s t : State, s.busy = false → exec .derive s = .next t → t.status.done = true →
    OnCurve t.out0.toNat t.out1.toNat ∧ t.out0.toNat < P ∧ t.out1.toNat < P ∧ t.out0.toNat ≠ 0 ∧
    (t.status.sign = false → t.out1.toNat ≤ HALF) ∧
    (t.status.sign = true → t.out1.toNat = 0 ∨ HALF < t.out1.toNat)

/-- Two digests that differ in the sign bit and agree in the tail: both searches fail, or both succeed at the same index
with the same x and opposite y (R106). -/
def Obligations.SignBitFlipsOnlyY : Prop :=
  ∀ (H : Hash) (d d' : Bytes 32), d.val.drop 1 = d'.val.drop 1 → signBit d' = !signBit d →
    (search H d 100 0 = none ∧ search H d' 100 0 = none) ∨
    ∃ p p', search H d 100 0 = some p ∧ search H d' 100 0 = some p' ∧ p'.x = p.x ∧ p'.i = p.i ∧
      p'.y.val = (P - p.y.val) % P

/-- Equal seeds give equal results: the outcome of DERIVE in the registers it writes depends on SEEDBUF alone (R93,
R106). -/
def Obligations.EqualSeedsGiveEqualResults : Prop :=
  ∀ s t s' t' : State, s.busy = false → t.busy = false → s.status.seedValid = true → t.status.seedValid = true →
    s.seedBuf = t.seedBuf → exec .derive s = .next s' → exec .derive t = .next t' →
    s'.status.done = t'.status.done ∧ s'.status.errcode = t'.status.errcode ∧ s'.status.iter = t'.status.iter ∧
    (s'.status.done = true →
      s'.out0 = t'.out0 ∧ s'.out1 = t'.out1 ∧ s'.hseed = t'.hseed ∧ s'.status.sign = t'.status.sign)

/-- A DERIVE after a HINT that succeeded, and a DERIVE after a DERIVE that succeeded, give the same results again: nothing
but CTRL differs after it (R105, R107). That the working state of R41 is among it is the model's choice
(notes/assumptions/9.md). -/
def Obligations.DeriveRepeatsTheLastDerivation : Prop :=
  (∀ s t : State, s.busy = false → exec .hint s = .next t → t.status.done = true →
    exec .derive t = .next { t with ctrl := 0x00000006 }) ∧
  ∀ s t : State, s.busy = false → exec .derive s = .next t → t.status.done = true → exec .derive t = .next t

/-- The hard-wired constants: the prime in its spellings, its bit length and its primality, the coefficient, and the curve
constant in its spellings and below P (R6, R7, R8). -/
def Obligations.HardwiredConstants : Prop :=
  P = 2 ^ 251 + 17 * 2 ^ 192 + 1 ∧
  P = 3618502788666131213697322783095070105623107215331596699973092056135872020481 ∧
  P = 0x0800000000000011000000000000000000000000000000000000000000000001 ∧ 2 ^ 251 ≤ P ∧ P < 2 ^ 252 ∧ Nat.Prime P ∧
  ALPHA = 1 ∧ BETA = 3141592653589793238462643383279502884197169399375105820974944592307816406665 ∧
  BETA = 0x06f21413efbe40de150e596d72f7a8c5609ad26c15c915c1f4cdfcb99cee9e89 ∧ 2 ^ 250 ≤ BETA ∧ BETA < 2 ^ 251 ∧ BETA < P

/-- The derived constants are what R9 says, with 3 the smallest quadratic non-residue and BETA a non-residue; so no point of
the curve has x-coordinate 0. -/
def Obligations.DerivedConstants : Prop :=
  HALF = (P - 1) / 2 ∧
  HALF = 1809251394333065606848661391547535052811553607665798349986546028067936010240 ∧
  HALF = 0x0400000000000008800000000000000000000000000000000000000000000000 ∧
  P - 1 = 2 ^ twoAdicity * oddPart ∧ oddPart = 2 ^ 59 + 17 ∧ oddPart = 576460752303423505 ∧ oddPart % 2 = 1 ∧
  twoAdicity = 192 ∧ nonResidue = 3 ∧ ¬ Square nonResidue ∧ (∀ a < nonResidue, Square a) ∧ P % 8 = 1 ∧
  ¬ Square BETA ∧ BETA ^ HALF % P = P - 1 ∧ ∀ y, ¬ OnCurve 0 y

/-- The serializer: 32 bytes, byte `k` is `(n div 256^(31−k)) mod 256`; a field element's first byte is at most 8, and 0
below 2^248 (R78). -/
def Obligations.PaddedEncodingOfFieldElements : Prop :=
  ∀ n : Nat, n < P →
    (toPaddedBytes n).val.length = 32 ∧
    (∀ k < 32, ((toPaddedBytes n).val[k]?.map BitVec.toNat) = some (n / 256 ^ (31 - k) % 256)) ∧
    (∃ b, (toPaddedBytes n).val[0]? = some b ∧ b.toNat ≤ 8 ∧ (n < 2 ^ 248 → b.toNat = 0))

/-- The deserializer: the sum of the bytes by their weights, below 2^256, not reduced, and the inverse of the serializer on
field elements (R79). -/
def Obligations.DeserializerIsBigEndianSum : Prop :=
  (∀ d : Bytes 32,
    fromBe32 d = ((List.range 32).map fun k => (d.val.getD k 0).toNat * 256 ^ (31 - k)).sum ∧ fromBe32 d < 2 ^ 256) ∧
  ∀ n, n < P → fromBe32 (toPaddedBytes n) = n

/-! ### Reset -/

/-- The state of State.reset has the reset values of R20, R29 and R45. -/
def Obligations.ResetValues : Prop :=
  State.reset.ctrl = 0 ∧ State.reset.statusWord = 0 ∧
  State.reset.in0 = 0 ∧ State.reset.in1 = 0 ∧ State.reset.in2 = 0 ∧ State.reset.in3 = 0 ∧ State.reset.in4 = 0 ∧
  State.reset.out0 = 0 ∧ State.reset.out1 = 0 ∧ State.reset.hseed = 0 ∧
  (∀ k < 5, seedView State.reset.seedBuf k = 0) ∧ State.reset.seedBuf.val = List.replicate 160 0 ∧
  State.reset.addrP = none ∧ State.reset.addrQ = none ∧ State.reset.addrM = none ∧ State.reset.addrS = none ∧
  State.reset.fsm = .idle ∧ State.reset.icnt = 0

/-- The reset input, in any state: in one step every register, STATUS field and hidden state of CORE is at its reset value
(R135). Left out are the working state, whose value after reset the spec does not give, VM memory, which is outside CORE,
and the fields that are the model's own: agenda, value last read and draws. -/
def Obligations.ResetInputResetsCore : Prop :=
  ∀ (s : State) (rest : List Turn), s.agenda = .reset :: rest →
    ∃ t, step s = .next t ∧
      { t with
        work := State.reset.work, vm := State.reset.vm, agenda := State.reset.agenda, rdata := State.reset.rdata
        draws := State.reset.draws } = State.reset

/-- VM memory after a reset: as it was, but in the step of HINT's write either as it was or with both cells of `s` written
with the result (R136, U6). Of the model's own fields the reset takes its turn off the agenda and leaves the value last read
alone (notes/assumptions/5.md, 13.md). -/
def Obligations.ResetLeavesBothCellsOrNeither : Prop :=
  ∀ (s t : State) (rest : List Turn), s.agenda = .reset :: rest → step s = .next t →
    (t.agenda = rest ∧ t.rdata = s.rdata) ∧ (s.fsm ≠ .write → t.vm = s.vm) ∧
    (t.vm = s.vm ∨
      ∃ dest x y, s.addrS = some dest ∧ s.vm.writePair dest x y = some t.vm ∧
        (engineStep s).vm.read dest = t.vm.read dest ∧
        (engineStep s).vm.read (s.vm.addrAdd dest 1) = t.vm.read (s.vm.addrAdd dest 1))

/-! ### Invariants and whole-machine rules -/

/-- The invariant holds after reset. -/
def Obligations.InvariantHoldsAtReset : Prop := State.reset.Inv

/-- Every step keeps the invariant, whatever the turn. -/
def Obligations.StepKeepsInvariant : Prop :=
  ∀ s t : State, s.Inv → step s = .next t → t.Inv

/-- Every step keeps this: when STATUS shows a completed DERIVE or HINT, OUT0 and OUT1 hold a point of the curve (R24,
R106). -/
def Obligations.StepKeepsCurvePoint : Prop :=
  ∀ s t : State, s.Inv → s.ShowsCurvePoint → step s = .next t → t.ShowsCurvePoint

/-- OVR: a host write that arrives while BUSY = 1, to any index, sets it and does nothing else; a step clears it only by
CLEAR, accepted with BUSY = 0, or by reset (R33). -/
def Obligations.OvrIsSetByWritesWhileBusyAndCleared : Prop :=
  (∀ (s : State) (idx : BitVec 6) (v : BusValue) (rest : List Turn), s.busy = true → v.type = busType idx →
    s.agenda = .raw (.bus (busHeader true idx) (some v)) :: rest →
    step s = .next { s with agenda := rest, status := { s.status with ovr := true } }) ∧
  ∀ s t : State, step s = .next t → s.status.ovr = true → t.status.ovr = false →
    ∃ rest, s.agenda = .reset :: rest ∨
      (s.busy = false ∧
        (s.agenda = .raw (.command 0) :: rest ∨ s.agenda = .raw (.bus 0x80 (some (.u32 0))) :: rest))

/-- SEED_VALID is cleared only by reset, and set only by a SERIALIZE or a HINT (R34). -/
def Obligations.SeedValidIsClearedOnlyByReset : Prop :=
  ∀ s t : State, step s = .next t →
    (s.status.seedValid = true → t.status.seedValid = false → ∃ rest, s.agenda = .reset :: rest) ∧
    (s.Inv → s.status.seedValid = false → t.status.seedValid = true →
      t.ctrl = (Op.prim .serialize).word ∨ t.ctrl = Op.hint.word)

/-- While a command runs, an engine step that does not end it changes nothing the host can see: only the control state, the
counter and the working state (R61, R102, R140). -/
def Obligations.NothingVisibleChangesBeforeTheCommit : Prop :=
  ∀ s : State, (engineStep s).busy = true →
    { engineStep s with fsm := s.fsm, icnt := s.icnt, work := s.work } = s

/-- What the host does while a command runs does not reach the command (R33, R61, R66). An engine step after a HOST_WR or a
command word gives what the engine step gives without it, but for OVR; after a HOST_RD, but for the value the host has read
and the draws (the model's own, notes/assumptions/13.md, 4.md); and it is the same whatever OVR, the agenda
(notes/assumptions/5.md), the value last read and the draws are. -/
def Obligations.HostTransactionsDoNotDisturbTheEngine : Prop :=
  ∀ s : State,
    (s.busy = true →
      (∀ i : Instr, i.wf = true → (∀ idx, i ≠ .hostRd idx) →
        ∃ t, exec i s = .next t ∧
          engineStep t = { engineStep s with status := { (engineStep s).status with ovr := true } }) ∧
      ∀ idx : BitVec 6,
        ∃ t, exec (.hostRd idx) s = .next t ∧
          engineStep t = { engineStep s with rdata := t.rdata, draws := t.draws }) ∧
    ∀ (ovr : Bool) (agenda : List Turn) (rdata : Option BusValue) (draws : Nat),
      engineStep { s with status := { s.status with ovr := ovr }, agenda := agenda, rdata := rdata, draws := draws } =
        { engineStep s with
          status := { (engineStep s).status with ovr := ovr }, agenda := agenda, rdata := rdata, draws := draws }

/-- The engine uses VM memory only in HINT's READ and WRITE phases (R50, R62, R66): in every other phase a step computes the
same whatever VM memory holds; in READ(k) it depends on the one cell it reads and on no other; and in every phase but
WRITE it leaves VM memory as it was. -/
def Obligations.EngineUsesVmMemoryOnlyInReadAndWritePhases : Prop :=
  ∀ s : State,
    (∀ vm : Memory, (∀ k, s.fsm ≠ .read k) → s.fsm ≠ .write →
      engineStep { s with vm := vm } = { engineStep s with vm := vm }) ∧
    (∀ (vm : Memory) (k : Fin 5) (a : Addr) (e : CoreError), s.fsm = .read k → vm.offsets = s.vm.offsets →
      s.readTarget k = some (a, e) → vm.read a = s.vm.read a →
      engineStep { s with vm := vm } = { engineStep s with vm := vm }) ∧
    (s.fsm ≠ .write → (engineStep s).vm = s.vm)

/-- A command started by a CTRL write and run by the engine phase by phase ends in the state that the command word, run as
a whole, gives, the counter `icnt` included (R40), but for the working state, which nothing can observe after it (R14, R41,
R102, R143; notes/assumptions/6.md, 9.md). -/
def Obligations.PhasesAgreeWithWholeCommand : Prop :=
  ∀ (s : State) (w : U32), s.busy = false →
    ∃ t u : State,
      Host.Core.run core 109 { s with agenda := [.raw (.bus 0x80 (some (.u32 w)))] } = .next t ∧
      Host.Core.run core 1 { s with agenda := [.raw (.command w)] } = .next u ∧
      t.busy = false ∧ t.forgetWork = u.forgetWork

/-- Every command completes: from any state, the engine alone is idle after at most 108 steps: CHECK, five READs, SEEDHASH,
100 TRYs and FAIL (R10, R39, R102, R107). R14 and R145 leave the number of steps open, and ask only that it be finite: that a
phase is one step is the model's choice (notes/assumptions/6.md), as is that with an empty agenda the engine moves
(notes/assumptions/5.md). -/
def Obligations.CommandsCompleteInBoundedSteps : Prop :=
  ∀ s : State, s.agenda = [] → ∃ n t, n ≤ 108 ∧ Host.Core.run core n s = .next t ∧ t.busy = false

/-- A turn that keeps the hazards of R139, R140 and R142 leaves OVR clear, reset included; a bus read that keeps them gives
the host the register's own value; and none but reset draws a free value (the value read and the count of the draws are the
model's own, notes/assumptions/13.md, 4.md; a reset draws for the choice of R136, notes/assumptions/8.md). -/
def Obligations.HazardFreeTurnsKeepOvrClearAndReadExactly : Prop :=
  ∀ (s t : State) (turn : Turn) (rest : List Turn), s.agenda = turn :: rest → turn.keepsHazards s = true →
    step s = .next t →
    (s.status.ovr = false → t.status.ovr = false) ∧
    (∀ idx : BitVec 6, turn = .raw (.bus (busHeader false idx) none) → t.rdata = some (s.regValue (Reg.ofIndex idx))) ∧
    (turn ≠ .reset → t.draws = s.draws)

/-- The write-while-busy program of spec/95_test_vectors.md PR6: both of its end states are reached, by the two orders of
the IN0 write and the engine's step. -/
def Obligations.WriteWhileBusyHasBothEndStates : Prop :=
  (∃ t, Host.Core.run core 4
      { State.reset with agenda := [.raw (.bus 0x80 (some (.u32 6))), .raw (.bus 0x82 (some (.u256 7))), .engine,
          .raw (.bus 0x02 none)] } = .next t ∧
    t.statusWord = 0x0000040C ∧ t.rdata = some (.u256 0)) ∧
  ∃ t, Host.Core.run core 4
      { State.reset with agenda := [.raw (.bus 0x80 (some (.u32 6))), .engine, .raw (.bus 0x82 (some (.u256 7))),
          .raw (.bus 0x02 none)] } = .next t ∧
    t.statusWord = 0x00000404 ∧ t.rdata = some (.u256 7)
end

