-- ==== Sys2Proof/Laws/Field.lean ====
section
/-!
SUPPORT. Lemmas about the field datapath: the engine of modular exponentiation computes the power, every result is below
P, P is prime, the residue predicate holds of the squares, and the canonical root is the one root at most HALF.
-/

namespace Sys2Proof.Machine

open Sys2Proof.Config

theorem one_lt_P : 1 < P := by decide

theorem powLoop_lt (fuel b e acc : Nat) (h : acc < P) : powLoop fuel b e acc < P := by
  induction fuel generalizing b e acc with
  | zero => simpa [powLoop] using h
  | succ n ih =>
    simp only [powLoop, withNat_eq]
    apply ih
    split
    · exact Nat.mod_lt _ P_pos
    · exact h

/-- What the loop computes, for every accumulator. -/
theorem powLoop_mod (fuel b e acc : Nat) :
    powLoop fuel b e acc % P = acc * b ^ (e % 2 ^ fuel) % P := by
  induction fuel generalizing b e acc with
  | zero => simp [powLoop, Nat.mod_one]
  | succ n ih =>
    simp only [powLoop, withNat_eq]
    rw [ih]
    have hsplit : e % 2 ^ (n + 1) = 2 * (e / 2 % 2 ^ n) + e % 2 := by
      rw [pow_succ, Nat.mul_comm (2 ^ n) 2, Nat.mod_mul]; omega
    have hsq : (b * b % P) ^ (e / 2 % 2 ^ n) % P = b ^ (2 * (e / 2 % 2 ^ n)) % P := by
      rw [← Nat.pow_mod, pow_mul, pow_two]
    rw [hsplit]
    rcases Nat.mod_two_eq_zero_or_one e with h | h
    · simp only [h, Nat.zero_ne_one, ↓reduceIte, Nat.add_zero]
      rw [Nat.mul_mod, hsq, ← Nat.mul_mod]
    · simp only [h, ↓reduceIte]
      rw [Nat.mul_mod, hsq, Nat.mod_mod, ← Nat.mul_mod, pow_succ, Nat.mul_assoc acc b, Nat.mul_comm b]

/-- The modular exponentiation engine computes the power modulo P (R81). -/
theorem modexp_eq (b e : Nat) : modexp b e = b ^ e % P := by
  have hlt : modexp b e < P := powLoop_lt _ _ _ _ one_lt_P
  have he : e < 2 ^ (e.log2 + 1) := Nat.lt_log2_self
  rw [← Nat.mod_eq_of_lt hlt, modexp, powLoop_mod, Nat.mod_eq_of_lt he, Nat.one_mul, ← Nat.pow_mod]

theorem modexp_lt (b e : Nat) : modexp b e < P := powLoop_lt _ _ _ _ one_lt_P

theorem curveRhs_lt (x : Nat) : curveRhs x < P := by
  unfold curveRhs
  rw [withNat_eq]
  exact Nat.mod_lt _ P_pos

/-- The right-hand side is the cubic of the curve modulo P (R85). -/
theorem curveRhs_eq (x : Nat) : curveRhs x = (x ^ 3 + x + BETA) % P := by
  unfold curveRhs
  rw [withNat_eq, modexp_eq, Nat.add_assoc, Nat.mod_add_mod, ← Nat.add_assoc, ALPHA, Nat.one_mul]

theorem neg_lt (y : Nat) : neg y < P := Nat.mod_lt _ P_pos

theorem applySign_lt (y : Nat) (b : Bool) (h : y < P) : applySign y b < P := by
  unfold applySign; split
  · exact neg_lt y
  · exact h

/-- The canonical root is at most HALF, whatever its argument (R83). -/
theorem sqrtC_le_half (a : Nat) : sqrtC a ≤ HALF := by
  have h : P = 2 * HALF + 1 := by decide
  unfold sqrtC
  split
  · exact Nat.zero_le _
  · simp only [withNat_eq]; omega

theorem half_lt_P : HALF < P := by decide

theorem sqrtC_lt (a : Nat) : sqrtC a < P := Nat.lt_of_le_of_lt (sqrtC_le_half a) half_lt_P

/-- A power modulo P, as a power in `ZMod P`. -/
theorem modexp_cast (b e : Nat) : ((modexp b e : Nat) : ZMod P) = (b : ZMod P) ^ e := by
  rw [modexp_eq, ZMod.natCast_mod, Nat.cast_pow]

theorem cast_pow_ne_one {b e : Nat} (h : modexp b e ≠ 1) : (b : ZMod P) ^ e ≠ 1 := by
  intro hc
  apply h
  rw [← modexp_cast, ← Nat.cast_one, ZMod.natCast_eq_natCast_iff'] at hc
  rwa [Nat.mod_eq_of_lt (modexp_lt b e), Nat.mod_eq_of_lt one_lt_P] at hc

/-- The odd part of `P − 1`, factored. -/
theorem oddPart_factored : P - 1 = 2 ^ 192 * (5 * (7 * (98714381 * 166848103))) := by decide +kernel

/-- `P` is prime (R6): 3 generates the multiplicative group. -/
theorem P_prime : Nat.Prime P := by
  apply lucas_primality P ((3 : Nat) : ZMod P)
  · rw [← modexp_cast, show modexp 3 (P - 1) = 1 by decide +kernel, Nat.cast_one]
  · intro q hq hdvd
    have h1 : Nat.Prime 98714381 := by norm_num
    have h2 : Nat.Prime 166848103 := by norm_num
    have hq' : q = 2 ∨ q = 5 ∨ q = 7 ∨ q = 98714381 ∨ q = 166848103 := by
      rw [oddPart_factored, hq.dvd_mul, hq.dvd_mul, hq.dvd_mul, hq.dvd_mul] at hdvd
      rcases hdvd with h | h | h | h | h
      · exact .inl ((Nat.prime_dvd_prime_iff_eq hq Nat.prime_two).1 (hq.dvd_of_dvd_pow h))
      · exact .inr (.inl ((Nat.prime_dvd_prime_iff_eq hq (by norm_num)).1 h))
      · exact .inr (.inr (.inl ((Nat.prime_dvd_prime_iff_eq hq (by norm_num)).1 h)))
      · exact .inr (.inr (.inr (.inl ((Nat.prime_dvd_prime_iff_eq hq h1).1 h))))
      · exact .inr (.inr (.inr (.inr ((Nat.prime_dvd_prime_iff_eq hq h2).1 h))))
    apply cast_pow_ne_one
    rcases hq' with rfl | rfl | rfl | rfl | rfl <;> decide +kernel

/-- A square that is not 0 modulo P has residue symbol 1 (one half of Euler's criterion). -/
theorem pow_half_of_square {a b : Nat} (hb : b * b % P = a) (ha : a ≠ 0) : a ^ HALF % P = 1 := by
  have := Fact.mk P_prime
  have hb0 : (b : ZMod P) ≠ 0 := by
    intro h
    apply ha
    have : ((b * b : Nat) : ZMod P) = 0 := by rw [Nat.cast_mul, h, mul_zero]
    rwa [ZMod.natCast_eq_zero_iff, Nat.dvd_iff_mod_eq_zero, hb] at this
  have hP : P - 1 = 2 * HALF := by decide
  have h1 := ZMod.pow_card_sub_one_eq_one hb0
  rw [hP, pow_mul, pow_two, ← Nat.cast_mul, ← ZMod.natCast_mod, hb, ← modexp_cast, ← Nat.cast_one,
    ZMod.natCast_eq_natCast_iff', Nat.mod_eq_of_lt (modexp_lt _ _), Nat.mod_eq_of_lt one_lt_P, modexp_eq] at h1
  exact h1

/-! ### The canonical square root is a square root -/

theorem natCast_inj_P {a b : Nat} (ha : a < P) (hb : b < P) : ((a : Nat) : ZMod P) = b ↔ a = b := by
  rw [ZMod.natCast_eq_natCast_iff', Nat.mod_eq_of_lt ha, Nat.mod_eq_of_lt hb]

theorem squarings_cast (n b : Nat) : ((squarings n b : Nat) : ZMod P) = (b : ZMod P) ^ (2 ^ n) := by
  induction n generalizing b with
  | zero => simp [squarings]
  | succ n ih => simp only [squarings, withNat_eq]; rw [ih]; push_cast [ZMod.natCast_mod]; ring

theorem squarings_lt (n b : Nat) (hb : b < P) : squarings n b < P := by
  induction n generalizing b with
  | zero => exact hb
  | succ n ih => simp only [squarings, withNat_eq]; exact ih _ (Nat.mod_lt _ P_pos)

/-- The loop's invariant: `r² = a·t`, the order of `t` divides `2^n`, and `c^(2^n) = −1`. -/
theorem rootLoop_sq (n c t r : Nat) (a : ZMod P) (ht' : t < P)
    (hr : (r : ZMod P) ^ 2 = a * t) (ht : (t : ZMod P) ^ (2 ^ n) = 1) (hc : (c : ZMod P) ^ (2 ^ n) = -1) :
    ((rootLoop n c t r : Nat) : ZMod P) ^ 2 = a := by
  have := Fact.mk P_prime
  induction n generalizing c t r with
  | zero => simp at ht; simpa [rootLoop, ht] using hr
  | succ n ih =>
    simp only [rootLoop, withNat_eq]
    have hc2 : ((c * c % P : Nat) : ZMod P) ^ (2 ^ n) = -1 := by
      rw [ZMod.natCast_mod, Nat.cast_mul, ← pow_two, ← pow_mul, ← pow_succ']; exact hc
    have hs := squarings_cast n t
    split
    · rename_i h1
      apply ih _ _ _ ht' hr _ hc2
      rw [← hs, h1, Nat.cast_one]
    · rename_i h1
      have hne : (t : ZMod P) ^ (2 ^ n) ≠ 1 := by
        rw [← hs, ← Nat.cast_one]; intro h; exact h1 ((natCast_inj_P (squarings_lt n t ht') one_lt_P).1 h)
      have hneg : (t : ZMod P) ^ (2 ^ n) = -1 := by
        have : ((t : ZMod P) ^ (2 ^ n)) * ((t : ZMod P) ^ (2 ^ n)) = 1 := by rw [← pow_two, ← pow_mul, ← pow_succ]; exact ht
        rcases mul_self_eq_one_iff.1 this with h | h
        · exact absurd h hne
        · exact h
      apply ih _ _ _ (Nat.mod_lt _ P_pos) _ _ hc2
      · push_cast [ZMod.natCast_mod]; rw [mul_pow, hr]; ring
      · rw [ZMod.natCast_mod, Nat.cast_mul, mul_pow, hneg, hc2]; ring

theorem nonres_half : ((modexp nonResidue oddPart : Nat) : ZMod P) ^ (2 ^ 191) = -1 := by
  rw [modexp_cast, ← pow_mul, ← modexp_cast, show modexp nonResidue (oddPart * 2 ^ 191) = P - 1 by decide +kernel, Nat.cast_sub (by decide)]
  simp

/-- The extracted root of a residue squares to it (R83). -/
theorem someRoot_sq (a : Nat) (ha : a < P) (h : a ^ HALF % P = 1) : someRoot a * someRoot a % P = a := by
  have hh : ((a : Nat) : ZMod P) ^ HALF = 1 := by
    rw [← modexp_cast, modexp_eq, h, Nat.cast_one]
  have key : ((someRoot a : Nat) : ZMod P) ^ 2 = a := by
    unfold someRoot
    apply rootLoop_sq
    · exact modexp_lt _ _
    · rw [modexp_cast, modexp_cast, ← pow_mul, show (oddPart + 1) / 2 * 2 = oddPart + 1 by decide, pow_succ, mul_comm]
    · rw [modexp_cast, ← pow_mul, show oddPart * 2 ^ (twoAdicity - 1) = HALF by decide +kernel]; exact hh
    · exact nonres_half
  rw [pow_two, ← Nat.cast_mul, ZMod.natCast_eq_natCast_iff', Nat.mod_eq_of_lt ha] at key
  exact key

theorem neg_sq (r : Nat) (hr : r ≤ P) : (P - r) * (P - r) % P = r * r % P := by
  rw [← ZMod.natCast_eq_natCast_iff']
  push_cast [Nat.cast_sub hr]
  simp

theorem rootLoop_lt (n c t r : Nat) (hr : r < P) : rootLoop n c t r < P := by
  induction n generalizing c t r with
  | zero => exact hr
  | succ n ih => 
    simp only [rootLoop, withNat_eq]; split
    · exact ih _ _ _ hr
    · exact ih _ _ _ (Nat.mod_lt _ P_pos)

/-- The predicate is the shortcut or Euler's criterion (R82). -/
theorem isQr_eq (a : Nat) : isQr a = true ↔ (a < 2 ∨ a ^ HALF % P = 1) := by
  unfold isQr; split
  · simp [*]
  · simp [modexp_eq]; omega

theorem one_pow_mod (n : Nat) : 1 ^ n % P = 1 := by rw [one_pow, Nat.mod_eq_of_lt one_lt_P]

theorem qr_pow (a : Nat) (h : isQr a = true) (h0 : a ≠ 0) : a ^ HALF % P = 1 := by
  rcases (isQr_eq a).1 h with h | h
  · have h1 : a = 1 := by omega
    rw [h1]; exact one_pow_mod HALF
  · exact h

theorem min_root (r a : Nat) (hlt : r < P) (hs : r * r % P = a) : min r (P - r) * min r (P - r) % P = a := by
  rcases Nat.le_total r (P - r) with h | h
  · rw [Nat.min_eq_left h]; exact hs
  · rw [Nat.min_eq_right h, neg_sq _ hlt.le]; exact hs

theorem sqrtC_pos (a : Nat) (h0 : a ≠ 0) : sqrtC a = min (someRoot a) (P - someRoot a) := by
  rw [sqrtC, if_neg h0, withNat_eq]

/-- The canonical root of a residue squares to it (R83). -/
theorem sqrtC_sq (a : Nat) (ha : a < P) (h : isQr a = true) : sqrtC a * sqrtC a % P = a := by
  by_cases h0 : a = 0
  · rw [h0]; rfl
  · rw [sqrtC_pos a h0]
    exact min_root _ _ (rootLoop_lt _ _ _ _ (modexp_lt _ _)) (someRoot_sq a ha (qr_pow a h h0))

/-- The predicate is true exactly for the squares (R82). -/
theorem isQr_iff (a : Nat) (ha : a < P) : isQr a = true ↔ ∃ b, b < P ∧ b * b % P = a := by
  constructor
  · intro h; exact ⟨sqrtC a, sqrtC_lt a, sqrtC_sq a ha h⟩
  · rintro ⟨b, _, hb⟩
    rw [isQr_eq]
    by_cases h0 : a = 0
    · left; omega
    · right; exact pow_half_of_square hb h0

/-- At most one root is at most HALF (R83). -/
theorem root_unique (r s : Nat) (hr : r ≤ HALF) (hs : s ≤ HALF) (h : r * r % P = s * s % P) : r = s := by
  have := Fact.mk P_prime
  have hP : P = 2 * HALF + 1 := by decide
  rw [← ZMod.natCast_eq_natCast_iff'] at h
  push_cast at h
  rcases mul_self_eq_mul_self_iff.1 h with h | h
  · exact (natCast_inj_P (by omega) (by omega)).1 h
  · have : ((r + s : Nat) : ZMod P) = 0 := by push_cast; rw [h]; ring
    rw [ZMod.natCast_eq_zero_iff] at this
    rcases Nat.eq_zero_or_pos (r + s) with h0 | h0
    · omega
    · have := Nat.le_of_dvd h0 this; omega

end Sys2Proof.Machine
end

