-- ==== Sys2Proof/Laws/Memory.lean ====
section
/-!
SUPPORT. VM memory: what a read gives after a write, and that every memory operation keeps the canonical form.
-/

namespace Sys2Proof.Machine

theorem addrBefore_iff (a b : Addr) : addrBefore a b = true ↔ a.name < b.name := by
  simp [addrBefore]

theorem addrBefore_irrefl (a : Addr) : addrBefore a a = false := by
  simp [addrBefore]

theorem addrBefore_trans {a b c : Addr} (h₁ : addrBefore a b = true) (h₂ : addrBefore b c = true) :
    addrBefore a c = true := by
  rw [addrBefore_iff] at *; omega

theorem addrBefore_total {a b : Addr} (h : a ≠ b) (h' : addrBefore a b = false) : addrBefore b a = true := by
  have h1 : ¬ a.name < b.name := by rw [← addrBefore_iff, h']; simp
  have h2 : a.name ≠ b.name := fun h3 => h (by cases a; cases b; simp_all)
  rw [addrBefore_iff]
  omega

/-- The canonical form of a list of cells. -/
abbrev CellsWf (l : List (Addr × VmCell)) : Prop :=
  (l.Pairwise fun x y => addrBefore x.1 y.1 = true) ∧ ∀ x ∈ l, x.2 ≠ .unset

theorem cellsWf_cons {x : Addr × VmCell} {l : List (Addr × VmCell)} :
    CellsWf (x :: l) ↔ (∀ y ∈ l, addrBefore x.1 y.1 = true) ∧ x.2 ≠ .unset ∧ CellsWf l := by
  simp only [CellsWf, List.pairwise_cons, List.forall_mem_cons]; tauto

/-- An address below every listed one is not listed. -/
theorem cellAt_below {l : List (Addr × VmCell)} {a : Addr} (h : ∀ y ∈ l, addrBefore a y.1 = true) :
    cellAt l a = .unset := by
  induction l with
  | nil => rfl
  | cons x l ih =>
    have hx := h x (by simp)
    have hne : a ≠ x.1 := by
      intro he; rw [he, addrBefore_irrefl] at hx; cases hx
    rw [cellAt, if_neg hne]
    exact ih fun y hy => h y (by simp [hy])

/-- Every entry of the updated list is the new one or an old one. -/
theorem mem_setCell {l : List (Addr × VmCell)} {a : Addr} {c : VmCell} {x : Addr × VmCell}
    (h : x ∈ setCell l a c) : x = (a, c) ∨ x ∈ l := by
  induction l with
  | nil => unfold setCell at h; split at h <;> simp_all
  | cons y l ih =>
    unfold setCell at h
    split at h
    · split at h <;> simp_all
      tauto
    · split at h
      · split at h <;> simp_all
      · rcases List.mem_cons.1 h with h | h
        · simp [h]
        · rcases ih h with h | h <;> simp [h]

/-- A write keeps the canonical form. -/
theorem setCell_wf {l : List (Addr × VmCell)} (a : Addr) (c : VmCell) (h : CellsWf l) : CellsWf (setCell l a c) := by
  induction l with
  | nil => unfold setCell; split <;> simp_all [CellsWf]
  | cons y l ih =>
    obtain ⟨hlt, hy, hl⟩ := cellsWf_cons.1 h
    unfold setCell
    split
    · rename_i hay
      split
      · exact hl
      · rename_i hc; exact cellsWf_cons.2 ⟨fun z hz => hay ▸ hlt z hz, hc, hl⟩
    · rename_i hay
      split
      · rename_i hb
        split
        · exact h
        · rename_i hc
          refine cellsWf_cons.2 ⟨fun z hz => ?_, hc, h⟩
          rcases List.mem_cons.1 hz with rfl | hz
          · exact hb
          · exact addrBefore_trans hb (hlt z hz)
      · rename_i hb
        refine cellsWf_cons.2 ⟨fun z hz => ?_, hy, ih hl⟩
        rcases mem_setCell hz with rfl | hz
        · exact addrBefore_total hay (by simpa using hb)
        · exact hlt z hz

/-- Reading back: the address written reads the value written, every other address reads as before. -/
theorem cellAt_setCell {l : List (Addr × VmCell)} (h : CellsWf l) (a b : Addr) (c : VmCell) :
    cellAt (setCell l a c) b = if b = a then c else cellAt l b := by
  induction l with
  | nil =>
    unfold setCell
    split
    · rename_i hc; simp [cellAt, hc]
    · simp [cellAt]
  | cons y l ih =>
    obtain ⟨hlt, hy, hl⟩ := cellsWf_cons.1 h
    unfold setCell
    split
    · rename_i hay
      split
      · rename_i hc
        by_cases hb : b = a
        · rw [if_pos hb, hb, hc]
          exact cellAt_below fun z hz => hay ▸ hlt z hz
        · rw [if_neg hb, cellAt, if_neg (hay ▸ hb)]
      · by_cases hb : b = a
        · simp [cellAt, hb]
        · rw [if_neg hb, cellAt, if_neg hb, cellAt, if_neg (hay ▸ hb)]
    · rename_i hay
      split
      · rename_i hbef
        split
        · rename_i hc
          by_cases hb : b = a
          · rw [if_pos hb, hb, hc]
            apply cellAt_below
            intro z hz
            rcases List.mem_cons.1 hz with rfl | hz
            · exact hbef
            · exact addrBefore_trans hbef (hlt z hz)
          · rw [if_neg hb]
        · by_cases hb : b = a
          · rw [if_pos hb, cellAt, if_pos hb]
          · rw [if_neg hb, cellAt, if_neg hb]
      · rw [cellAt, ih hl]
        by_cases hb : b = a
        · rw [if_pos hb, if_pos hb, hb, if_neg hay]
        · rw [if_neg hb, if_neg hb, ← cellAt]

/-- Reading back a cell written with a value that lists it, whatever the list. -/
theorem cellAt_setCell_of_ne (l : List (Addr × VmCell)) (a b : Addr) (c : VmCell) (hc : c ≠ .unset) :
    cellAt (setCell l a c) b = if b = a then c else cellAt l b := by
  induction l with
  | nil => simp [setCell, hc, cellAt]
  | cons y l ih =>
    unfold setCell
    simp only [if_neg hc]
    split
    · rename_i hay
      by_cases hb : b = a
      · rw [if_pos hb, cellAt, if_pos hb]
      · rw [if_neg hb, cellAt, if_neg hb, cellAt, if_neg (hay ▸ hb)]
    · rename_i hay
      split
      · by_cases hb : b = a
        · rw [if_pos hb, cellAt, if_pos hb]
        · rw [if_neg hb, cellAt, if_neg hb]
      · rw [cellAt, ih]
        by_cases hb : b = a
        · rw [if_pos hb, if_pos hb, hb, if_neg hay]
        · rw [if_neg hb, if_neg hb, ← cellAt]

@[simp] theorem Memory.set_offsets (m : Memory) (a : Addr) (c : VmCell) : (m.set a c).offsets = m.offsets := rfl
@[simp] theorem Memory.set_policy (m : Memory) (a : Addr) (c : VmCell) : (m.set a c).policy = m.policy := rfl

theorem Memory.read_set {m : Memory} (h : m.wf) (a b : Addr) (c : VmCell) :
    (m.set a c).read b = if b = a then c else m.read b := cellAt_setCell h a b c

theorem Memory.read_set_int (m : Memory) (a b : Addr) (v : Felt) :
    (m.set a (.int v)).read b = if b = a then .int v else m.read b :=
  cellAt_setCell_of_ne m.cells a b (.int v) (by simp)

theorem Memory.set_wf {m : Memory} (h : m.wf) (a : Addr) (c : VmCell) : (m.set a c).wf := setCell_wf a c h

/-! ### Addresses: `a + k` -/

@[simp] theorem Memory.addrAdd_zero (m : Memory) (a : Addr) : m.addrAdd a 0 = a := rfl

@[simp] theorem Memory.memberX_eq (m : Memory) (a : Addr) : m.memberX a = a := rfl

/-- An address whose successor is not known is at the parameter's mercy (R12). -/
theorem Memory.addrAdd_parameter {m : Memory} {a : Addr} {k : Nat} (hk : k ≠ 0) (h : m.offsets.lookup (a, k) = none) :
    m.addrAdd a k = Config.addrAdd a k := by
  simp [Memory.addrAdd, hk, h]

/-- An address whose successor is known. -/
theorem Memory.addrAdd_known {m : Memory} {a b : Addr} {k : Nat} (hk : k ≠ 0) (h : m.offsets.lookup (a, k) = some b) :
    m.addrAdd a k = b := by
  simp [Memory.addrAdd, hk, h]

/-- `a + k` is the VM's: it depends on no cell. -/
theorem Memory.addrAdd_congr {m n : Memory} (h : m.offsets = n.offsets) (a : Addr) (k : Nat) :
    m.addrAdd a k = n.addrAdd a k := by
  simp only [Memory.addrAdd, h]

/-! ### The two-cell transaction -/

/-- Everything the two-cell transaction can do when it is accepted (R49). Where `a + 1` is `a`, which R12 does not exclude,
the second write stands. -/
theorem Memory.writePair_spec {m m' : Memory} {a : Addr} {v0 v1 : Felt} (h : m.writePair a v0 v1 = some m') :
    m.admits a v0 = true ∧ m.admits (m.addrAdd a 1) v1 = true ∧ (m'.policy = m.policy ∧ m'.offsets = m.offsets) ∧
      (m.addrAdd a 1 ≠ a → m'.read a = .int v0) ∧ m'.read (m.addrAdd a 1) = .int v1 ∧
      (∀ b, b ≠ a → b ≠ m.addrAdd a 1 → m'.read b = m.read b) ∧ (m.wf → m'.wf) := by
  unfold Memory.writePair at h
  split at h
  · rename_i hadm
    obtain ⟨h0, h1⟩ := Bool.and_eq_true_iff.1 hadm
    obtain rfl := Option.some.inj h
    refine ⟨h0, h1, ⟨rfl, rfl⟩, fun hne => ?_, ?_, ?_, ?_⟩
    · rw [read_set_int, if_neg hne.symm, read_set_int, if_pos rfl]
    · rw [read_set_int, if_pos rfl]
    · intro b hb hb'
      rw [read_set_int, if_neg hb', read_set_int, if_neg hb]
    · intro hw; exact set_wf (set_wf hw _ _) _ _
  · cases h

/-- The two-cell transaction keeps the canonical form. -/
theorem Memory.writePair_wf {m m' : Memory} {a : Addr} {v0 v1 : Felt} (hw : m.wf)
    (h : m.writePair a v0 v1 = some m') : m'.wf := (writePair_spec h).2.2.2.2.2.2 hw

/-- VM memory after a reset keeps the canonical form. -/
theorem State.vmAfterReset_wf {s : State} (h : s.vm.wf) : s.vmAfterReset.wf := by
  unfold State.vmAfterReset
  split
  · split
    · split
      · rename_i hw; exact Memory.writePair_wf h hw
      · exact h
    · exact h
  · exact h

/-- A host write keeps the canonical form. -/
theorem hostVmWrite_wf {a : Addr} {c : VmCell} {s t : State} (h : s.vm.wf) (ht : hostVmWrite a c s = .next t) :
    t.vm.wf := by
  unfold hostVmWrite at ht
  split at ht
  · cases ht
  · injection ht with ht
    rw [← ht]
    exact Memory.set_wf h a c

/-- The memory of the reset state is in canonical form. -/
theorem reset_vm_wf : State.reset.vm.wf := by decide

end Sys2Proof.Machine
end

