-- ==== Sys2Proof/Laws/Serializer.lean ====
section
/-!
SUPPORT. Bounds of the byte views: a string of `n` bytes spells a number below `256^n`, and a byte string is the
concatenation of its parts.
-/

namespace Sys2Proof.Machine

theorem foldl_bigEndian (bs : List Byte) (n : Nat) :
    bs.foldl (fun n b => n * 256 + b.toNat) n = n * 256 ^ bs.length + fromBigEndian bs := by
  induction bs generalizing n with
  | nil => simp [fromBigEndian]
  | cons b bs ih =>
    simp only [List.foldl_cons, fromBigEndian, List.length_cons]
    rw [ih, ih (0 * 256 + b.toNat)]
    ring

theorem fromBigEndian_cons (b : Byte) (bs : List Byte) :
    fromBigEndian (b :: bs) = b.toNat * 256 ^ bs.length + fromBigEndian bs := by
  simp only [fromBigEndian, List.foldl_cons]
  rw [foldl_bigEndian]
  simp [fromBigEndian]

theorem fromBigEndian_lt (bs : List Byte) : fromBigEndian bs < 256 ^ bs.length := by
  induction bs with
  | nil => simp [fromBigEndian]
  | cons b bs ih =>
    rw [fromBigEndian_cons, List.length_cons, pow_succ]
    have hb : b.toNat < 256 := b.isLt
    nlinarith [Nat.zero_le (256 ^ bs.length)]

/-- A 32-byte string spells a 256-bit number (R79). -/
theorem fromBe32_lt (d : Bytes 32) : fromBe32 d < 2 ^ 256 := by
  have h := fromBigEndian_lt d.val
  rw [d.property] at h
  exact lt_of_lt_of_eq h (by norm_num)

theorem candidate_lt (H : Hash) (d : Bytes 32) (i : Nat) : candidate H d i < 2 ^ 256 := fromBe32_lt _

/-- The digits of a number in base 256, most significant first, spell the number. -/
theorem fromBigEndian_digits (k n : Nat) :
    fromBigEndian ((List.range k).map fun j => BitVec.ofNat 8 (n / 256 ^ (k - 1 - j))) = n % 256 ^ k := by
  induction k with
  | zero => simp [fromBigEndian, Nat.mod_one]
  | succ k ih =>
    rw [List.range_succ_eq_map, List.map_cons, List.map_map, fromBigEndian_cons]
    have hl : (List.map ((fun j => BitVec.ofNat 8 (n / 256 ^ (k + 1 - 1 - j))) ∘ Nat.succ) (List.range k)).length = k := by
      simp
    rw [hl]
    have hf : ((fun j => BitVec.ofNat 8 (n / 256 ^ (k + 1 - 1 - j))) ∘ Nat.succ)
        = fun j => BitVec.ofNat 8 (n / 256 ^ (k - 1 - j)) := by
      funext j
      simp only [Function.comp]
      congr 3
      omega
    rw [hf, ih]
    simp only [BitVec.toNat_ofNat, Nat.add_sub_cancel, Nat.sub_zero]
    have h256 : (2 : Nat) ^ 8 = 256 := by norm_num
    rw [h256, pow_succ, Nat.mod_mul]
    ring

theorem fromBe32_toPaddedBytes (n : Nat) : fromBe32 (toPaddedBytes n) = n % 2 ^ 256 := by
  have h := fromBigEndian_digits 32 n
  have e : (256 : Nat) ^ 32 = 2 ^ 256 := by norm_num
  rw [e] at h
  exact h

/-- The seed views of a bundle are its elements (R26, R80, R92). -/
theorem seedView_seedBundle (a b c d e : Nat) :
    seedView (seedBundle a b c d e) 0 = BitVec.ofNat 256 a ∧ seedView (seedBundle a b c d e) 1 = BitVec.ofNat 256 b ∧
    seedView (seedBundle a b c d e) 2 = BitVec.ofNat 256 c ∧ seedView (seedBundle a b c d e) 3 = BitVec.ofNat 256 d ∧
    seedView (seedBundle a b c d e) 4 = BitVec.ofNat 256 e := by
  have key : ∀ n, BitVec.ofNat 256 (fromBigEndian (toPaddedBytes n).val) = BitVec.ofNat 256 n := by
    intro n
    rw [show fromBigEndian (toPaddedBytes n).val = n % 2 ^ 256 from fromBe32_toPaddedBytes n]
    apply BitVec.eq_of_toNat_eq
    simp
  have hl : ∀ n, (toPaddedBytes n).val.length = 32 := fun n => (toPaddedBytes n).property
  unfold seedView seedBundle
  refine ⟨?_, ?_, ?_, ?_, ?_⟩
  all_goals
    simp only [List.drop_append, List.take_append, hl, List.append_assoc]
    norm_num
    simp [hl, List.drop_eq_nil_of_le, List.take_of_length_le, key]

end Sys2Proof.Machine
end

