-- ==== Sys2Proof/Laws/State.lean ====
section
/-!
SUPPORT. The fields of State and of Status after each named update, one lemma per field per update, each true by rfl.
-/

namespace Sys2Proof.Machine

/-! ### accept -/

@[simp] theorem accept_ctrl (w : U32) (s : State) : (accept w s).ctrl = w := rfl
@[simp] theorem accept_status (w : U32) (s : State) : (accept w s).status = s.status.accepted := rfl
@[simp] theorem accept_in0 (w : U32) (s : State) : (accept w s).in0 = s.in0 := rfl
@[simp] theorem accept_in1 (w : U32) (s : State) : (accept w s).in1 = s.in1 := rfl
@[simp] theorem accept_in2 (w : U32) (s : State) : (accept w s).in2 = s.in2 := rfl
@[simp] theorem accept_in3 (w : U32) (s : State) : (accept w s).in3 = s.in3 := rfl
@[simp] theorem accept_in4 (w : U32) (s : State) : (accept w s).in4 = s.in4 := rfl
@[simp] theorem accept_out0 (w : U32) (s : State) : (accept w s).out0 = s.out0 := rfl
@[simp] theorem accept_out1 (w : U32) (s : State) : (accept w s).out1 = s.out1 := rfl
@[simp] theorem accept_hseed (w : U32) (s : State) : (accept w s).hseed = s.hseed := rfl
@[simp] theorem accept_seedBuf (w : U32) (s : State) : (accept w s).seedBuf = s.seedBuf := rfl
@[simp] theorem accept_addrP (w : U32) (s : State) : (accept w s).addrP = s.addrP := rfl
@[simp] theorem accept_addrQ (w : U32) (s : State) : (accept w s).addrQ = s.addrQ := rfl
@[simp] theorem accept_addrM (w : U32) (s : State) : (accept w s).addrM = s.addrM := rfl
@[simp] theorem accept_addrS (w : U32) (s : State) : (accept w s).addrS = s.addrS := rfl
@[simp] theorem accept_fsm (w : U32) (s : State) : (accept w s).fsm = s.fsm := rfl
@[simp] theorem accept_icnt (w : U32) (s : State) : (accept w s).icnt = s.icnt := rfl
@[simp] theorem accept_work (w : U32) (s : State) : (accept w s).work = s.work := rfl
@[simp] theorem accept_vm (w : U32) (s : State) : (accept w s).vm = s.vm := rfl
@[simp] theorem accept_agenda (w : U32) (s : State) : (accept w s).agenda = s.agenda := rfl
@[simp] theorem accept_rdata (w : U32) (s : State) : (accept w s).rdata = s.rdata := rfl
@[simp] theorem accept_draws (w : U32) (s : State) : (accept w s).draws = s.draws := rfl

/-! ### overrun -/

@[simp] theorem overrun_ctrl (s : State) : (overrun s).ctrl = s.ctrl := rfl
@[simp] theorem overrun_status (s : State) : (overrun s).status = { s.status with ovr := true } := rfl
@[simp] theorem overrun_in0 (s : State) : (overrun s).in0 = s.in0 := rfl
@[simp] theorem overrun_in1 (s : State) : (overrun s).in1 = s.in1 := rfl
@[simp] theorem overrun_in2 (s : State) : (overrun s).in2 = s.in2 := rfl
@[simp] theorem overrun_in3 (s : State) : (overrun s).in3 = s.in3 := rfl
@[simp] theorem overrun_in4 (s : State) : (overrun s).in4 = s.in4 := rfl
@[simp] theorem overrun_out0 (s : State) : (overrun s).out0 = s.out0 := rfl
@[simp] theorem overrun_out1 (s : State) : (overrun s).out1 = s.out1 := rfl
@[simp] theorem overrun_hseed (s : State) : (overrun s).hseed = s.hseed := rfl
@[simp] theorem overrun_seedBuf (s : State) : (overrun s).seedBuf = s.seedBuf := rfl
@[simp] theorem overrun_addrP (s : State) : (overrun s).addrP = s.addrP := rfl
@[simp] theorem overrun_addrQ (s : State) : (overrun s).addrQ = s.addrQ := rfl
@[simp] theorem overrun_addrM (s : State) : (overrun s).addrM = s.addrM := rfl
@[simp] theorem overrun_addrS (s : State) : (overrun s).addrS = s.addrS := rfl
@[simp] theorem overrun_fsm (s : State) : (overrun s).fsm = s.fsm := rfl
@[simp] theorem overrun_icnt (s : State) : (overrun s).icnt = s.icnt := rfl
@[simp] theorem overrun_work (s : State) : (overrun s).work = s.work := rfl
@[simp] theorem overrun_vm (s : State) : (overrun s).vm = s.vm := rfl
@[simp] theorem overrun_agenda (s : State) : (overrun s).agenda = s.agenda := rfl
@[simp] theorem overrun_rdata (s : State) : (overrun s).rdata = s.rdata := rfl
@[simp] theorem overrun_draws (s : State) : (overrun s).draws = s.draws := rfl

/-! ### countRejected -/

@[simp] theorem countRejected_ctrl (n : Nat) (s : State) : (countRejected n s).ctrl = s.ctrl := rfl
@[simp] theorem countRejected_status (n : Nat) (s : State) : (countRejected n s).status = s.status := rfl
@[simp] theorem countRejected_in0 (n : Nat) (s : State) : (countRejected n s).in0 = s.in0 := rfl
@[simp] theorem countRejected_in1 (n : Nat) (s : State) : (countRejected n s).in1 = s.in1 := rfl
@[simp] theorem countRejected_in2 (n : Nat) (s : State) : (countRejected n s).in2 = s.in2 := rfl
@[simp] theorem countRejected_in3 (n : Nat) (s : State) : (countRejected n s).in3 = s.in3 := rfl
@[simp] theorem countRejected_in4 (n : Nat) (s : State) : (countRejected n s).in4 = s.in4 := rfl
@[simp] theorem countRejected_out0 (n : Nat) (s : State) : (countRejected n s).out0 = s.out0 := rfl
@[simp] theorem countRejected_out1 (n : Nat) (s : State) : (countRejected n s).out1 = s.out1 := rfl
@[simp] theorem countRejected_hseed (n : Nat) (s : State) : (countRejected n s).hseed = s.hseed := rfl
@[simp] theorem countRejected_seedBuf (n : Nat) (s : State) : (countRejected n s).seedBuf = s.seedBuf := rfl
@[simp] theorem countRejected_addrP (n : Nat) (s : State) : (countRejected n s).addrP = s.addrP := rfl
@[simp] theorem countRejected_addrQ (n : Nat) (s : State) : (countRejected n s).addrQ = s.addrQ := rfl
@[simp] theorem countRejected_addrM (n : Nat) (s : State) : (countRejected n s).addrM = s.addrM := rfl
@[simp] theorem countRejected_addrS (n : Nat) (s : State) : (countRejected n s).addrS = s.addrS := rfl
@[simp] theorem countRejected_fsm (n : Nat) (s : State) : (countRejected n s).fsm = s.fsm := rfl
@[simp] theorem countRejected_icnt (n : Nat) (s : State) : (countRejected n s).icnt = BitVec.ofNat 7 n := rfl
@[simp] theorem countRejected_work (n : Nat) (s : State) : (countRejected n s).work = s.work := rfl
@[simp] theorem countRejected_vm (n : Nat) (s : State) : (countRejected n s).vm = s.vm := rfl
@[simp] theorem countRejected_agenda (n : Nat) (s : State) : (countRejected n s).agenda = s.agenda := rfl
@[simp] theorem countRejected_rdata (n : Nat) (s : State) : (countRejected n s).rdata = s.rdata := rfl
@[simp] theorem countRejected_draws (n : Nat) (s : State) : (countRejected n s).draws = s.draws := rfl

/-! ### raise -/

@[simp] theorem raise_ctrl (e : CoreError) (s : State) : (raise e s).ctrl = s.ctrl := rfl
@[simp] theorem raise_status (e : CoreError) (s : State) : (raise e s).status = s.status.failed e := rfl
@[simp] theorem raise_in0 (e : CoreError) (s : State) : (raise e s).in0 = s.in0 := rfl
@[simp] theorem raise_in1 (e : CoreError) (s : State) : (raise e s).in1 = s.in1 := rfl
@[simp] theorem raise_in2 (e : CoreError) (s : State) : (raise e s).in2 = s.in2 := rfl
@[simp] theorem raise_in3 (e : CoreError) (s : State) : (raise e s).in3 = s.in3 := rfl
@[simp] theorem raise_in4 (e : CoreError) (s : State) : (raise e s).in4 = s.in4 := rfl
@[simp] theorem raise_out0 (e : CoreError) (s : State) : (raise e s).out0 = s.out0 := rfl
@[simp] theorem raise_out1 (e : CoreError) (s : State) : (raise e s).out1 = s.out1 := rfl
@[simp] theorem raise_hseed (e : CoreError) (s : State) : (raise e s).hseed = s.hseed := rfl
@[simp] theorem raise_seedBuf (e : CoreError) (s : State) : (raise e s).seedBuf = s.seedBuf := rfl
@[simp] theorem raise_addrP (e : CoreError) (s : State) : (raise e s).addrP = s.addrP := rfl
@[simp] theorem raise_addrQ (e : CoreError) (s : State) : (raise e s).addrQ = s.addrQ := rfl
@[simp] theorem raise_addrM (e : CoreError) (s : State) : (raise e s).addrM = s.addrM := rfl
@[simp] theorem raise_addrS (e : CoreError) (s : State) : (raise e s).addrS = s.addrS := rfl
@[simp] theorem raise_fsm (e : CoreError) (s : State) : (raise e s).fsm = .idle := rfl
@[simp] theorem raise_icnt (e : CoreError) (s : State) : (raise e s).icnt = s.icnt := rfl
@[simp] theorem raise_work (e : CoreError) (s : State) : (raise e s).work = s.work := rfl
@[simp] theorem raise_vm (e : CoreError) (s : State) : (raise e s).vm = s.vm := rfl
@[simp] theorem raise_agenda (e : CoreError) (s : State) : (raise e s).agenda = s.agenda := rfl
@[simp] theorem raise_rdata (e : CoreError) (s : State) : (raise e s).rdata = s.rdata := rfl
@[simp] theorem raise_draws (e : CoreError) (s : State) : (raise e s).draws = s.draws := rfl

/-! ### completeOk -/

@[simp] theorem completeOk_ctrl (s : State) : (completeOk s).ctrl = s.ctrl := rfl
@[simp] theorem completeOk_status (s : State) : (completeOk s).status = s.status.completed := rfl
@[simp] theorem completeOk_in0 (s : State) : (completeOk s).in0 = s.in0 := rfl
@[simp] theorem completeOk_in1 (s : State) : (completeOk s).in1 = s.in1 := rfl
@[simp] theorem completeOk_in2 (s : State) : (completeOk s).in2 = s.in2 := rfl
@[simp] theorem completeOk_in3 (s : State) : (completeOk s).in3 = s.in3 := rfl
@[simp] theorem completeOk_in4 (s : State) : (completeOk s).in4 = s.in4 := rfl
@[simp] theorem completeOk_out0 (s : State) : (completeOk s).out0 = s.out0 := rfl
@[simp] theorem completeOk_out1 (s : State) : (completeOk s).out1 = s.out1 := rfl
@[simp] theorem completeOk_hseed (s : State) : (completeOk s).hseed = s.hseed := rfl
@[simp] theorem completeOk_seedBuf (s : State) : (completeOk s).seedBuf = s.seedBuf := rfl
@[simp] theorem completeOk_addrP (s : State) : (completeOk s).addrP = s.addrP := rfl
@[simp] theorem completeOk_addrQ (s : State) : (completeOk s).addrQ = s.addrQ := rfl
@[simp] theorem completeOk_addrM (s : State) : (completeOk s).addrM = s.addrM := rfl
@[simp] theorem completeOk_addrS (s : State) : (completeOk s).addrS = s.addrS := rfl
@[simp] theorem completeOk_fsm (s : State) : (completeOk s).fsm = .idle := rfl
@[simp] theorem completeOk_icnt (s : State) : (completeOk s).icnt = s.icnt := rfl
@[simp] theorem completeOk_work (s : State) : (completeOk s).work = s.work := rfl
@[simp] theorem completeOk_vm (s : State) : (completeOk s).vm = s.vm := rfl
@[simp] theorem completeOk_agenda (s : State) : (completeOk s).agenda = s.agenda := rfl
@[simp] theorem completeOk_rdata (s : State) : (completeOk s).rdata = s.rdata := rfl
@[simp] theorem completeOk_draws (s : State) : (completeOk s).draws = s.draws := rfl

/-! ### raiseNotOnCurve -/

@[simp] theorem raiseNotOnCurve_ctrl (s : State) : (raiseNotOnCurve s).ctrl = s.ctrl := rfl
@[simp] theorem raiseNotOnCurve_status (s : State) : (raiseNotOnCurve s).status = ({ s.status with iter := 100 } : Status).failed .notOnCurve := rfl
@[simp] theorem raiseNotOnCurve_in0 (s : State) : (raiseNotOnCurve s).in0 = s.in0 := rfl
@[simp] theorem raiseNotOnCurve_in1 (s : State) : (raiseNotOnCurve s).in1 = s.in1 := rfl
@[simp] theorem raiseNotOnCurve_in2 (s : State) : (raiseNotOnCurve s).in2 = s.in2 := rfl
@[simp] theorem raiseNotOnCurve_in3 (s : State) : (raiseNotOnCurve s).in3 = s.in3 := rfl
@[simp] theorem raiseNotOnCurve_in4 (s : State) : (raiseNotOnCurve s).in4 = s.in4 := rfl
@[simp] theorem raiseNotOnCurve_out0 (s : State) : (raiseNotOnCurve s).out0 = s.out0 := rfl
@[simp] theorem raiseNotOnCurve_out1 (s : State) : (raiseNotOnCurve s).out1 = s.out1 := rfl
@[simp] theorem raiseNotOnCurve_hseed (s : State) : (raiseNotOnCurve s).hseed = s.hseed := rfl
@[simp] theorem raiseNotOnCurve_seedBuf (s : State) : (raiseNotOnCurve s).seedBuf = s.seedBuf := rfl
@[simp] theorem raiseNotOnCurve_addrP (s : State) : (raiseNotOnCurve s).addrP = s.addrP := rfl
@[simp] theorem raiseNotOnCurve_addrQ (s : State) : (raiseNotOnCurve s).addrQ = s.addrQ := rfl
@[simp] theorem raiseNotOnCurve_addrM (s : State) : (raiseNotOnCurve s).addrM = s.addrM := rfl
@[simp] theorem raiseNotOnCurve_addrS (s : State) : (raiseNotOnCurve s).addrS = s.addrS := rfl
@[simp] theorem raiseNotOnCurve_fsm (s : State) : (raiseNotOnCurve s).fsm = .idle := rfl
@[simp] theorem raiseNotOnCurve_icnt (s : State) : (raiseNotOnCurve s).icnt = s.icnt := rfl
@[simp] theorem raiseNotOnCurve_work (s : State) : (raiseNotOnCurve s).work = s.work := rfl
@[simp] theorem raiseNotOnCurve_vm (s : State) : (raiseNotOnCurve s).vm = s.vm := rfl
@[simp] theorem raiseNotOnCurve_agenda (s : State) : (raiseNotOnCurve s).agenda = s.agenda := rfl
@[simp] theorem raiseNotOnCurve_rdata (s : State) : (raiseNotOnCurve s).rdata = s.rdata := rfl
@[simp] theorem raiseNotOnCurve_draws (s : State) : (raiseNotOnCurve s).draws = s.draws := rfl

/-! ### commitOut0 -/

@[simp] theorem commitOut0_ctrl (n : Nat) (s : State) : (commitOut0 n s).ctrl = s.ctrl := rfl
@[simp] theorem commitOut0_status (n : Nat) (s : State) : (commitOut0 n s).status = s.status := rfl
@[simp] theorem commitOut0_in0 (n : Nat) (s : State) : (commitOut0 n s).in0 = s.in0 := rfl
@[simp] theorem commitOut0_in1 (n : Nat) (s : State) : (commitOut0 n s).in1 = s.in1 := rfl
@[simp] theorem commitOut0_in2 (n : Nat) (s : State) : (commitOut0 n s).in2 = s.in2 := rfl
@[simp] theorem commitOut0_in3 (n : Nat) (s : State) : (commitOut0 n s).in3 = s.in3 := rfl
@[simp] theorem commitOut0_in4 (n : Nat) (s : State) : (commitOut0 n s).in4 = s.in4 := rfl
@[simp] theorem commitOut0_out0 (n : Nat) (s : State) : (commitOut0 n s).out0 = BitVec.ofNat 256 n := rfl
@[simp] theorem commitOut0_out1 (n : Nat) (s : State) : (commitOut0 n s).out1 = s.out1 := rfl
@[simp] theorem commitOut0_hseed (n : Nat) (s : State) : (commitOut0 n s).hseed = s.hseed := rfl
@[simp] theorem commitOut0_seedBuf (n : Nat) (s : State) : (commitOut0 n s).seedBuf = s.seedBuf := rfl
@[simp] theorem commitOut0_addrP (n : Nat) (s : State) : (commitOut0 n s).addrP = s.addrP := rfl
@[simp] theorem commitOut0_addrQ (n : Nat) (s : State) : (commitOut0 n s).addrQ = s.addrQ := rfl
@[simp] theorem commitOut0_addrM (n : Nat) (s : State) : (commitOut0 n s).addrM = s.addrM := rfl
@[simp] theorem commitOut0_addrS (n : Nat) (s : State) : (commitOut0 n s).addrS = s.addrS := rfl
@[simp] theorem commitOut0_fsm (n : Nat) (s : State) : (commitOut0 n s).fsm = s.fsm := rfl
@[simp] theorem commitOut0_icnt (n : Nat) (s : State) : (commitOut0 n s).icnt = s.icnt := rfl
@[simp] theorem commitOut0_work (n : Nat) (s : State) : (commitOut0 n s).work = s.work := rfl
@[simp] theorem commitOut0_vm (n : Nat) (s : State) : (commitOut0 n s).vm = s.vm := rfl
@[simp] theorem commitOut0_agenda (n : Nat) (s : State) : (commitOut0 n s).agenda = s.agenda := rfl
@[simp] theorem commitOut0_rdata (n : Nat) (s : State) : (commitOut0 n s).rdata = s.rdata := rfl
@[simp] theorem commitOut0_draws (n : Nat) (s : State) : (commitOut0 n s).draws = s.draws := rfl

/-! ### commitSeed -/

@[simp] theorem commitSeed_ctrl (buf : Bytes 160) (s : State) : (commitSeed buf s).ctrl = s.ctrl := rfl
@[simp] theorem commitSeed_status (buf : Bytes 160) (s : State) : (commitSeed buf s).status = { s.status with seedValid := true } := rfl
@[simp] theorem commitSeed_in0 (buf : Bytes 160) (s : State) : (commitSeed buf s).in0 = s.in0 := rfl
@[simp] theorem commitSeed_in1 (buf : Bytes 160) (s : State) : (commitSeed buf s).in1 = s.in1 := rfl
@[simp] theorem commitSeed_in2 (buf : Bytes 160) (s : State) : (commitSeed buf s).in2 = s.in2 := rfl
@[simp] theorem commitSeed_in3 (buf : Bytes 160) (s : State) : (commitSeed buf s).in3 = s.in3 := rfl
@[simp] theorem commitSeed_in4 (buf : Bytes 160) (s : State) : (commitSeed buf s).in4 = s.in4 := rfl
@[simp] theorem commitSeed_out0 (buf : Bytes 160) (s : State) : (commitSeed buf s).out0 = s.out0 := rfl
@[simp] theorem commitSeed_out1 (buf : Bytes 160) (s : State) : (commitSeed buf s).out1 = s.out1 := rfl
@[simp] theorem commitSeed_hseed (buf : Bytes 160) (s : State) : (commitSeed buf s).hseed = s.hseed := rfl
@[simp] theorem commitSeed_seedBuf (buf : Bytes 160) (s : State) : (commitSeed buf s).seedBuf = buf := rfl
@[simp] theorem commitSeed_addrP (buf : Bytes 160) (s : State) : (commitSeed buf s).addrP = s.addrP := rfl
@[simp] theorem commitSeed_addrQ (buf : Bytes 160) (s : State) : (commitSeed buf s).addrQ = s.addrQ := rfl
@[simp] theorem commitSeed_addrM (buf : Bytes 160) (s : State) : (commitSeed buf s).addrM = s.addrM := rfl
@[simp] theorem commitSeed_addrS (buf : Bytes 160) (s : State) : (commitSeed buf s).addrS = s.addrS := rfl
@[simp] theorem commitSeed_fsm (buf : Bytes 160) (s : State) : (commitSeed buf s).fsm = s.fsm := rfl
@[simp] theorem commitSeed_icnt (buf : Bytes 160) (s : State) : (commitSeed buf s).icnt = s.icnt := rfl
@[simp] theorem commitSeed_work (buf : Bytes 160) (s : State) : (commitSeed buf s).work = s.work := rfl
@[simp] theorem commitSeed_vm (buf : Bytes 160) (s : State) : (commitSeed buf s).vm = s.vm := rfl
@[simp] theorem commitSeed_agenda (buf : Bytes 160) (s : State) : (commitSeed buf s).agenda = s.agenda := rfl
@[simp] theorem commitSeed_rdata (buf : Bytes 160) (s : State) : (commitSeed buf s).rdata = s.rdata := rfl
@[simp] theorem commitSeed_draws (buf : Bytes 160) (s : State) : (commitSeed buf s).draws = s.draws := rfl

/-! ### commitPoint -/

@[simp] theorem commitPoint_ctrl (p : Point) (s : State) : (commitPoint p s).ctrl = s.ctrl := rfl
@[simp] theorem commitPoint_status (p : Point) (s : State) : (commitPoint p s).status = { s.status with sign := signBit p.h, iter := BitVec.ofNat 7 p.i } := rfl
@[simp] theorem commitPoint_in0 (p : Point) (s : State) : (commitPoint p s).in0 = s.in0 := rfl
@[simp] theorem commitPoint_in1 (p : Point) (s : State) : (commitPoint p s).in1 = s.in1 := rfl
@[simp] theorem commitPoint_in2 (p : Point) (s : State) : (commitPoint p s).in2 = s.in2 := rfl
@[simp] theorem commitPoint_in3 (p : Point) (s : State) : (commitPoint p s).in3 = s.in3 := rfl
@[simp] theorem commitPoint_in4 (p : Point) (s : State) : (commitPoint p s).in4 = s.in4 := rfl
@[simp] theorem commitPoint_out0 (p : Point) (s : State) : (commitPoint p s).out0 = BitVec.ofNat 256 p.x.val := rfl
@[simp] theorem commitPoint_out1 (p : Point) (s : State) : (commitPoint p s).out1 = BitVec.ofNat 256 p.y.val := rfl
@[simp] theorem commitPoint_hseed (p : Point) (s : State) : (commitPoint p s).hseed = digestView p.h := rfl
@[simp] theorem commitPoint_seedBuf (p : Point) (s : State) : (commitPoint p s).seedBuf = s.seedBuf := rfl
@[simp] theorem commitPoint_addrP (p : Point) (s : State) : (commitPoint p s).addrP = s.addrP := rfl
@[simp] theorem commitPoint_addrQ (p : Point) (s : State) : (commitPoint p s).addrQ = s.addrQ := rfl
@[simp] theorem commitPoint_addrM (p : Point) (s : State) : (commitPoint p s).addrM = s.addrM := rfl
@[simp] theorem commitPoint_addrS (p : Point) (s : State) : (commitPoint p s).addrS = s.addrS := rfl
@[simp] theorem commitPoint_fsm (p : Point) (s : State) : (commitPoint p s).fsm = s.fsm := rfl
@[simp] theorem commitPoint_icnt (p : Point) (s : State) : (commitPoint p s).icnt = s.icnt := rfl
@[simp] theorem commitPoint_work (p : Point) (s : State) : (commitPoint p s).work = s.work := rfl
@[simp] theorem commitPoint_vm (p : Point) (s : State) : (commitPoint p s).vm = s.vm := rfl
@[simp] theorem commitPoint_agenda (p : Point) (s : State) : (commitPoint p s).agenda = s.agenda := rfl
@[simp] theorem commitPoint_rdata (p : Point) (s : State) : (commitPoint p s).rdata = s.rdata := rfl
@[simp] theorem commitPoint_draws (p : Point) (s : State) : (commitPoint p s).draws = s.draws := rfl

/-! ### clearBody -/

@[simp] theorem clearBody_ctrl (s : State) : (clearBody s).ctrl = s.ctrl := rfl
@[simp] theorem clearBody_status (s : State) : (clearBody s).status = { s.status with ovr := false } := rfl
@[simp] theorem clearBody_in0 (s : State) : (clearBody s).in0 = s.in0 := rfl
@[simp] theorem clearBody_in1 (s : State) : (clearBody s).in1 = s.in1 := rfl
@[simp] theorem clearBody_in2 (s : State) : (clearBody s).in2 = s.in2 := rfl
@[simp] theorem clearBody_in3 (s : State) : (clearBody s).in3 = s.in3 := rfl
@[simp] theorem clearBody_in4 (s : State) : (clearBody s).in4 = s.in4 := rfl
@[simp] theorem clearBody_out0 (s : State) : (clearBody s).out0 = s.out0 := rfl
@[simp] theorem clearBody_out1 (s : State) : (clearBody s).out1 = s.out1 := rfl
@[simp] theorem clearBody_hseed (s : State) : (clearBody s).hseed = s.hseed := rfl
@[simp] theorem clearBody_seedBuf (s : State) : (clearBody s).seedBuf = s.seedBuf := rfl
@[simp] theorem clearBody_addrP (s : State) : (clearBody s).addrP = s.addrP := rfl
@[simp] theorem clearBody_addrQ (s : State) : (clearBody s).addrQ = s.addrQ := rfl
@[simp] theorem clearBody_addrM (s : State) : (clearBody s).addrM = s.addrM := rfl
@[simp] theorem clearBody_addrS (s : State) : (clearBody s).addrS = s.addrS := rfl
@[simp] theorem clearBody_fsm (s : State) : (clearBody s).fsm = s.fsm := rfl
@[simp] theorem clearBody_icnt (s : State) : (clearBody s).icnt = s.icnt := rfl
@[simp] theorem clearBody_work (s : State) : (clearBody s).work = s.work := rfl
@[simp] theorem clearBody_vm (s : State) : (clearBody s).vm = s.vm := rfl
@[simp] theorem clearBody_agenda (s : State) : (clearBody s).agenda = s.agenda := rfl
@[simp] theorem clearBody_rdata (s : State) : (clearBody s).rdata = s.rdata := rfl
@[simp] theorem clearBody_draws (s : State) : (clearBody s).draws = s.draws := rfl

/-! ### The updates of Status -/

@[simp] theorem Status.accepted_done (st : Status) : st.accepted.done = false := rfl
@[simp] theorem Status.accepted_err (st : Status) : st.accepted.err = false := rfl
@[simp] theorem Status.accepted_ovr (st : Status) : st.accepted.ovr = st.ovr := rfl
@[simp] theorem Status.accepted_seedValid (st : Status) : st.accepted.seedValid = st.seedValid := rfl
@[simp] theorem Status.accepted_sign (st : Status) : st.accepted.sign = st.sign := rfl
@[simp] theorem Status.accepted_errcode (st : Status) : st.accepted.errcode = 0 := rfl
@[simp] theorem Status.accepted_errid (st : Status) : st.accepted.errid = false := rfl
@[simp] theorem Status.accepted_errmem (st : Status) : st.accepted.errmem = false := rfl
@[simp] theorem Status.accepted_iter (st : Status) : st.accepted.iter = 0 := rfl

@[simp] theorem Status.completed_done (st : Status) : st.completed.done = true := rfl
@[simp] theorem Status.completed_err (st : Status) : st.completed.err = false := rfl
@[simp] theorem Status.completed_ovr (st : Status) : st.completed.ovr = st.ovr := rfl
@[simp] theorem Status.completed_seedValid (st : Status) : st.completed.seedValid = st.seedValid := rfl
@[simp] theorem Status.completed_sign (st : Status) : st.completed.sign = st.sign := rfl
@[simp] theorem Status.completed_errcode (st : Status) : st.completed.errcode = st.errcode := rfl
@[simp] theorem Status.completed_errid (st : Status) : st.completed.errid = st.errid := rfl
@[simp] theorem Status.completed_errmem (st : Status) : st.completed.errmem = st.errmem := rfl
@[simp] theorem Status.completed_iter (st : Status) : st.completed.iter = st.iter := rfl

@[simp] theorem Status.failed_done (e : CoreError) (st : Status) : (st.failed e).done = false := by cases e <;> rfl
@[simp] theorem Status.failed_err (e : CoreError) (st : Status) : (st.failed e).err = true := by cases e <;> rfl
@[simp] theorem Status.failed_ovr (e : CoreError) (st : Status) : (st.failed e).ovr = st.ovr := by cases e <;> rfl
@[simp] theorem Status.failed_seedValid (e : CoreError) (st : Status) : (st.failed e).seedValid = st.seedValid := by cases e <;> rfl
@[simp] theorem Status.failed_sign (e : CoreError) (st : Status) : (st.failed e).sign = st.sign := by cases e <;> rfl
@[simp] theorem Status.failed_errcode (e : CoreError) (st : Status) : (st.failed e).errcode = e.code := by cases e <;> rfl
@[simp] theorem Status.failed_iter (e : CoreError) (st : Status) : (st.failed e).iter = st.iter := by cases e <;> rfl

/-- An error's code is never 0 (R119). -/
theorem CoreError.code_ne_zero (e : CoreError) : e.code ≠ 0 := by cases e <;> simp [CoreError.code]

/-- An error's code is 9 at most (R119). -/
theorem CoreError.code_le (e : CoreError) : e.code.toNat ≤ 9 := by cases e <;> simp [CoreError.code]

/-- BUSY, and the engine's control state (R39). -/
theorem State.busy_eq_false {s : State} : s.busy = false ↔ s.fsm = .idle := by
  simp [State.busy]

theorem State.busy_eq_true {s : State} : s.busy = true ↔ s.fsm ≠ .idle := by
  simp [State.busy]

end Sys2Proof.Machine
end

