-- ==== Sys2Proof/Laws/Ops.lean ====
section
/-!
SUPPORT. One lemma for each shared operation, saying once what it can do: acceptance, operand checks, HINT's reads, the
sampling loop, the end of HINT, and one step of the machine.
-/

namespace Sys2Proof.Machine

open Sys2Proof.Config

/-! ### A command as an instruction -/

theorem issue_busy {w : U32} {body : State → State} {s : State} (h : s.busy = true) :
    issue w body s = overrun s := by simp [issue, h]

theorem issue_idle {w : U32} {body : State → State} {s : State} (h : s.busy = false) :
    issue w body s = body (accept w s) := by simp [issue, h]

/-! ### Operand checks -/

/-- The check passes exactly when every operand is a field element (R87). -/
theorem checkFelts_ok {vs : List U256} : checkFelts vs = .ok () ↔ ∀ v ∈ vs, v.toNat < P := by
  induction vs with
  | nil => simp [checkFelts]
  | cons v vs ih =>
    unfold checkFelts
    split
    · simp; omega
    · simp [ih]; omega

/-- Otherwise it answers E_RANGE (R87). -/
theorem checkFelts_error {vs : List U256} (h : ∃ v ∈ vs, P ≤ v.toNat) : checkFelts vs = .error .range := by
  induction vs with
  | nil => simp at h
  | cons v vs ih =>
    unfold checkFelts
    split
    · rfl
    · apply ih
      rcases h with ⟨w, hw, hP⟩
      rcases List.mem_cons.1 hw with rfl | hw
      · omega
      · exact ⟨w, hw, hP⟩

/-- The check has these two answers and no other. -/
theorem checkFelts_cases (vs : List U256) :
    (checkFelts vs = .ok () ∧ ∀ v ∈ vs, v.toNat < P) ∨ (checkFelts vs = .error .range ∧ ∃ v ∈ vs, P ≤ v.toNat) := by
  by_cases h : ∀ v ∈ vs, v.toNat < P
  · exact .inl ⟨checkFelts_ok.2 h, h⟩
  · push Not at h
    exact .inr ⟨checkFelts_error h, h⟩

/-! ### HINT's reads -/

theorem except_bind_ok {ε α β : Type} {x : Except ε α} {f : α → Except ε β} {b : β} :
    (x >>= f) = .ok b ↔ ∃ a, x = .ok a ∧ f a = .ok b := by
  cases x <;> simp [bind, Except.bind]

theorem Memory.readInt_ok {m : Memory} {a : Addr} {e : CoreError} {v : Felt} :
    m.readInt a e = .ok v ↔ m.read a = .int v := by
  unfold Memory.readInt
  split <;> simp_all

theorem Memory.readInt_error {m : Memory} {a : Addr} {e e' : CoreError} :
    m.readInt a e = .error e' ↔ e' = e ∧ ∀ v, m.read a ≠ .int v := by
  unfold Memory.readInt
  cases m.read a <;> simp [eq_comm]

/-- The reads succeed exactly when the five cells hold integers, and give their values (R109). -/
theorem readInputs_ok {m : Memory} {p q sc : Addr} {i : Inputs} :
    readInputs m p q sc = .ok i ↔
      m.read (m.memberX p) = .int i.px ∧ m.read (m.memberY p) = .int i.py ∧ m.read (m.memberX q) = .int i.qx ∧
        m.read (m.memberY q) = .int i.qy ∧ m.read (m.memberX sc) = .int i.m := by
  simp only [readInputs, except_bind_ok, Memory.readInt_ok, pure, Except.pure, Except.ok.injEq]
  constructor
  · rintro ⟨px, h1, py, h2, qx, h3, qy, h4, mv, h5, rfl⟩
    exact ⟨h1, h2, h3, h4, h5⟩
  · rintro ⟨h1, h2, h3, h4, h5⟩
    exact ⟨i.px, h1, i.py, h2, i.qx, h3, i.qy, h4, i.m, h5, rfl⟩

/-! ### The sampling loop -/

/-- The loop answers the first accepted candidate, if one of its `n` candidates is accepted, and none otherwise (R99 to
R101). -/
theorem search_spec (H : Hash) (d : Bytes 32) (n i : Nat) :
    (search H d n i = none ∧ ∀ j, i ≤ j → j < i + n → isQr (curveRhs (candidate H d j)) = false) ∨
    ∃ j, i ≤ j ∧ j < i + n ∧ isQr (curveRhs (candidate H d j)) = true ∧
      (∀ k, i ≤ k → k < j → isQr (curveRhs (candidate H d k)) = false) ∧
      search H d n i = some (pointOf d j (candidate H d j) (sqrtC (curveRhs (candidate H d j)))) := by
  induction n generalizing i with
  | zero => left; exact ⟨rfl, fun j h1 h2 => by omega⟩
  | succ n ih =>
    simp only [search, withNat_eq]
    cases hq : isQr (curveRhs (candidate H d i)) with
    | true => right; exact ⟨i, le_refl _, by omega, hq, fun k h1 h2 => by omega, by simp⟩
    | false =>
      simp only [Bool.false_eq_true, ↓reduceIte]
      rcases ih (i + 1) with ⟨hn, hall⟩ | ⟨j, h1, h2, h3, h4, h5⟩
      · left
        refine ⟨hn, fun j hj hj' => ?_⟩
        rcases Nat.eq_or_lt_of_le hj with rfl | h
        · exact hq
        · exact hall j h (by omega)
      · right
        refine ⟨j, by omega, by omega, h3, fun k hk hk' => ?_, h5⟩
        rcases Nat.eq_or_lt_of_le hk with rfl | h
        · exact hq
        · exact h4 k h hk'

/-- What a derivation answers (R93): the point of an accepted candidate below 100. -/
theorem randomEcPoint_some {H : Hash} {seed : Bytes 160} {p : Point} (h : randomEcPoint H seed = some p) :
    p.h = H seed.val ∧ p.i < 100 ∧ isQr (curveRhs (candidate H p.h p.i)) = true ∧
      (∀ k, k < p.i → isQr (curveRhs (candidate H p.h k)) = false) ∧
      p = pointOf p.h p.i (candidate H p.h p.i) (sqrtC (curveRhs (candidate H p.h p.i))) := by
  rcases search_spec H (H seed.val) nIter 0 with ⟨hn, _⟩ | ⟨j, _, h2, h3, h4, h5⟩
  · rw [randomEcPoint, hn] at h; cases h
  · rw [randomEcPoint, h5] at h
    obtain rfl := Option.some.inj h
    exact ⟨rfl, by simpa [nIter, pointOf] using h2, h3, fun k hk => h4 k (Nat.zero_le _) hk, rfl⟩

/-! ### The end of HINT -/

/-- HINT on a derived point ends in E_WRITE with nothing written, or with both cells written and the results committed
(R107, R112). -/
theorem finishHint_cases (dest : Addr) (buf : Bytes 160) (p : Point) (s : State) :
    (s.vm.writePair dest p.x p.y = none ∧ finishHint dest buf p s = raise .write s) ∨
    ∃ vm, s.vm.writePair dest p.x p.y = some vm ∧
      finishHint dest buf p s = completeOk (commitPoint p (commitSeed buf { s with vm := vm })) := by
  unfold finishHint
  split
  · exact .inl ⟨by assumption, rfl⟩
  · exact .inr ⟨_, by assumption, rfl⟩

/-! ### One step -/

/-- What a step that answers a next state did: with no turn to come the engine moved, else the first turn ran. -/
theorem step_next {s t : State} (h : step s = .next t) :
    (s.agenda = [] ∧ t = engineStep s) ∨
    (∃ rest, s.agenda = .engine :: rest ∧ t = engineStep { s with agenda := rest }) ∨
    (∃ rest, s.agenda = .reset :: rest ∧ t = resetCore { s with agenda := rest }) ∨
    (∃ rest a c, s.agenda = .vmWrite a c :: rest ∧ hostVmWrite a c { s with agenda := rest } = .next t) ∨
    (∃ rest r i, s.agenda = .raw r :: rest ∧ decode r = .ok i ∧ exec i { s with agenda := rest } = .next t) := by
  unfold step at h
  split at h
  · rename_i ha
    exact .inl ⟨ha, (Host.Outcome.next.inj h).symm⟩
  · rename_i t' rest ha
    cases t' with
    | engine => exact .inr (.inl ⟨rest, ha, (Host.Outcome.next.inj h).symm⟩)
    | reset => exact .inr (.inr (.inl ⟨rest, ha, (Host.Outcome.next.inj h).symm⟩))
    | vmWrite a c => exact .inr (.inr (.inr (.inl ⟨rest, a, c, ha, h⟩)))
    | raw r =>
      simp only [runTurn, runRaw] at h
      split at h
      · rename_i i hd
        exact .inr (.inr (.inr (.inr ⟨rest, r, i, ha, hd, h⟩)))
      · cases h

end Sys2Proof.Machine
end

