-- ==== Sys2Proof/Laws/PerInstr.lean ====
section
/-!
SUPPORT. The family EncodeShape: what the raw form of each well-formed instruction looks like (spec/30_encoding.md R67,
R68, R70, R72), one lemma per constructor of Instr.
-/

namespace Sys2Proof.Laws

/-- The raw form of a well-formed instruction: a command word, below 8 exactly when the instruction is not ILLEGAL; or a
bus header whose reserved bit is 0 and whose WE bit says whether there is a value, which is of the indexed register's
type. -/
def EncodeShape.Statement (i : Instr) : Prop :=
  i.wf = true →
    match encode i with
    | .command w => w.toNat < 8 ↔ ∀ v, i ≠ .illegal v
    | .bus h data => headerReserved h = false ∧ headerWrite h = data.isSome ∧
        ∀ v, data = some v → v.type = busType (headerIndex h)

theorem EncodeShape.clear : EncodeShape.Statement .clear := fun _ => by simp [encode]
theorem EncodeShape.modexp : EncodeShape.Statement .modexp := fun _ => by simp [encode]
theorem EncodeShape.qrtest : EncodeShape.Statement .qrtest := fun _ => by simp [encode]
theorem EncodeShape.sqrt : EncodeShape.Statement .sqrt := fun _ => by simp [encode]
theorem EncodeShape.crhs : EncodeShape.Statement .crhs := fun _ => by simp [encode]
theorem EncodeShape.serialize : EncodeShape.Statement .serialize := fun _ => by simp [encode]
theorem EncodeShape.derive : EncodeShape.Statement .derive := fun _ => by simp [encode]
theorem EncodeShape.hint : EncodeShape.Statement .hint := fun _ => by simp [encode]

/-- The three fields of a header made of a WE bit and an index. -/
theorem busHeader_fields : ∀ (we : Bool) (idx : BitVec 6),
    headerReserved (busHeader we idx) = false ∧ headerWrite (busHeader we idx) = we ∧
      headerIndex (busHeader we idx) = idx := by decide

theorem EncodeShape.hostWr (idx : BitVec 6) (v : BusValue) : EncodeShape.Statement (.hostWr idx v) := by
  intro h
  obtain ⟨hr, hw, hi⟩ := busHeader_fields true idx
  refine ⟨hr, hw, fun u hu => ?_⟩
  obtain rfl := Option.some.inj hu
  rw [hi]
  exact beq_iff_eq.1 h

theorem EncodeShape.hostRd (idx : BitVec 6) : EncodeShape.Statement (.hostRd idx) := by
  intro _
  obtain ⟨hr, hw, _⟩ := busHeader_fields false idx
  exact ⟨hr, hw, fun _ hu => by cases hu⟩

theorem EncodeShape.illegal (w : U32) : EncodeShape.Statement (.illegal w) := by
  intro h
  have h8 : 8 ≤ w.toNat := of_decide_eq_true h
  exact ⟨fun hlt => absurd hlt (by omega), fun hne => absurd rfl (hne w)⟩

end Sys2Proof.Laws
end

