-- ==== Sys2Proof/Tests/Slice0.lean ====
section
/-!
SUPPORT. Tests of the model, one step each, with the expected values of spec/95_test_vectors.md (the vector is named in
the comment), the smoke tests of WellFormed and Decode, and for every obligation with hypotheses a witness that meets them.
-/

namespace Sys2Proof.Tests

open Sys2Proof.Machine Sys2Proof.Config

set_option Elab.async false

/-! ### Helpers -/

/-- The next state of an outcome, or the reset state where there is none. -/
def after : Host.Outcome State Fault Refusal → State
  | .next t => t
  | .fault _ => State.reset
  | .refused _ => State.reset

/-- The reset state with a value in IN0. -/
def withIn0 (n : Nat) : State := { State.reset with in0 := BitVec.ofNat 256 n }

/-- The reset state with a seed bundle loaded. -/
def loaded (a b c d e : Nat) : State :=
  { State.reset with seedBuf := seedBundle a b c d e, status := { Status.zero with seedValid := true } }

/-- The reset state with a DERIVE in its sampling loop. -/
def deriving0 : State :=
  { loaded 0 0 0 0 0 with ctrl := 0x00000006, fsm := .attempt .derive }

/-- The symbolic addresses of spec/95_test_vectors.md section 2.8, all distinct: `@p`, `@p+1`, `@q`, `@q+1`, `@m`, `@s`,
`@s+1`. -/
def aP : Addr := ⟨1⟩
def aP1 : Addr := ⟨2⟩
def aQ : Addr := ⟨3⟩
def aQ1 : Addr := ⟨4⟩
def aM : Addr := ⟨5⟩
def aS : Addr := ⟨6⟩
def aS1 : Addr := ⟨7⟩

/-- MEM0 of section 2.8, with the content of `@p+1` and a write policy left open. -/
def mem0 (py : VmCell) (policy : AdmitPolicy) : Memory :=
  { cells := [(aP, .int (felt 1)), (aP1, py), (aQ, .int (felt 4)), (aQ1, .int (felt 5)), (aM, .int (felt 3))]
    policy := policy
    offsets := [((aP, 1), aP1), ((aQ, 1), aQ1), ((aS, 1), aS1)] }

/-- The start state of the HINT vectors. -/
def hintStart (m : Memory) (dest : Addr) : State :=
  { State.reset with addrP := some aP, addrQ := some aQ, addrM := some aM, addrS := some dest, vm := m }

/-- V-H1's start state. -/
def hint1 : State := hintStart (mem0 (.int (felt 2)) .writeOnce) aS

/-- The five values of MEM0. -/
def inputs0 : Inputs := { px := felt 1, py := felt 2, m := felt 3, qx := felt 4, qy := felt 5 }

/-- The hash of V-D7: 32 zero bytes, whatever the message. -/
def zeroHash : Hash := fun _ => ⟨List.replicate 32 0, rfl⟩

/-- The coordinates of V-D2 and V-H1. -/
def xD2 : Nat := 1724574197725454767304337226776278699662911960008012758994921070006656145821
def yD2 : Nat := 3363829673201885583757440168791393146572530886924416973060281702062878637025

/-- The point of V-D2. -/
def pointD2 : Point := { x := felt xD2, y := felt yD2, i := 1, h := sha256 (seedBundle 1 2 3 4 5).val }

theorem square_of_isQr {a : Nat} (h : a < P) (hq : isQr a = true) : Square a := (isQr_iff a h).1 hq

theorem not_square_of_isQr {a : Nat} (h : a < P) (hq : isQr a = false) : ¬ Square a := fun hs => by
  have := (isQr_iff a h).2 hs
  rw [hq] at this
  cases this

/-! ### Well-formedness: each check refuses an ill-formed term -/

theorem test_wf_hostWr_wrong_type : (Instr.hostWr 0x02 (.u32 5)).wf = false := by decide
theorem test_wf_hostWr_address_to_number : (Instr.hostWr 0x0F (.u256 0)).wf = false := by decide
theorem test_wf_hostWr_number_to_reserved : (Instr.hostWr 0x13 (.u256 0)).wf = false := by decide
theorem test_wf_illegal_is_a_command : (Instr.illegal 0x00000007).wf = false := by decide

/-! ### Decoding: words written out from the tables of R67, R68 and R70 -/

/-- The table's bits: `RSVD` 24 zeros, then `OPC`. -/
theorem test_decode_clear : decodeTableWord 32 0b000000000000000000000000_00000000 = some .clear := by decide
theorem test_decode_modexp : decodeTableWord 32 0b000000000000000000000000_00000001 = some .modexp := by decide
theorem test_decode_qrtest : decodeTableWord 32 0b000000000000000000000000_00000010 = some .qrtest := by decide
theorem test_decode_sqrt : decodeTableWord 32 0b000000000000000000000000_00000011 = some .sqrt := by decide
theorem test_decode_crhs : decodeTableWord 32 0b000000000000000000000000_00000100 = some .crhs := by decide
theorem test_decode_serialize : decodeTableWord 32 0b000000000000000000000000_00000101 = some .serialize := by decide
theorem test_decode_derive : decodeTableWord 32 0b000000000000000000000000_00000110 = some .derive := by decide
theorem test_decode_hint : decodeTableWord 32 0b000000000000000000000000_00000111 = some .hint := by decide
/-- V-DEC2, V-DEC1 and V-DEC4 -/
theorem test_decode_illegal : decodeTableWord 32 0x00000008 = some (.illegal 0x00000008) ∧
    decodeTableWord 32 0x00000106 = some (.illegal 0x00000106) ∧
    decodeTableWord 32 0x80000001 = some (.illegal 0x80000001) := by decide
/-- `WE` 1, `RSVD` 0, `IDX` 000010 (IN0), and 001111 (AP) -/
theorem test_decode_hostWr : decodeTableWord 8 0b1_0_000010 = some (.hostWr 0b000010 (.u256 0)) ∧
    decodeTableWord 8 0b1_0_001111 = some (.hostWr 0b001111 (.oaddr none)) := by decide
/-- `WE` 0, `RSVD` 0, `IDX` 000111 (OUT0) -/
theorem test_decode_hostRd : decodeTableWord 8 0b0_0_000111 = some (.hostRd 0b000111) := by decide
/-- V-BUS9 -/
theorem test_decode_reserved_bit : decodeTableWord 8 0b0_1_000000 = none := by decide

/-! ### The hash, the serializer -/

/-- The first 64 primes, 2 to 311: the numbers below 312 that no smaller prime up to 17 divides. -/
def primes : List Nat :=
  (List.range' 2 310).filter fun n => [2, 3, 5, 7, 11, 13, 17].all fun d => n == d || n % d != 0

/-- The largest `r + x` with `x < 2^bits` whose `k`-th power is at most `n`, bit by bit from the top. -/
def rootFrom (k n : Nat) : (bits r : Nat) → Nat
  | 0, r => r
  | b + 1, r => withNat (r + Nat.pow 2 b) fun r' => rootFrom k n b (bif Nat.ble (Nat.pow r' k) n then r' else r)

/-- The first 32 bits of the fractional part of the `k`-th root of a prime below 312. -/
def rootFraction (k p : Nat) : U32 := withNat (p * Nat.pow 2 (32 * k)) fun n => BitVec.ofNat 32 (rootFrom k n 36 0)

/-- The definition of the constants in FIPS 180-4, 4.2.2 and 5.3.3 -/
theorem test_sha256_constants : primes.length = 64 ∧ Sha.roundConstants = primes.map (rootFraction 3) ∧
    Sha.initialWords = (primes.take 8).map (rootFraction 2) := by decide +kernel
/-- V-SHA1 -/
theorem test_sha256_empty : fromBe32 (sha256 []) =
    0xe3b0c44298fc1c149afbf4c8996fb92427ae41e4649b934ca495991b7852b855 := by decide +kernel
/-- V-SHA2 -/
theorem test_sha256_abc : fromBe32 (sha256 [0x61, 0x62, 0x63]) =
    0xba7816bf8f01cfea414140de5dae2223b00361a396177a9cb410ff61f20015ad := by decide +kernel
/-- V-SER2 and V-SER5 -/
theorem test_padded_bytes : fromBe32 (toPaddedBytes (P - 1)) =
      0x0800000000000011000000000000000000000000000000000000000000000000 ∧
    fromBe32 (toPaddedBytes (P - 5)) = 0x0800000000000010fffffffffffffffffffffffffffffffffffffffffffffffc := by
  decide +kernel

/-! ### One step of each instruction -/

/-- V-CLR2 -/
theorem test_clear : (after (exec .clear { State.reset with
      status := { Status.zero with done := true, seedValid := true, sign := true, iter := 1 } })).statusWord =
    0x00000030 := by decide +kernel
/-- V-CLR -/
theorem test_clear_ovr : (after (exec .clear { State.reset with
      status := { Status.zero with err := true, ovr := true, errcode := 2 } })).statusWord = 0 := by decide +kernel

/-- V-MX1: 0 to the power 0 -/
theorem test_modexp_zero : (after (exec .modexp State.reset)).out0 = 1 := by decide +kernel
/-- V-MX12: both operands 2^256 − 1 -/
theorem test_modexp_large :
    (after (exec .modexp { State.reset with in0 := BitVec.allOnes 256, in1 := BitVec.allOnes 256 })).out0 =
      414233445509135797780756993504173010448654683841570456094856693139452637102 := by decide +kernel

/-- V-QR4 -/
theorem test_qrtest_three : ((after (exec .qrtest { withIn0 3 with out0 := 7 })).out0,
    (after (exec .qrtest (withIn0 3))).statusWord) = (0, 0x00000002) := by decide +kernel
/-- V-QR13 -/
theorem test_qrtest_range : ((after (exec .qrtest { withIn0 P with out0 := 7 })).out0,
    (after (exec .qrtest (withIn0 P))).statusWord) = (7, 0x00000204) := by decide +kernel

/-- V-SQ8: the smaller of the two roots of P − 1 -/
theorem test_sqrt_smaller_root : (after (exec .sqrt (withIn0 (P - 1)))).out0 =
    839237011175385726789510135931031354814687537620706622849166492834709948446 := by decide +kernel
/-- V-SQ10 -/
theorem test_sqrt_not_qr : (after (exec .sqrt (withIn0 3))).statusWord = 0x00000304 := by decide +kernel

/-- V-CR8: the unreduced operand 2^256 − 1 -/
theorem test_crhs_unreduced : (after (exec .crhs (withIn0 (2 ^ 256 - 1)))).out0 =
    1132476806536742862580963992399084242241355912394420833902888394726517277588 := by decide +kernel
/-- V-CR7 -/
theorem test_crhs_minus_one : (after (exec .crhs (withIn0 (P - 1)))).out0 =
    3141592653589793238462643383279502884197169399375105820974944592307816406663 := by decide +kernel

/-- V-SER6 -/
theorem test_serialize_order :
    ((List.range 5).map (seedView
      (after (exec .serialize { State.reset with in0 := 1, in1 := 2, in2 := 3, in3 := 4, in4 := 5 })).seedBuf)) =
      [1, 2, 3, 4, 5] := by decide +kernel
/-- V-SER9 -/
theorem test_serialize_range :
    ((after (exec .serialize { loaded 1 2 3 4 5 with in3 := BitVec.ofNat 256 P })).statusWord,
      seedView (after (exec .serialize { loaded 1 2 3 4 5 with in3 := BitVec.ofNat 256 P })).seedBuf 4) =
      (0x00000214, 5) := by decide +kernel

/-- V-D1: sign bit 1, and a candidate that is not reduced -/
theorem test_derive_zero_seed :
    ((fun t : State => (t.out0, t.out1, t.hseed, t.statusWord)) (after (exec .derive (loaded 0 0 0 0 0)))) =
      (2480822187915755705361311456038382415646830363656585234165421059092188232567,
        3426372215771188665481839212826984305934013501136336242260292636819990459228,
        81224772252195051674246770436718605192604300407166279210233127706246061146852, 0x00000032) := by
  decide +kernel
/-- V-D4: sign bit 0 -/
theorem test_derive_sign_clear :
    ((fun t : State => (t.out0, t.out1, t.statusWord)) (after (exec .derive (loaded 0 0 0 0 2)))) =
      (2907768103314427953967552574284358823266470859964753716062082177093947259753,
        680011781973774682082729184496738304664559970965007359725673190888871909324, 0x00000012) := by
  decide +kernel
/-- V-D7: exhaustion, with the substituted hash; the counter is 100 (R40) -/
theorem test_derive_exhausted :
    ((fun t : State => (t.out0, t.statusWord, t.icnt)) (after (deriveWith zeroHash (loaded 1 2 3 4 5)))) =
      (0, 0x00640814, 100) := by decide +kernel

/-- V-H1; one candidate is rejected, so the counter is 1 (R40) -/
theorem test_hint :
    ((fun t : State => (t.vm.read aS, t.vm.read aS1, t.out0, seedView t.seedBuf 2, t.statusWord, t.icnt))
      (after (exec .hint hint1))) =
      (.int (felt xD2), .int (felt yD2), BitVec.ofNat 256 xD2, 3, 0x00010032, 1) := by decide +kernel
/-- V-H3 -/
theorem test_hint_no_member :
    ((fun t : State => (t.vm.read aS, t.statusWord))
      (after (exec .hint (hintStart (mem0 (.addr aQ) .writeOnce) aS)))) = (.unset, 0x00002604) := by decide +kernel

/-- V-BUS3 and V-BUS5 -/
theorem test_hostWr_ignored : after (exec (.hostWr 0x07 (.u256 9)) State.reset) = State.reset ∧
    after (exec (.hostWr 0x3F (.u32 1)) State.reset) = State.reset := by decide +kernel
/-- V-BUS6 -/
theorem test_hostWr_busy :
    ((fun t : State => (t.in0, t.status.ovr)) (after (exec (.hostWr 0x02 (.u256 7)) deriving0))) = (0, true) := by
  decide +kernel
/-- V-BUS4 -/
theorem test_hostRd_reserved : (after (exec (.hostRd 0x13) State.reset)).rdata = some (.u32 0) := by decide +kernel
/-- V-BUS8, with SEED_VALID = 1 -/
theorem test_hostRd_status_busy : (after (exec (.hostRd 0x01) deriving0)).rdata = some (.u32 0x00000011) := by
  decide +kernel

/-- V-DEC1 -/
theorem test_illegal :
    ((fun t : State => (t.ctrl, t.statusWord)) (after (step (State.reset.withFetchWord 32 0x00000106)))) =
      (0x00000106, 0x00000104) := by decide +kernel
/-- V-DEC4: MODEXP is not run -/
theorem test_illegal_high_bit :
    ((fun t : State => (t.out0, t.statusWord)) (after (step (State.reset.withFetchWord 32 0x80000001)))) =
      (0, 0x00000104) := by decide +kernel

/-- V-RST, with BUSY = 1 -/
theorem test_reset_input : after (step { deriving0 with agenda := [.reset] }) = { State.reset with draws := 1 } := by
  decide +kernel

/-- The error kind that the host reports for V-H3 (R114) -/
theorem test_vm_error : (errorStatus 6 { Status.zero with done := true }).vmError =
      some (.identifierHasNoMember "p" "x") ∧
    ({ errorStatus 6 Status.zero with errmem := true }).vmError = some (.identifierHasNoMember "p" "y") := by decide

/-- The transactions of the line `sqrt a -> r` of R75, with the headers of PR5: 0x82, 0x80, the poll, 0x07 -/
theorem test_host_expansion : (Pseudo.sqrt (.lit 4) "r").expand "w" =
    [.wr 0x02 (.lit 4), .wr 0x00 (.lit 3), .label "w", .rd 0x01 "w",
      .ifGoto (.eq (.bits "w" 0 0) (.lit 1)) "w", .rd 0x07 "r"] := by decide

/-- The value of PR2's `Y = P - y0`, and a condition on a bit that is 1 -/
theorem test_host_condition :
    (fun h : HostRun => (HostExpr.eval h (.eq (.var "Y") (.sub .P (.var "y0"))), HostExpr.eval h (.eq (.bits "t" 5 5) (.lit 0))))
      { lines := [], pc := 0, vars := [("Y", .int (P - 7)), ("y0", .int 7), ("t", .int 0x00010032)], names := []
        machine := State.reset } = (some (.bool true), some (.bool false)) := by decide +kernel

/-! ### A witness for the hypotheses of every obligation that has some -/

theorem witness_DecodeEncodeRoundTrip : (Instr.hostWr 0x3F (.u32 1)).wf = true ∧ (Instr.illegal 8).wf = true ∧
    (Instr.illegal 0xFFFFFFFF).wf = true ∧ Instr.hint.wf = true ∧ (Instr.hostWr 0x12 (.oaddr none)).wf = true := by decide

theorem witness_EncodeDecodeRoundTrip : decode (.command 0x00000008) = .ok (.illegal 0x00000008) ∧
    decode (.bus 0xBF (some (.u32 1))) = .ok (.hostWr 0x3F (.u32 1)) ∧ decode (.bus 0x3F none) = .ok (.hostRd 0x3F) := by
  decide

theorem witness_OpcodeMapOfCommandWords : 8 ≤ (0x00000008 : U32).toNat ∧ 8 ≤ (0xFFFFFFFF : U32).toNat := by decide

theorem witness_ReservedHeaderBitIsRefused :
    { State.reset with agenda := [.raw (.bus 0x40 none)] }.agenda = .raw (.bus 0x40 none) :: [] ∧
    (0x40 : BitVec 8).getLsbD 6 = true ∧ (0xFF : BitVec 8).getLsbD 6 = true := by decide

theorem witness_WrongValueTypeIsRefused : (BusValue.u32 5).type ≠ busType 0x02 ∧ (BusValue.u256 5).type ≠ busType 0x3F ∧
    { State.reset with agenda := [.raw (.bus (busHeader true 0x02) (some (.u32 5)))] }.agenda =
      .raw (.bus (busHeader true 0x02) (some (.u32 5))) :: [] := by decide

theorem witness_StepRunsDecodedInstruction :
    { State.reset with agenda := [.raw (.command 6)] }.agenda = .raw (.command 6) :: [] ∧
    decode (.command 6) = .ok .derive ∧ decodeTableWord 32 6 = some .derive := by decide

theorem witness_IdleMachineKeepsItsState : (withIn0 5).agenda = [] ∧ (withIn0 5).busy = false := by decide

theorem witness_WellFormedInstructionsAnswerNext : (Instr.hostWr 0x12 (.oaddr none)).wf = true := by decide

theorem witness_WritesWhileBusyOnlySetOvr : deriving0.busy = true ∧ (Instr.hostWr 0x02 (.u256 7)).wf = true ∧
    ∀ idx, Instr.hostWr 0x02 (.u256 7) ≠ .hostRd idx := by
  refine ⟨by decide, by decide, fun idx h => by cases h⟩

theorem witness_ClearResult : (withIn0 3).busy = false ∧ deriving0.busy = true := by decide

theorem witness_IllegalWordResult : State.reset.busy = false ∧ 8 ≤ ((0x00000008 : U32).extractLsb' 0 8).toNat ∧
    ((0x00000100 : U32).extractLsb' 8 24).toNat ≠ 0 := by decide

theorem witness_ModexpResult : (withIn0 P).busy = false := by decide

theorem square_four : Square 4 := ⟨2, by decide, by decide⟩
theorem not_square_three : ¬ Square 3 := not_square_of_isQr (by decide) (by decide +kernel)

/-- The three clauses, at P, at 0 and P − 1, and at 3. -/
theorem witness_QrtestResult : (withIn0 P).busy = false ∧ P ≤ (withIn0 P).in0.toNat ∧
    ((withIn0 (P - 1)).in0.toNat < P ∧ Square (withIn0 (P - 1)).in0.toNat) ∧
    ((withIn0 0).in0.toNat < P ∧ Square (withIn0 0).in0.toNat) ∧
    ((withIn0 3).in0.toNat < P ∧ ¬ Square (withIn0 3).in0.toNat) :=
  ⟨by decide, by decide, ⟨by decide, square_of_isQr (by decide) (by decide +kernel)⟩,
    ⟨by decide, square_of_isQr (by decide) (by decide)⟩, by decide, not_square_three⟩

theorem witness_SqrtResult : (withIn0 P).busy = false ∧ P ≤ (withIn0 P).in0.toNat ∧
    ((withIn0 3).in0.toNat < P ∧ ¬ Square (withIn0 3).in0.toNat) ∧
    ((withIn0 (P - 1)).in0.toNat < P ∧ Square (withIn0 (P - 1)).in0.toNat) :=
  ⟨by decide, by decide, ⟨by decide, not_square_three⟩, by decide, square_of_isQr (by decide) (by decide +kernel)⟩

theorem witness_CrhsResult : (withIn0 (2 ^ 256 - 1)).busy = false := by decide

theorem witness_SerializeResult : (withIn0 P).busy = false ∧
    (∃ v ∈ [(withIn0 P).in0, (withIn0 P).in1, (withIn0 P).in2, (withIn0 P).in3, (withIn0 P).in4], P ≤ v.toNat) ∧
    (∀ v ∈ [(withIn0 (P - 1)).in0, (withIn0 (P - 1)).in1, (withIn0 (P - 1)).in2, (withIn0 (P - 1)).in3,
      (withIn0 (P - 1)).in4], v.toNat < P) ∧
    [(withIn0 7).in0, (withIn0 7).in1, (withIn0 7).in2, (withIn0 7).in3, (withIn0 7).in4][0]? = some 7 := by
  refine ⟨by decide, ⟨(withIn0 P).in0, List.mem_cons_self, by decide⟩, ?_, rfl⟩
  simp only [List.forall_mem_cons]
  exact ⟨by decide, by decide, by decide, by decide, by decide, by simp⟩

theorem witness_DeriveWithoutSeed : State.reset.busy = false ∧ State.reset.status.seedValid = false := by decide

/-- Index 0, with V-D1's seed. -/
theorem witness_DeriveResult : (loaded 0 0 0 0 0).busy = false ∧ (loaded 0 0 0 0 0).status.seedValid = true ∧
    Square (rhsOf sha256 (sha256 (loaded 0 0 0 0 0).seedBuf.val) 0) ∧
    ∀ j < 0, ¬ Square (rhsOf sha256 (sha256 (loaded 0 0 0 0 0).seedBuf.val) j) :=
  ⟨by decide, by decide, ⟨192130572894942548215483570268085799689093714195260457712799419315881561253, by decide,
    by decide +kernel⟩, by omega⟩

/-- Index 1, with V-D2's seed: index 0 is rejected. -/
theorem witness_DeriveResult_second : (loaded 1 2 3 4 5).status.seedValid = true ∧ 1 < 100 ∧
    Square (rhsOf sha256 (sha256 (loaded 1 2 3 4 5).seedBuf.val) 1) ∧
    ∀ j < 1, ¬ Square (rhsOf sha256 (sha256 (loaded 1 2 3 4 5).seedBuf.val) j) := by
  refine ⟨by decide, by decide,
    ⟨254673115464245629939882614303676959050576328407179726912810354072993383456, by decide, by decide +kernel⟩, ?_⟩
  intro j hj
  obtain rfl : j = 0 := by omega
  exact not_square_of_isQr (Nat.mod_lt _ P_pos) (by decide +kernel)

theorem not_square_beta : ¬ Square BETA := not_square_of_isQr (by decide) (by decide +kernel)

theorem witness_DeriveExhaustion : (loaded 1 2 3 4 5).busy = false ∧ (loaded 1 2 3 4 5).status.seedValid = true ∧
    ∀ j < 100, ¬ Square (rhsOf zeroHash (zeroHash (loaded 1 2 3 4 5).seedBuf.val) j) := by
  refine ⟨by decide, by decide, fun j _ => ?_⟩
  have : rhsOf zeroHash (zeroHash (loaded 1 2 3 4 5).seedBuf.val) j = BETA := by
    have h : candidateOf zeroHash (zeroHash (loaded 1 2 3 4 5).seedBuf.val) j = 0 := by
      rw [candidateOf, zeroHash]; decide
    rw [rhsOf, h]; decide
  rw [this]
  exact not_square_beta

theorem point_of_seed_one_to_five : randomEcPoint sha256 inputs0.bundle = some pointD2 := by decide +kernel

theorem witness_HintResult : hint1.busy = false ∧ hint1.addrP = some aP ∧ hint1.addrQ = some aQ ∧
    hint1.addrM = some aM ∧ hint1.addrS = some aS ∧
    hint1.vm.read aP = .int inputs0.px ∧ hint1.vm.read (hint1.vm.addrAdd aP 1) = .int inputs0.py ∧
    hint1.vm.read aQ = .int inputs0.qx ∧ hint1.vm.read (hint1.vm.addrAdd aQ 1) = .int inputs0.qy ∧
    hint1.vm.read aM = .int inputs0.m ∧ randomEcPoint sha256 inputs0.bundle = some pointD2 ∧
    hint1.vm.admits aS pointD2.x = true ∧ hint1.vm.admits (hint1.vm.addrAdd aS 1) pointD2.y = true :=
  ⟨by decide, rfl, rfl, rfl, rfl, by decide, by decide, by decide, by decide, by decide, point_of_seed_one_to_five,
    by decide, by decide⟩

/-- A memory in which nothing is known of `addr_add`, with 0 in every cell that a HINT on `aP`, `aQ` and `aM` reads. -/
def openMem : Memory :=
  [aP, Config.addrAdd aP 1, aQ, Config.addrAdd aQ 1, aM].foldl (fun m a => m.set a (.int (felt 0)))
    { cells := [], policy := .always, offsets := [] }

theorem openMem_read (l : List Addr) (m : Memory) (a : Addr) (h : a ∈ l ∨ m.read a = .int (felt 0)) :
    (l.foldl (fun m a => m.set a (.int (felt 0))) m).read a = .int (felt 0) := by
  induction l generalizing m with
  | nil => simpa using h
  | cons b l ih =>
    apply ih
    rw [Memory.read_set_int]
    by_cases hb : a = b
    · exact .inr (if_pos hb)
    · rw [if_neg hb]; simpa [hb] using h

/-- The hypotheses again, with `addr_add` left open: nothing need be known of it. -/
theorem witness_HintResult_parameter : ∃ pt,
    openMem.read aP = .int (felt 0) ∧ openMem.read (openMem.addrAdd aP 1) = .int (felt 0) ∧
    openMem.read aQ = .int (felt 0) ∧ openMem.read (openMem.addrAdd aQ 1) = .int (felt 0) ∧
    openMem.read aM = .int (felt 0) ∧
    randomEcPoint sha256 (Inputs.bundle ⟨felt 0, felt 0, felt 0, felt 0, felt 0⟩) = some pt ∧
    openMem.admits aS pt.x = true ∧ openMem.admits (openMem.addrAdd aS 1) pt.y = true := by
  obtain ⟨pt, hpt⟩ := Option.isSome_iff_exists.1
    (show (randomEcPoint sha256 (Inputs.bundle ⟨felt 0, felt 0, felt 0, felt 0, felt 0⟩)).isSome = true by decide +kernel)
  refine ⟨pt, ?_, ?_, ?_, ?_, ?_, hpt, rfl, rfl⟩
  all_goals exact openMem_read _ _ _ (.inl (by simp [Memory.addrAdd, show openMem.offsets = [] from rfl]))

/-- A cell that holds no integer. -/
theorem not_int_of {c : VmCell} (h : c = .unset ∨ ∃ a, c = .addr a) : ∀ v, c ≠ .int v := by
  rintro v rfl
  rcases h with h | ⟨a, h⟩ <;> cases h

/-- One state for each clause: no address; then, each with all before it readable, an unreadable p.x, p.y, q.x, q.y, m. -/
theorem witness_HintInputErrors : State.reset.busy = false ∧ State.reset.addrP = none ∧
    (∀ v, (Memory.set (mem0 (.int (felt 2)) .writeOnce) aP .unset).read aP ≠ .int v) ∧
    (∀ v, (mem0 (.addr aQ) .writeOnce).read ((mem0 (.addr aQ) .writeOnce).addrAdd aP 1) ≠ .int v) ∧
    (∀ v, (Memory.set hint1.vm aQ (.addr aP)).read aQ ≠ .int v) ∧
    (∀ v, (Memory.set hint1.vm aQ1 .unset).read ((Memory.set hint1.vm aQ1 .unset).addrAdd aQ 1) ≠ .int v) ∧
    (∀ v, (Memory.set hint1.vm aM (.addr aS)).read aM ≠ .int v) ∧
    hint1.vm.read aP = .int (felt 1) ∧ hint1.vm.read (hint1.vm.addrAdd aP 1) = .int (felt 2) ∧
    (Memory.set hint1.vm aM (.addr aS)).read aQ = .int (felt 4) ∧
    (Memory.set hint1.vm aM (.addr aS)).read ((Memory.set hint1.vm aM (.addr aS)).addrAdd aQ 1) = .int (felt 5) := by
  refine ⟨by decide, rfl, not_int_of ?_, not_int_of ?_, not_int_of ?_, not_int_of ?_, not_int_of ?_, ?_, ?_, ?_, ?_⟩
  · left; decide
  · right; exact ⟨aQ, by decide⟩
  · right; exact ⟨aP, by decide⟩
  · left; decide
  · right; exact ⟨aS, by decide⟩
  all_goals decide

/-- The derivation is exhausted with the hash of V-D7; the VM rejects the write when AS names written cells (V-H2). -/
theorem witness_HintLateErrors : randomEcPoint zeroHash inputs0.bundle = none ∧
    randomEcPoint sha256 inputs0.bundle = some pointD2 ∧
    (hintStart hint1.vm aP).addrS = some aP ∧ (hintStart hint1.vm aP).busy = false ∧
    (hintStart hint1.vm aP).vm.admits aP pointD2.x = false :=
  ⟨by decide +kernel, point_of_seed_one_to_five, rfl, by decide, by decide⟩

/-- Both values of BUSY, the boundary indices of the read-only and reserved ranges, a word that runs, 0, and 8. -/
theorem witness_HostWriteResult : State.reset.busy = false ∧ deriving0.busy = true ∧ (BusValue.u256 9).type = busType 0x07 ∧
    (BusValue.u256 9).type = busType 0x0E ∧ (BusValue.u32 9).type = busType 0x01 ∧
    (BusValue.u32 9).type = busType 0x13 ∧ (BusValue.u32 9).type = busType 0x3F ∧
    (7 : U32) = Op.hint.word ∧ 8 ≤ (8 : U32).toNat := by decide

/-- Each clause at the ends of its range. -/
theorem witness_HostReadResult :
    [BusValue.u32 State.reset.ctrl, .u32 State.reset.statusWord, .u256 State.reset.in0, .u256 State.reset.in1,
      .u256 State.reset.in2, .u256 State.reset.in3, .u256 State.reset.in4][(0x06 : BitVec 6).toNat]? = some (.u256 0) ∧
    [BusValue.oaddr State.reset.addrP, .oaddr State.reset.addrQ, .oaddr State.reset.addrM,
      .oaddr State.reset.addrS][(0x12 : BitVec 6).toNat - 0x0F]? = some (.oaddr none) ∧
    0x13 ≤ (0x13 : BitVec 6).toNat ∧ State.reset.busy = false ∧
    [State.reset.out0, State.reset.out1, State.reset.hseed, seedView State.reset.seedBuf 0,
      seedView State.reset.seedBuf 1, seedView State.reset.seedBuf 2, seedView State.reset.seedBuf 3,
      seedView State.reset.seedBuf 4][(0x0E : BitVec 6).toNat - 0x07]? = some 0 ∧
    deriving0.busy = true ∧ 0x07 ≤ (0x07 : BitVec 6).toNat ∧ (0x0E : BitVec 6).toNat ≤ 0x0E := by decide +kernel

theorem witness_ErrorsArePrecise : (∀ idx v, Instr.qrtest ≠ .hostWr idx v) ∧ (∀ idx, Instr.qrtest ≠ .hostRd idx) ∧
    (withIn0 P).busy = false ∧
    ∃ t, exec .qrtest (withIn0 P) = .next t ∧ t.status.err = true :=
  ⟨fun _ _ h => (by cases h), fun _ h => (by cases h), by decide, _, rfl, by decide +kernel⟩

/-- The views of a zero seed buffer. -/
theorem zero_seed_felts : ∀ k < 5, (seedView (loaded 0 0 0 0 0).seedBuf k).toNat < P := by decide +kernel

/-- A DERIVE in progress meets the invariant. -/
theorem deriving0_inv : deriving0.Inv where
  vmCanonical := by decide
  doneErrApart := by decide
  busyQuiet := by decide
  codeIffErr := by decide
  codeInTable := by decide
  memberInfo := by decide
  iterRange := by decide
  iterExhausted := by decide
  iterZero := by decide
  out0Felt := by decide
  out1Felt := by decide
  seedUnloaded := by decide
  seedFelts := zero_seed_felts
  ctrlRuns := by rintro op h; obtain rfl := Option.some.inj h; rfl
  deriveLoaded := fun _ _ _ => rfl
  hintAddressed := by decide
  counterBound := by decide
  counterRange := fun _ _ => by decide
  counterExhausted := by rintro r h; cases h
  pendingAccepted := by intro h; cases h

/-- A DERIVE whose candidates are all rejected. -/
def exhausted : State := { deriving0 with fsm := .fail .derive, icnt := 100 }

theorem exhausted_inv : exhausted.Inv :=
  { deriving0_inv with
    busyQuiet := by decide
    ctrlRuns := by rintro op h; obtain rfl := Option.some.inj h; rfl
    deriveLoaded := fun _ _ _ => rfl
    hintAddressed := by decide
    counterBound := by decide
    counterRange := by rintro r (h | h) <;> cases h
    counterExhausted := fun _ _ => by decide
    pendingAccepted := by intro h; cases h }

theorem witness_EngineErrorsArePrecise : exhausted.Inv ∧ exhausted.busy = true ∧
    (engineStep exhausted).status.err = true := ⟨exhausted_inv, by decide, by decide +kernel⟩

theorem witness_OnlyHintWritesVmMemory : Instr.clear ≠ .hint ∧ (∃ t, exec .clear hint1 = .next t) ∧
    (∃ t, exec .hint hint1 = .next t) ∧ hint1.addrS = some aS ∧ aP ≠ aS ∧ aP ≠ hint1.vm.addrAdd aS 1 :=
  ⟨by decide, ⟨_, rfl⟩, ⟨_, rfl⟩, rfl, by decide, by decide⟩

/-- Both cells free, and one cell taken. -/
theorem witness_MemWriteIsAtomic : hint1.vm.admits aS (felt 0) = true ∧ hint1.vm.admits (hint1.vm.addrAdd aS 1) (felt 0) = true ∧
    hint1.vm.admits aM (felt 0) = false ∧ hint1.vm.admits aQ1 (felt 0) = false := by decide

theorem witness_CanonicalMemoriesAreEqual : hint1.vm.wf ∧ (Memory.set hint1.vm aM (.int (felt 3))).wf ∧
    hint1.vm.policy = (Memory.set hint1.vm aM (.int (felt 3))).policy ∧
    ∀ a, hint1.vm.read a = (Memory.set hint1.vm aM (.int (felt 3))).read a := by
  refine ⟨by decide, by decide, rfl, fun a => ?_⟩
  have : Memory.set hint1.vm aM (.int (felt 3)) = hint1.vm := by decide
  rw [this]

/-- The last of HINT's cells, AS + 1, while BUSY = 1; and another cell. -/
theorem witness_HostVmWriteKeepsOffHintCells : hint1.vm.wf ∧
    { hint1 with fsm := .check, agenda := [.vmWrite aS1 .unset] }.busy = true ∧
    aS1 = hint1.vm.addrAdd aS 1 ∧ hint1.addrS = some aS ∧ hint1.busy = false ∧
    (⟨8⟩ : Addr) ∉ hint1.hintCells := by decide

theorem witness_DerivedPointIsOnCurve : (loaded 0 0 0 0 0).busy = false ∧
    ∃ t, exec .derive (loaded 0 0 0 0 0) = .next t ∧ t.status.done = true :=
  ⟨by decide, _, rfl, by decide +kernel⟩

theorem witness_SignBitFlipsOnlyY :
    (zeroHash []).val.drop 1 = (⟨1 :: List.replicate 31 0, rfl⟩ : Bytes 32).val.drop 1 ∧
    signBit ⟨1 :: List.replicate 31 0, rfl⟩ = !signBit (zeroHash []) := by decide

theorem witness_EqualSeedsGiveEqualResults : (loaded 0 0 0 0 0).busy = false ∧
    { loaded 0 0 0 0 0 with out0 := 9, addrP := some aP }.busy = false ∧
    (loaded 0 0 0 0 0).status.seedValid = true ∧
    { loaded 0 0 0 0 0 with out0 := 9, addrP := some aP }.seedBuf = (loaded 0 0 0 0 0).seedBuf ∧
    (∃ t, exec .derive (loaded 0 0 0 0 0) = .next t) :=
  ⟨by decide, by decide, rfl, rfl, _, rfl⟩

theorem witness_DeriveRepeatsTheLastDerivation :
    (∃ t, exec .hint hint1 = .next t ∧ t.status.done = true) ∧
    ∃ t, exec .derive (loaded 0 0 0 0 0) = .next t ∧ t.status.done = true :=
  ⟨⟨_, rfl, by decide +kernel⟩, _, rfl, by decide +kernel⟩

theorem witness_PaddedEncodingOfFieldElements : P - 1 < P ∧ 2 ^ 248 - 1 < P ∧ 2 ^ 248 - 1 < 2 ^ 248 ∧ 0 < P := by decide

theorem witness_ResetInputResetsCore :
    { deriving0 with agenda := [.reset, .engine] }.agenda = .reset :: [.engine] := rfl

/-- A HINT in its WRITE step. -/
def writing : State := { hint1 with ctrl := 0x00000007, fsm := .write, agenda := [.reset] }

theorem witness_ResetLeavesBothCellsOrNeither : writing.agenda = .reset :: [] ∧ (∃ t, step writing = .next t) ∧
    writing.addrS = some aS ∧ deriving0.fsm ≠ .write := ⟨rfl, ⟨_, rfl⟩, rfl, by decide⟩

theorem witness_StepKeepsInvariant : deriving0.Inv ∧ ∃ t, step deriving0 = .next t := ⟨deriving0_inv, _, rfl⟩

/-- The state after V-D1's DERIVE shows a point of the curve. -/
def derived : State :=
  { loaded 0 0 0 0 0 with
    ctrl := 0x00000006
    out0 := 2480822187915755705361311456038382415646830363656585234165421059092188232567
    out1 := 3426372215771188665481839212826984305934013501136336242260292636819990459228
    status := { Status.zero with done := true, seedValid := true, sign := true } }

theorem derived_inv : derived.Inv :=
  { deriving0_inv with
    doneErrApart := by decide
    busyQuiet := by decide
    iterZero := by decide
    out0Felt := by decide
    out1Felt := by decide
    ctrlRuns := by intro op h; cases h
    deriveLoaded := fun _ _ _ => rfl
    hintAddressed := by decide
    counterRange := by rintro r (h | h) <;> cases h
    counterExhausted := by rintro r h; cases h
    pendingAccepted := by intro h; cases h }

theorem derived_on_curve : derived.out1.toNat * derived.out1.toNat % P =
    (derived.out0.toNat ^ 3 + derived.out0.toNat + BETA) % P := by decide +kernel

theorem witness_StepKeepsCurvePoint : derived.Inv ∧ derived.status.done = true ∧ derived.ctrl = Op.derive.word ∧
    derived.ShowsCurvePoint ∧ ∃ t, step derived = .next t :=
  ⟨derived_inv, rfl, rfl, fun _ _ => derived_on_curve, _, rfl⟩

/-- A write to the last index while BUSY = 1. -/
theorem witness_OvrIsSetByWritesWhileBusy : deriving0.busy = true ∧ (BusValue.u32 1).type = busType 0x3F ∧
    { deriving0 with agenda := [.raw (.bus (busHeader true 0x3F) (some (.u32 1)))] }.agenda =
      .raw (.bus (busHeader true 0x3F) (some (.u32 1))) :: [] := ⟨rfl, rfl, rfl⟩

/-- OVR cleared by a CLEAR word, by a CTRL write of 0, and by reset. -/
theorem witness_OvrIsSetByWritesWhileBusyAndCleared :
    ∀ turn ∈ [Turn.raw (.command 0), .raw (.bus 0x80 (some (.u32 0))), .reset],
      ∃ t, step { State.reset with status := { Status.zero with ovr := true }, agenda := [turn] } = .next t ∧
        t.status.ovr = false := by
  intro turn h
  simp only [List.mem_cons, List.not_mem_nil, or_false] at h
  rcases h with rfl | rfl | rfl
  · exact ⟨_, rfl, rfl⟩
  · exact ⟨_, rfl, rfl⟩
  · exact ⟨_, rfl, rfl⟩

/-- SEED_VALID cleared by reset, and set by a SERIALIZE. -/
theorem witness_SeedValidIsClearedOnlyByReset :
    (∃ t, step { deriving0 with agenda := [.reset] } = .next t ∧ t.status.seedValid = false) ∧
    ∃ t, step { State.reset with agenda := [.raw (.command 5)] } = .next t ∧ t.status.seedValid = true :=
  ⟨⟨_, rfl, rfl⟩, _, rfl, by decide +kernel⟩

theorem witness_NothingVisibleChangesBeforeTheCommit :
    (engineStep { hint1 with ctrl := 0x00000007, fsm := .check }).busy = true := by decide +kernel

/-- A DERIVE in its loop; and a HINT about to read `q.y`, with another content of `p.y`, which it does not read again. -/
theorem witness_EngineUsesVmMemoryOnlyInReadAndWritePhases : (∀ k, deriving0.fsm ≠ .read k) ∧ deriving0.fsm ≠ .write ∧
    ({ hint1 with fsm := .read 3 } : State).readTarget 3 = some (aQ1, .noMember .q .y) ∧
    (mem0 .unset .always).offsets = hint1.vm.offsets ∧ (mem0 .unset .always).read aQ1 = hint1.vm.read aQ1 := by decide

/-- A command word, a write to the last index and a read, while BUSY = 1. -/
theorem witness_HostTransactionsDoNotDisturbTheEngine : deriving0.busy = true ∧ Instr.clear.wf = true ∧
    (Instr.hostWr 0x3F (.u32 1)).wf = true ∧ ∀ idx, Instr.hostWr 0x3F (.u32 1) ≠ .hostRd idx :=
  ⟨by decide, by decide, by decide, fun idx h => by cases h⟩

theorem witness_PhasesAgreeWithWholeCommand : hint1.busy = false := by decide

theorem witness_CommandsCompleteInBoundedSteps : deriving0.agenda = [] ∧ deriving0.busy = true := by decide

/-- A read of STATUS while BUSY = 1, a write while BUSY = 0, and a reset. -/
theorem witness_HazardFreeTurnsKeepOvrClearAndReadExactly :
    (Turn.raw (.bus 0x01 none)).keepsHazards deriving0 = true ∧
    (Turn.raw (.bus 0x82 (some (.u256 7)))).keepsHazards State.reset = true ∧
    Turn.reset.keepsHazards deriving0 = true ∧ (0x01 : BitVec 8) = busHeader false 0x01 ∧
    (∃ t, step { deriving0 with agenda := [.raw (.bus 0x01 none)] } = .next t) ∧ deriving0.status.ovr = false :=
  ⟨by decide, by decide, rfl, by decide, ⟨_, rfl⟩, rfl⟩

end Sys2Proof.Tests
end

section
/-!
PROOFS. The hard-wired and the derived constants (spec/00_scope.md R6 to R9).
-/

namespace Sys2Proof.Machine

open Sys2Proof.Config

/-- The squares below P are what Euler's criterion, as the engine computes it, accepts (R82). -/
theorem square_iff_isQr {a : Nat} (ha : a < P) : Square a ↔ isQr a = true := (isQr_iff a ha).symm

theorem BETA_lt_P : BETA < P := by decide

theorem not_square_nonResidue : ¬ Square nonResidue := by
  rw [square_iff_isQr (by decide)]
  decide +kernel

theorem not_square_BETA : ¬ Square BETA := by
  rw [square_iff_isQr BETA_lt_P]
  decide +kernel

theorem square_of_lt_nonResidue {a : Nat} (ha : a < nonResidue) : Square a := by
  have hsmall : ∀ b < nonResidue, isQr b = true := by decide +kernel
  exact (square_iff_isQr (Nat.lt_trans ha (by decide))).2 (hsmall a ha)

theorem BETA_pow_HALF : BETA ^ HALF % P = P - 1 := by
  rw [← modexp_eq]
  decide +kernel

/-- At x-coordinate 0 the curve asks for a root of BETA. -/
theorem not_onCurve_zero (y : Nat) : ¬ OnCurve 0 y := by
  intro h
  have hroot : y % P * (y % P) % P = BETA := by
    rw [← Nat.mul_mod, h, zero_pow three_ne_zero, Nat.zero_add, Nat.mod_eq_of_lt BETA_lt_P]
  exact not_square_BETA ⟨y % P, Nat.mod_lt _ P_pos, hroot⟩

/-- Settles O38: the numerals by evaluation, the primality by the certificate `P_prime`. -/
theorem hardwiredConstants : Obligations.HardwiredConstants := by
  refine ⟨?_, rfl, rfl, ?_, ?_, P_prime, rfl, rfl, rfl, ?_, ?_, BETA_lt_P⟩
  all_goals decide

/-- Settles O39: the numerals by evaluation, the residues by Euler's criterion. -/
theorem derivedConstants : Obligations.DerivedConstants := by
  refine ⟨?_, rfl, rfl, ?_, ?_, rfl, ?_, rfl, rfl, not_square_nonResidue, fun _ => square_of_lt_nonResidue, ?_,
    not_square_BETA, BETA_pow_HALF, not_onCurve_zero⟩
  all_goals decide

end Sys2Proof.Machine
end

section
/-!
PROOFS. What each engine phase does (spec/10_state.md R39, R40, spec/41_point_derivation.md R102, R103), the bound on the
phases a command has left, and runs of the engine alone.
-/

namespace Sys2Proof.Machine

open Sys2Proof.Config

/-! ### The phases -/

theorem engineStepWith_idle {H : Hash} {s : State} (h : s.fsm = .idle) : engineStepWith H s = s := by
  simp [engineStepWith, h]

theorem engineStepWith_exec {H : Hash} {s : State} {p : Primitive} (h : s.fsm = .exec p) :
    engineStepWith H s = execPhase p s := by simp [engineStepWith, h]

theorem engineStepWith_seedHash {H : Hash} {s : State} {r : Requester} (h : s.fsm = .seedHash r) :
    engineStepWith H s = seedHashPhase H r s := by simp [engineStepWith, h]

theorem engineStepWith_attempt {H : Hash} {s : State} {r : Requester} (h : s.fsm = .attempt r) :
    engineStepWith H s = attemptPhase H r s := by simp [engineStepWith, h]

theorem engineStepWith_fail {H : Hash} {s : State} {r : Requester} (h : s.fsm = .fail r) :
    engineStepWith H s = raiseNotOnCurve s := by simp [engineStepWith, h]

theorem engineStepWith_check {H : Hash} {s : State} (h : s.fsm = .check) : engineStepWith H s = checkPhase s := by
  simp [engineStepWith, h]

theorem engineStepWith_read {H : Hash} {s : State} {k : Fin 5} (h : s.fsm = .read k) :
    engineStepWith H s = readPhase k s := by simp [engineStepWith, h]

theorem engineStepWith_write {H : Hash} {s : State} (h : s.fsm = .write) : engineStepWith H s = writePhase s := by
  simp [engineStepWith, h]

/-- The body of a single-phase command ends in an error, or commits to OUT0 or SEEDBUF and completes (R88 to R92). -/
theorem execPhase_cases (p : Primitive) (s : State) :
    (∃ e, execPhase p s = raise e s) ∨ (∃ n, execPhase p s = completeOk (commitOut0 n s)) ∨
      ∃ buf, execPhase p s = completeOk (commitSeed buf s) := by
  cases p with
  | modexp => exact .inr (.inl ⟨_, rfl⟩)
  | crhs => exact .inr (.inl ⟨_, rfl⟩)
  | qrtest =>
    simp only [execPhase, qrtestBody]
    split
    · exact .inl ⟨_, rfl⟩
    · exact .inr (.inl ⟨_, rfl⟩)
  | sqrt =>
    simp only [execPhase, sqrtBody]
    split
    · exact .inl ⟨_, rfl⟩
    · split
      · exact .inr (.inl ⟨_, rfl⟩)
      · exact .inl ⟨_, rfl⟩
  | serialize =>
    simp only [execPhase, serializeBody]
    split
    · exact .inl ⟨_, rfl⟩
    · exact .inr (.inr ⟨_, rfl⟩)

/-- A single-phase command does not look at the engine's control state. -/
theorem execPhase_fsm (p : Primitive) (f : Fsm) (s : State) : execPhase p { s with fsm := f } = execPhase p s := by
  cases p with
  | modexp => rfl
  | crhs => rfl
  | qrtest => simp only [execPhase, qrtestBody]; split <;> rfl
  | sqrt => simp only [execPhase, sqrtBody]; split <;> [rfl; split <;> rfl]
  | serialize => simp only [execPhase, serializeBody]; split <;> rfl

theorem checkPhase_cases (s : State) :
    checkPhase s = raise .addrUnset s ∨ checkPhase s = { s with fsm := .read 0 } := by
  unfold checkPhase
  split
  · exact .inl rfl
  · exact .inr rfl

theorem readPhase_cases (k : Fin 5) (s : State) :
    (∃ e, readPhase k s = raise e s) ∨
      ∃ v, readPhase k s = { s with work := { s.work with inputs := s.work.inputs.put k v }, fsm := afterRead k } := by
  unfold readPhase
  split
  · exact .inl ⟨_, rfl⟩
  · split
    · exact .inl ⟨_, rfl⟩
    · exact .inr ⟨_, rfl⟩

/-- The state with the seed digest in the working state and the counter at 0 (R102). -/
def State.holdDigest (H : Hash) (r : Requester) (s : State) : State :=
  { s with work := { s.work with hd := H (s.seedOf r).val }, icnt := 0, fsm := .attempt r }

theorem seedHashPhase_cases (H : Hash) (r : Requester) (s : State) :
    (r = .derive ∧ s.status.seedValid = false ∧ seedHashPhase H r s = raise .seedInvalid s) ∨
      seedHashPhase H r s = s.holdDigest H r := by
  unfold seedHashPhase
  split
  · rename_i h; exact .inl ⟨h.1, h.2, rfl⟩
  · exact .inr rfl

/-- The candidate that phase TRY(icnt) draws (R97). -/
def State.nextCandidate (H : Hash) (s : State) : Nat := candidate H s.work.hd s.icnt.toNat

/-- The state with an accepted candidate in the working state (R41, R102). -/
def State.holdAccepted (H : Hash) (s : State) : State :=
  { s with
    work := { s.work with
      xraw := BitVec.ofNat 256 (s.nextCandidate H)
      rhs := felt (curveRhs (s.nextCandidate H))
      y0 := felt (sqrtC (curveRhs (s.nextCandidate H))) } }

/-- The state with a rejected candidate in the working state, and the counter advanced (R40, R102). -/
def State.holdRejected (H : Hash) (r : Requester) (s : State) : State :=
  { s with
    work := { s.work with
      xraw := BitVec.ofNat 256 (s.nextCandidate H)
      rhs := felt (curveRhs (s.nextCandidate H)) }
    icnt := s.icnt + 1
    fsm := if s.icnt.toNat < nIter - 1 then .attempt r else .fail r }

theorem attemptPhase_derive_of_accepted {H : Hash} {s : State} (h : isQr (curveRhs (s.nextCandidate H)) = true) :
    attemptPhase H .derive s = completeOk (commitPoint (s.holdAccepted H).pendingPoint (s.holdAccepted H)) := by
  unfold State.nextCandidate at h
  simp [attemptPhase, h, State.holdAccepted, State.nextCandidate]

theorem attemptPhase_hint_of_accepted {H : Hash} {s : State} (h : isQr (curveRhs (s.nextCandidate H)) = true) :
    attemptPhase H .hint s = { s.holdAccepted H with fsm := .write } := by
  unfold State.nextCandidate at h
  simp [attemptPhase, h, State.holdAccepted, State.nextCandidate]

theorem attemptPhase_of_rejected {H : Hash} {r : Requester} {s : State}
    (h : isQr (curveRhs (s.nextCandidate H)) = false) : attemptPhase H r s = s.holdRejected H r := by
  unfold State.nextCandidate at h
  simp [attemptPhase, h, State.holdRejected, State.nextCandidate]

theorem attemptPhase_cases (H : Hash) (r : Requester) (s : State) :
    attemptPhase H r s = completeOk (commitPoint (s.holdAccepted H).pendingPoint (s.holdAccepted H)) ∨
      attemptPhase H r s = { s.holdAccepted H with fsm := .write } ∨ attemptPhase H r s = s.holdRejected H r := by
  cases h : isQr (curveRhs (s.nextCandidate H)) with
  | false => exact .inr (.inr (attemptPhase_of_rejected h))
  | true =>
    cases r with
    | derive => exact .inl (attemptPhase_derive_of_accepted h)
    | hint => exact .inr (.inl (attemptPhase_hint_of_accepted h))

theorem holdRejected_fsm_of_lt {H : Hash} {r : Requester} {s : State} (h : s.icnt.toNat < nIter - 1) :
    (s.holdRejected H r).fsm = .attempt r := if_pos h

theorem holdRejected_fsm_of_le {H : Hash} {r : Requester} {s : State} (h : nIter - 1 ≤ s.icnt.toNat) :
    (s.holdRejected H r).fsm = .fail r := if_neg (Nat.not_lt.2 h)

/-- Below 100 the 7-bit counter does not wrap (R40). -/
theorem holdRejected_icnt_toNat {H : Hash} {r : Requester} {s : State} (h : s.icnt.toNat < nIter) :
    (s.holdRejected H r).icnt.toNat = s.icnt.toNat + 1 := by
  change (s.icnt + 1).toNat = s.icnt.toNat + 1
  simp only [nIter] at h
  bv_omega

theorem writePhase_cases (s : State) :
    (∃ e, writePhase s = raise e s) ∨
      ∃ p buf vm, writePhase s = completeOk (commitPoint p (commitSeed buf { s with vm := vm })) := by
  unfold writePhase
  split
  · exact .inl ⟨_, rfl⟩
  · rename_i dest _
    rcases finishHint_cases dest s.work.inputs.bundle s.pendingPoint s with ⟨_, h⟩ | ⟨vm, _, h⟩
    · exact .inl ⟨_, h⟩
    · exact .inr ⟨_, _, vm, h⟩

/-! ### The engine leaves the agenda alone -/

theorem engineStepWith_agenda (H : Hash) (s : State) : (engineStepWith H s).agenda = s.agenda := by
  cases hf : s.fsm with
  | idle => rw [engineStepWith_idle hf]
  | exec p =>
    rw [engineStepWith_exec hf]
    rcases execPhase_cases p s with ⟨_, h⟩ | ⟨_, h⟩ | ⟨_, h⟩ <;> simp [h]
  | seedHash r =>
    rw [engineStepWith_seedHash hf]
    rcases seedHashPhase_cases H r s with ⟨_, _, h⟩ | h <;> simp [h, State.holdDigest]
  | attempt r =>
    rw [engineStepWith_attempt hf]
    rcases attemptPhase_cases H r s with h | h | h <;> simp [h, State.holdAccepted, State.holdRejected]
  | fail r => rw [engineStepWith_fail hf, raiseNotOnCurve_agenda]
  | check =>
    rw [engineStepWith_check hf]
    rcases checkPhase_cases s with h | h <;> simp [h]
  | read k =>
    rw [engineStepWith_read hf]
    rcases readPhase_cases k s with ⟨_, h⟩ | ⟨_, h⟩ <;> simp [h]
  | write =>
    rw [engineStepWith_write hf]
    rcases writePhase_cases s with ⟨_, h⟩ | ⟨_, _, _, h⟩ <;> simp [h]

/-! ### The phases a command has left -/

/-- A bound on the engine steps until the engine is idle: WRITE and FAIL are the last, before them stand the candidates
from the counter to 99, SEEDHASH, the five READs and CHECK (R39, R102, R107). -/
def State.phasesLeft (s : State) : Nat :=
  match s.fsm with
  | .idle => 0
  | .exec _ | .fail _ | .write => 1
  | .attempt _ => 2 + (nIter - 1 - s.icnt.toNat)
  | .seedHash _ => 102
  | .read k => 107 - k.val
  | .check => 108

theorem phasesLeft_le (s : State) : s.phasesLeft ≤ 108 := by
  unfold State.phasesLeft
  simp only [nIter]
  split <;> omega

theorem phasesLeft_of_idle {s : State} (h : s.fsm = .idle) : s.phasesLeft = 0 := by simp [State.phasesLeft, h]

theorem idle_of_phasesLeft {s : State} (h : s.phasesLeft = 0) : s.fsm = .idle := by
  unfold State.phasesLeft at h
  split at h
  · assumption
  all_goals omega

theorem phasesLeft_afterRead {s : State} {k : Fin 5} (h : s.fsm = afterRead k) : s.phasesLeft ≤ 106 - k.val := by
  fin_cases k <;> simp_all [State.phasesLeft, afterRead]

theorem phasesLeft_holdRejected (H : Hash) (r : Requester) (s : State) :
    (s.holdRejected H r).phasesLeft ≤ 1 + (nIter - 1 - s.icnt.toNat) := by
  rcases Nat.lt_or_ge s.icnt.toNat (nIter - 1) with h | h
  · have hcount := holdRejected_icnt_toNat (H := H) (r := r) (s := s) (by omega)
    simp only [State.phasesLeft, holdRejected_fsm_of_lt h, hcount]
    omega
  · simp [State.phasesLeft, holdRejected_fsm_of_le h]

/-- Every engine step uses up one of the phases left. -/
theorem phasesLeft_engineStepWith (H : Hash) (s : State) : (engineStepWith H s).phasesLeft ≤ s.phasesLeft - 1 := by
  have ended : ∀ {t : State} {n : Nat}, t.fsm = .idle → t.phasesLeft ≤ n := fun h => by
    rw [phasesLeft_of_idle h]; exact Nat.zero_le _
  cases hf : s.fsm with
  | idle => rw [engineStepWith_idle hf]; exact ended hf
  | exec p =>
    rw [engineStepWith_exec hf]
    rcases execPhase_cases p s with ⟨_, h⟩ | ⟨_, h⟩ | ⟨_, h⟩ <;> exact ended (by simp [h])
  | seedHash r =>
    rw [engineStepWith_seedHash hf]
    rcases seedHashPhase_cases H r s with ⟨_, _, h⟩ | h
    · exact ended (by simp [h])
    · simp [h, State.phasesLeft, State.holdDigest, hf, nIter]
  | attempt r =>
    have hs : s.phasesLeft - 1 = 1 + (nIter - 1 - s.icnt.toNat) := by simp only [State.phasesLeft, hf]; omega
    rw [engineStepWith_attempt hf, hs]
    rcases attemptPhase_cases H r s with h | h | h
    · exact ended (by simp [h])
    · simp [h, State.phasesLeft]
    · rw [h]; exact phasesLeft_holdRejected H r s
  | fail r => rw [engineStepWith_fail hf]; exact ended (raiseNotOnCurve_fsm s)
  | check =>
    rw [engineStepWith_check hf]
    rcases checkPhase_cases s with h | h
    · exact ended (by simp [h])
    · simp [h, State.phasesLeft, hf]
  | read k =>
    have hs : s.phasesLeft - 1 = 106 - k.val := by simp only [State.phasesLeft, hf]; omega
    rw [engineStepWith_read hf, hs]
    rcases readPhase_cases k s with ⟨_, h⟩ | ⟨_, h⟩
    · exact ended (by simp [h])
    · exact phasesLeft_afterRead (by simp [h])
  | write =>
    rw [engineStepWith_write hf]
    rcases writePhase_cases s with ⟨_, h⟩ | ⟨_, _, _, h⟩ <;> exact ended (by simp [h])

/-! ### The engine running alone -/

theorem phasesLeft_iterate (H : Hash) (n : Nat) (s : State) :
    ((engineStepWith H)^[n] s).phasesLeft ≤ s.phasesLeft - n := by
  induction n with
  | zero => exact le_refl _
  | succ n ih =>
    rw [Function.iterate_succ_apply']
    have := phasesLeft_engineStepWith H ((engineStepWith H)^[n] s)
    omega

/-- Where the engine, left alone, takes a command in progress (R14, R145). -/
def State.toCompletion (H : Hash) (s : State) : State := (engineStepWith H)^[108] s

theorem toCompletion_fsm (H : Hash) (s : State) : (s.toCompletion H).fsm = .idle := by
  have h := phasesLeft_iterate H 108 s
  have hs := phasesLeft_le s
  exact idle_of_phasesLeft (Nat.le_zero.1 (h.trans (by omega)))

/-- The engine gets to the same end from the next state. -/
theorem toCompletion_engineStepWith (H : Hash) (s : State) :
    (engineStepWith H s).toCompletion H = s.toCompletion H :=
  calc (engineStepWith H)^[108] (engineStepWith H s)
      = engineStepWith H (s.toCompletion H) := (Function.Commute.iterate_self _ 108).eq s
    _ = s.toCompletion H := engineStepWith_idle (toCompletion_fsm H s)

theorem toCompletion_of_step {H : Hash} {s t : State} (h : engineStepWith H s = t) :
    s.toCompletion H = t.toCompletion H := by
  rw [← h, toCompletion_engineStepWith]

theorem toCompletion_of_idle {H : Hash} {s : State} (h : s.fsm = .idle) : s.toCompletion H = s :=
  Function.iterate_fixed (engineStepWith_idle h) 108

/-- A step that ends the command ends the run. -/
theorem toCompletion_of_last {H : Hash} {s t : State} (h : engineStepWith H s = t) (ht : t.fsm = .idle) :
    s.toCompletion H = t := by
  rw [toCompletion_of_step h, toCompletion_of_idle ht]

theorem run_core_succ {s t : State} (h : step s = .next t) (n : Nat) :
    Host.Core.run core (n + 1) s = Host.Core.run core n t := by
  have hcore : core.step s = .next t := h
  simp only [Host.Core.run, hcore]

/-- With no turn to come the machine's run is the engine's (notes/assumptions/5.md). -/
theorem run_core_of_agenda_nil {s : State} (h : s.agenda = []) (n : Nat) :
    Host.Core.run core n s = .next ((engineStepWith sha256)^[n] s) := by
  induction n generalizing s with
  | zero => rfl
  | succ n ih =>
    have hstep : step s = .next (engineStepWith sha256 s) := by simp [step, h, engineStep]
    rw [run_core_succ hstep, ih (by rw [engineStepWith_agenda, h]), Function.iterate_succ_apply]

/-- Settles O54: each step uses up one of the phases left, of which there are at most 108. -/
theorem commandsCompleteInBoundedSteps : Obligations.CommandsCompleteInBoundedSteps := fun s hs =>
  ⟨108, s.toCompletion sha256, le_refl _, run_core_of_agenda_nil hs 108,
    State.busy_eq_false.2 (toCompletion_fsm sha256 s)⟩

end Sys2Proof.Machine
end

section
/-!
PROOFS. A command run phase by phase ends as its pseudocode run whole (notes/assumptions/6.md). Every lemma follows the
engine from a phase to the end of the command, up to the working state (R41).
-/

namespace Sys2Proof.Machine

open Sys2Proof.Config

/-! ### The end of a derivation -/

/-- HINT's write of a derived point, to the cells of `AS` (R112). -/
def writeResult (seed : Bytes 160) (p : Point) (s : State) : State :=
  match s.addrS with
  | none => raise .addrUnset s
  | some dest => finishHint dest seed p s

theorem writePhase_eq (s : State) : writePhase s = writeResult s.work.inputs.bundle s.pendingPoint s := rfl

theorem writeResult_of_addrS {s : State} {dest : Addr} (h : s.addrS = some dest) (seed : Bytes 160) (p : Point) :
    writeResult seed p s = finishHint dest seed p s := by simp [writeResult, h]

theorem writeResult_fsm (seed : Bytes 160) (p : Point) (s : State) : (writeResult seed p s).fsm = .idle := by
  unfold writeResult
  split
  · rfl
  · rename_i dest _
    rcases finishHint_cases dest seed p s with ⟨_, h⟩ | ⟨_, _, h⟩ <;> simp [h]

theorem writeResult_forgetWork (seed : Bytes 160) (p : Point) (s : State) (wk : Work) (f : Fsm) :
    (writeResult seed p { s with work := wk, fsm := f }).forgetWork = (writeResult seed p s).forgetWork := by
  unfold writeResult
  dsimp only
  split
  · rfl
  · rename_i dest _
    unfold finishHint
    dsimp only
    split <;> rfl

/-- The end of a derivation from its result: the counter, and DERIVE's commit or HINT's write, or E_NOT_ON_CURVE (R103,
R105, R107). -/
def endDerivation (r : Requester) (seed : Bytes 160) (result : Option Point) (s : State) : State :=
  match result, r with
  | none, _ => raiseNotOnCurve (countRejected nIter s)
  | some p, .derive => completeOk (commitPoint p (countRejected p.i s))
  | some p, .hint => writeResult seed p (countRejected p.i s)

/-- The end of a derivation overwrites what the phases wrote, but for the working state. -/
theorem endDerivation_forgetWork (r : Requester) (seed : Bytes 160) (result : Option Point) (s : State) (wk : Work)
    (n : BitVec 7) (f : Fsm) :
    (endDerivation r seed result { s with work := wk, icnt := n, fsm := f }).forgetWork =
      (endDerivation r seed result s).forgetWork := by
  cases result with
  | none => rfl
  | some p =>
    cases r with
    | derive => rfl
    | hint => exact writeResult_forgetWork seed p (countRejected p.i s) wk f

theorem deriveBody_eq (H : Hash) (s : State) :
    deriveBody H s =
      if s.status.seedValid then endDerivation .derive s.seedBuf (randomEcPoint H s.seedBuf) s
      else raise .seedInvalid s := by
  unfold deriveBody
  cases randomEcPoint H s.seedBuf <;> rfl

/-! ### The sampling loop -/

/-- The point in the working state is that of the accepted candidate (R100). -/
theorem holdAccepted_pendingPoint (H : Hash) (s : State) :
    (s.holdAccepted H).pendingPoint =
      pointOf s.work.hd s.icnt.toNat (s.nextCandidate H) (sqrtC (curveRhs (s.nextCandidate H))) := by
  have hx : (BitVec.ofNat 256 (s.nextCandidate H)).toNat = s.nextCandidate H := by
    rw [BitVec.toNat_ofNat]
    exact Nat.mod_eq_of_lt (candidate_lt H s.work.hd s.icnt.toNat)
  have hy : (felt (sqrtC (curveRhs (s.nextCandidate H)))).val = sqrtC (curveRhs (s.nextCandidate H)) :=
    Nat.mod_eq_of_lt (sqrtC_lt _)
  simp only [State.pendingPoint, State.holdAccepted, pointOf, hx, hy]

theorem search_succ_of_accepted {H : Hash} {s : State} (n : Nat) (h : isQr (curveRhs (s.nextCandidate H)) = true) :
    search H s.work.hd (n + 1) s.icnt.toNat = some (s.holdAccepted H).pendingPoint := by
  rw [holdAccepted_pendingPoint]
  unfold State.nextCandidate at h ⊢
  simp [search, h]

theorem search_succ_of_rejected {H : Hash} {s : State} (n : Nat) (h : isQr (curveRhs (s.nextCandidate H)) = false) :
    search H s.work.hd (n + 1) s.icnt.toNat = search H s.work.hd n (s.icnt.toNat + 1) := by
  unfold State.nextCandidate at h
  simp [search, h]

theorem countRejected_icnt_self (s : State) : countRejected s.icnt.toNat s = s := by
  simp [countRejected]

/-- An accepted candidate ends the derivation with its point (R102, R111). -/
theorem toCompletion_of_accepted {H : Hash} {r : Requester} {s : State} (hf : s.fsm = .attempt r)
    (hq : isQr (curveRhs (s.nextCandidate H)) = true) :
    (s.toCompletion H).forgetWork =
      (endDerivation r (s.seedOf r) (some (s.holdAccepted H).pendingPoint) s).forgetWork := by
  have hcount : countRejected (s.holdAccepted H).pendingPoint.i s = s := countRejected_icnt_self s
  cases r with
  | derive =>
    rw [toCompletion_of_last ((engineStepWith_attempt hf).trans (attemptPhase_derive_of_accepted hq)) rfl]
    simp only [endDerivation, hcount]
    rfl
  | hint =>
    have hwrite : (s.toCompletion H) =
        writeResult s.work.inputs.bundle (s.holdAccepted H).pendingPoint { s.holdAccepted H with fsm := .write } := by
      rw [toCompletion_of_step ((engineStepWith_attempt hf).trans (attemptPhase_hint_of_accepted hq))]
      exact toCompletion_of_last ((engineStepWith_write rfl).trans (writePhase_eq _)) (writeResult_fsm _ _ _)
    rw [hwrite]
    simp only [endDerivation, hcount]
    exact writeResult_forgetWork _ _ s _ _

/-- From TRY(i) the engine ends as the loop over the candidates left does (R99 to R103). -/
theorem toCompletion_attempt {H : Hash} {r : Requester} (n : Nat) {s : State} (hf : s.fsm = .attempt r)
    (hn : s.icnt.toNat + (n + 1) = nIter) :
    (s.toCompletion H).forgetWork =
      (endDerivation r (s.seedOf r) (search H s.work.hd (n + 1) s.icnt.toNat) s).forgetWork := by
  induction n generalizing s with
  | zero =>
    cases hq : isQr (curveRhs (s.nextCandidate H)) with
    | true => rw [search_succ_of_accepted _ hq]; exact toCompletion_of_accepted hf hq
    | false =>
      have hcount : s.icnt + 1 = BitVec.ofNat 7 nIter := by
        simp only [nIter] at hn ⊢
        bv_omega
      rw [search_succ_of_rejected _ hq, search,
        toCompletion_of_step ((engineStepWith_attempt hf).trans (attemptPhase_of_rejected hq)),
        toCompletion_of_last (engineStepWith_fail (holdRejected_fsm_of_le (by omega))) rfl]
      simp only [endDerivation, State.holdRejected, hcount]
      rfl
  | succ n ih =>
    cases hq : isQr (curveRhs (s.nextCandidate H)) with
    | true => rw [search_succ_of_accepted _ hq]; exact toCompletion_of_accepted hf hq
    | false =>
      have hcount : (s.holdRejected H r).icnt.toNat = s.icnt.toNat + 1 := holdRejected_icnt_toNat (by omega)
      have hrest := ih (s := s.holdRejected H r) (holdRejected_fsm_of_lt (by omega)) (by omega)
      rw [search_succ_of_rejected _ hq,
        toCompletion_of_step ((engineStepWith_attempt hf).trans (attemptPhase_of_rejected hq)), hrest, hcount]
      cases r <;> exact endDerivation_forgetWork _ _ _ s _ _ _

/-- From SEEDHASH the engine ends as `random_ec_point` on its seed does (R93, R102). -/
theorem toCompletion_seedHash {H : Hash} {r : Requester} {s : State} (hf : s.fsm = .seedHash r)
    (hv : r = .derive → s.status.seedValid = true) :
    (s.toCompletion H).forgetWork =
      (endDerivation r (s.seedOf r) (randomEcPoint H (s.seedOf r)) s).forgetWork := by
  have hstep : engineStepWith H s = s.holdDigest H r := by
    rw [engineStepWith_seedHash hf]
    rcases seedHashPhase_cases H r s with ⟨hr, hinvalid, _⟩ | h
    · rw [hv hr] at hinvalid; cases hinvalid
    · exact h
  rw [toCompletion_of_step hstep, toCompletion_attempt 99 rfl rfl]
  cases r <;> exact endDerivation_forgetWork _ _ _ s _ _ _

/-! ### HINT's check and reads -/

/-- `raise` on the error of a read, and `k` on its value. -/
def orRaise {α : Type} (x : Except CoreError α) (s : State) (k : α → State) : State :=
  match x with
  | .error e => raise e s
  | .ok v => k v

theorem orRaise_bind {α β : Type} (x : Except CoreError α) (f : α → Except CoreError β) (s : State) (k : β → State) :
    orRaise (x >>= f) s k = orRaise x s fun v => orRaise (f v) s k := by
  cases x <;> rfl

theorem orRaise_forgetWork {α : Type} {x : Except CoreError α} {s t : State} {k l : α → State}
    (hs : ∀ e, (raise e s).forgetWork = (raise e t).forgetWork) (hk : ∀ v, (k v).forgetWork = (l v).forgetWork) :
    (orRaise x s k).forgetWork = (orRaise x t l).forgetWork := by
  cases x with
  | error e => exact hs e
  | ok v => exact hk v

/-- The pseudocode of HINT after its address check (R107). -/
theorem hintBody_of_addressed {H : Hash} {s : State} {p q m dest : Addr} (hp : s.addrP = some p)
    (hq : s.addrQ = some q) (hm : s.addrM = some m) (hdest : s.addrS = some dest) :
    hintBody H s = orRaise (readInputs s.vm p q m) s fun i =>
      endDerivation .hint i.bundle (randomEcPoint H i.bundle) s := by
  simp only [hintBody, hp, hq, hm, hdest]
  cases readInputs s.vm p q m with
  | error e => rfl
  | ok i =>
    simp only [orRaise]
    cases randomEcPoint H i.bundle with
    | none => rfl
    | some pt => exact (writeResult_of_addrS (s := countRejected pt.i s) hdest i.bundle pt).symm

/-- From READ(k) the engine goes on with the value read, or ends in the error of the read (R109). -/
theorem toCompletion_read {H : Hash} {s : State} {k : Fin 5} {a : Addr} {e : CoreError} (hf : s.fsm = .read k)
    (ht : s.readTarget k = some (a, e)) :
    s.toCompletion H = orRaise (s.vm.readInt a e) s fun v =>
      State.toCompletion H
        { s with work := { s.work with inputs := s.work.inputs.put k v }, fsm := afterRead k } := by
  rw [toCompletion_of_step (engineStepWith_read hf)]
  simp only [readPhase, ht]
  cases s.vm.readInt a e with
  | error e => exact toCompletion_of_idle rfl
  | ok v => rfl

/-- From READ(0) the engine ends as HINT's pseudocode does after its address check (R107, R109). -/
theorem toCompletion_reads {H : Hash} {s : State} {p q m dest : Addr} (hp : s.addrP = some p)
    (hq : s.addrQ = some q) (hm : s.addrM = some m) (hdest : s.addrS = some dest) :
    (State.toCompletion H { s with fsm := .read 0 }).forgetWork = (hintBody H s).forgetWork := by
  rw [hintBody_of_addressed hp hq hm hdest]
  simp only [readInputs, orRaise_bind]
  rw [toCompletion_read (k := 0) (a := s.vm.memberX p) (e := .noMember .p .x) rfl (by simp [State.readTarget, hp])]
  refine orRaise_forgetWork (fun _ => rfl) fun px => ?_
  rw [toCompletion_read (k := 1) (a := s.vm.memberY p) (e := .noMember .p .y) rfl (by simp [State.readTarget, hp])]
  refine orRaise_forgetWork (fun _ => rfl) fun py => ?_
  rw [toCompletion_read (k := 2) (a := s.vm.memberX q) (e := .noMember .q .x) rfl (by simp [State.readTarget, hq])]
  refine orRaise_forgetWork (fun _ => rfl) fun qx => ?_
  rw [toCompletion_read (k := 3) (a := s.vm.memberY q) (e := .noMember .q .y) rfl (by simp [State.readTarget, hq])]
  refine orRaise_forgetWork (fun _ => rfl) fun qy => ?_
  rw [toCompletion_read (k := 4) (a := s.vm.memberX m) (e := .inputRead) rfl (by simp [State.readTarget, hm])]
  refine orRaise_forgetWork (fun _ => rfl) fun mv => ?_
  rw [toCompletion_seedHash rfl (fun h => by cases h)]
  exact endDerivation_forgetWork _ _ _ s _ s.icnt _

theorem checkPhase_of_unaddressed {s : State}
    (h : s.addrP = none ∨ s.addrQ = none ∨ s.addrM = none ∨ s.addrS = none) : checkPhase s = raise .addrUnset s := by
  rcases h with h | h | h | h <;> simp [checkPhase, h]

theorem hintBody_of_unaddressed {H : Hash} {s : State}
    (h : s.addrP = none ∨ s.addrQ = none ∨ s.addrM = none ∨ s.addrS = none) :
    hintBody H s = raise .addrUnset s := by
  unfold hintBody
  split
  · simp_all
  · rfl

theorem unaddressed_or_addressed (s : State) :
    (s.addrP = none ∨ s.addrQ = none ∨ s.addrM = none ∨ s.addrS = none) ∨
      ∃ p q m dest, s.addrP = some p ∧ s.addrQ = some q ∧ s.addrM = some m ∧ s.addrS = some dest := by
  cases s.addrP with
  | none => exact .inl (.inl rfl)
  | some p =>
    cases s.addrQ with
    | none => exact .inl (.inr (.inl rfl))
    | some q =>
      cases s.addrM with
      | none => exact .inl (.inr (.inr (.inl rfl)))
      | some m =>
        cases s.addrS with
        | none => exact .inl (.inr (.inr (.inr rfl)))
        | some dest => exact .inr ⟨p, q, m, dest, rfl, rfl, rfl, rfl⟩

/-! ### Commands -/

theorem toCompletion_exec (H : Hash) (p : Primitive) (s : State) :
    State.toCompletion H { s with fsm := .exec p } = execPhase p s := by
  have hlast : (execPhase p s).fsm = .idle := by
    rcases execPhase_cases p s with ⟨_, h⟩ | ⟨_, h⟩ | ⟨_, h⟩ <;> simp [h]
  exact toCompletion_of_last ((engineStepWith_exec rfl).trans (execPhase_fsm p _ s)) hlast

/-- DERIVE (R105). -/
theorem toCompletion_derive (H : Hash) (s : State) :
    (State.toCompletion H { s with fsm := .seedHash .derive }).forgetWork = (deriveBody H s).forgetWork := by
  rw [deriveBody_eq]
  cases hv : s.status.seedValid with
  | true =>
    have hend := toCompletion_seedHash (H := H) (s := { s with fsm := .seedHash .derive }) rfl fun _ => hv
    rw [hend, if_pos rfl]
    exact endDerivation_forgetWork _ _ _ s s.work s.icnt _
  | false =>
    have hlast : seedHashPhase H .derive { s with fsm := .seedHash .derive } = raise .seedInvalid s :=
      if_pos ⟨rfl, hv⟩
    rw [toCompletion_of_last ((engineStepWith_seedHash rfl).trans hlast) rfl]
    rfl

/-- HINT (R107). -/
theorem toCompletion_hint (H : Hash) (s : State) :
    (State.toCompletion H { s with fsm := .check }).forgetWork = (hintBody H s).forgetWork := by
  rcases unaddressed_or_addressed s with h | ⟨p, q, m, dest, hp, hq, hm, hdest⟩
  · have hlast : checkPhase { s with fsm := .check } = raise .addrUnset s := checkPhase_of_unaddressed h
    rw [toCompletion_of_last ((engineStepWith_check rfl).trans hlast) rfl, hintBody_of_unaddressed h]
  · have hcheck : checkPhase { s with fsm := .check } = { s with fsm := .read 0 } := by
      simp [checkPhase, hp, hq, hm, hdest]
    rw [toCompletion_of_step ((engineStepWith_check rfl).trans hcheck)]
    exact toCompletion_reads hp hq hm hdest

/-- The pseudocode of a command that runs, all phases together. -/
def opBody (H : Hash) : Op → State → State
  | .prim p => execPhase p
  | .derive => deriveBody H
  | .hint => hintBody H

/-- A command that runs ends, phase by phase, as its pseudocode. -/
theorem toCompletion_firstPhase (H : Hash) (op : Op) (s : State) :
    (State.toCompletion H { s with fsm := firstPhase op }).forgetWork = (opBody H op s).forgetWork := by
  cases op with
  | prim p => exact congrArg State.forgetWork (toCompletion_exec H p s)
  | derive => exact toCompletion_derive H s
  | hint => exact toCompletion_hint H s

/-! ### Command words -/

/-- A word from 8 up is illegal, and so is any with reserved bits (R70, R72). -/
theorem decodeCmd_of_ge {w : U32} (h : 8 ≤ w.toNat) : decodeCmd w = .illegal w := by
  by_cases hres : cmdReserved w = 0
  · have hopc : (cmdOpcode w).toNat = w.toNat := by
      have hdiv : w.toNat >>> 8 % 2 ^ 24 = 0 := by
        rw [← BitVec.extractLsb'_toNat]
        exact congrArg BitVec.toNat hres
      simp only [cmdOpcode, BitVec.extractLsb'_toNat, Nat.shiftRight_eq_div_pow] at hdiv ⊢
      omega
    obtain ⟨n, hn⟩ := Nat.exists_eq_add_of_le' h
    simp [decodeCmd, hres, hopc, hn]
  · exact if_pos hres

/-- A command word is CLEAR's, the word of a command that runs, or illegal (R70 to R72). -/
theorem decodeCmd_cases (w : U32) :
    (w = 0 ∧ decodeCmd w = .clear) ∨ (∃ op : Op, w = op.word ∧ (decodeCmd w).op? = some op) ∨
      decodeCmd w = .illegal w := by
  rcases Nat.lt_or_ge w.toNat 8 with h | h
  · have hw : w = BitVec.ofNat 32 w.toNat := by simp
    generalize w.toNat = n at h hw
    subst hw
    match n, h with
    | 0, _ => exact .inl ⟨rfl, rfl⟩
    | 1, _ => exact .inr (.inl ⟨.prim .modexp, rfl, rfl⟩)
    | 2, _ => exact .inr (.inl ⟨.prim .qrtest, rfl, rfl⟩)
    | 3, _ => exact .inr (.inl ⟨.prim .sqrt, rfl, rfl⟩)
    | 4, _ => exact .inr (.inl ⟨.prim .crhs, rfl, rfl⟩)
    | 5, _ => exact .inr (.inl ⟨.prim .serialize, rfl, rfl⟩)
    | 6, _ => exact .inr (.inl ⟨.derive, rfl, rfl⟩)
    | 7, _ => exact .inr (.inl ⟨.hint, rfl, rfl⟩)
  · exact .inr (.inr (decodeCmd_of_ge h))

/-- The instruction of a command that runs is its CTRL write and its pseudocode (notes/assumptions/6.md). -/
theorem exec_of_op {i : Instr} {op : Op} (h : i.op? = some op) (s : State) :
    exec i s = .next (issue op.word (opBody sha256 op) s) := by
  cases i <;> cases h <;> rfl

/-- The CTRL write of a command that runs starts the engine in its first phase (R71). -/
theorem acceptCommand_of_op {w : U32} {op : Op} (h : (decodeCmd w).op? = some op) (s : State) :
    acceptCommand w s = { accept w s with fsm := firstPhase op } := by
  unfold acceptCommand
  cases hi : decodeCmd w <;> rw [hi] at h <;> cases h <;> rfl

theorem exec_clear_of_idle {s : State} (hs : s.busy = false) : exec .clear s = .next (clearBody (accept 0 s)) := by
  rw [← issue_idle (body := clearBody) hs]
  rfl

theorem exec_illegal_of_idle {s : State} (hs : s.busy = false) (w : U32) :
    exec (.illegal w) s = .next (raise .illegalCmd (accept w s)) := by
  rw [← issue_idle (body := raise .illegalCmd) hs]
  rfl

/-- A command word run whole ends as its CTRL write and the engine's phases do, up to the working state. -/
theorem exec_decodeCmd_agrees (w : U32) {s : State} (hs : s.busy = false) :
    ∃ u, exec (decodeCmd w) s = .next u ∧
      (State.toCompletion sha256 (acceptCommand w s)).forgetWork = u.forgetWork := by
  rcases decodeCmd_cases w with ⟨rfl, hclear⟩ | ⟨op, rfl, hop⟩ | hill
  · have haccept : acceptCommand 0 s = clearBody (accept 0 s) := by simp only [acceptCommand, hclear]
    refine ⟨_, by rw [hclear, exec_clear_of_idle hs], ?_⟩
    have hidle : (clearBody (accept 0 s)).fsm = .idle := State.busy_eq_false.1 hs
    rw [haccept, toCompletion_of_idle hidle]
  · refine ⟨_, exec_of_op hop s, ?_⟩
    rw [issue_idle hs, acceptCommand_of_op hop, toCompletion_firstPhase]
  · have haccept : acceptCommand w s = raise .illegalCmd (accept w s) := by simp only [acceptCommand, hill]
    refine ⟨_, by rw [hill, exec_illegal_of_idle hs], ?_⟩
    rw [haccept, toCompletion_of_idle rfl]

/-! ### The two runs -/

/-- The step of a write to CTRL while BUSY = 0 (R117). -/
theorem step_ctrlWrite {s : State} (w : U32) (hs : s.busy = false) :
    step { s with agenda := [.raw (.bus 0x80 (some (.u32 w)))] } = .next (acceptCommand w { s with agenda := [] }) := by
  have hwrite : execHostWr 0 (.u32 w) { s with agenda := [] } = .next (acceptCommand w { s with agenda := [] }) := by
    have hidle : ({ s with agenda := [] } : State).busy = false := hs
    simp only [execHostWr, hidle]
    rfl
  exact hwrite

theorem step_commandWord (s : State) (w : U32) :
    step { s with agenda := [.raw (.command w)] } = exec (decodeCmd w) { s with agenda := [] } := rfl

theorem acceptCommand_agenda (w : U32) (s : State) : (acceptCommand w s).agenda = s.agenda := by
  unfold acceptCommand
  cases decodeCmd w <;> rfl

/-- Settles O53: the CTRL write is the first step, and the engine's 108 steps after it take the command to its end. -/
theorem phasesAgreeWithWholeCommand : Obligations.PhasesAgreeWithWholeCommand := by
  intro s w hs
  have hs' : ({ s with agenda := [] } : State).busy = false := hs
  obtain ⟨u, hu, hagree⟩ := exec_decodeCmd_agrees w hs'
  refine ⟨_, u, ?_, ?_, ?_, hagree⟩
  · rw [run_core_succ (step_ctrlWrite w hs)]
    exact run_core_of_agenda_nil (acceptCommand_agenda w _) 108
  · rw [run_core_succ ((step_commandWord s w).trans hu)]
    rfl
  · exact State.busy_eq_false.2 (toCompletion_fsm sha256 _)

end Sys2Proof.Machine
end

section
/-!
PROOFS. What a command and an instruction can do: the ways a command ends (spec/60_exceptions.md R120, R121), and the
outcomes of an instruction, one case each. The invariants and the frames below are read off these cases.
-/

namespace Sys2Proof.Machine

open Sys2Proof.Config

/-! ### Accepted points and loaded bundles -/

theorem applySign_sq {y : Nat} (hy : y < P) (b : Bool) : applySign y b * applySign y b % P = y * y % P := by
  unfold applySign
  split
  · rw [neg, ← Nat.mul_mod, neg_sq y hy.le]
  · rfl

/-- A root of the right-hand side, with either sign, gives a point of the curve (R8, R100). -/
theorem onCurve_of_root {x y : Nat} (hy : y < P) (h : y * y % P = (x ^ 3 + x + BETA) % P) (b : Bool) :
    OnCurve (felt x).val (felt (applySign y b)).val := by
  have hx : ((x % P) ^ 3 + x % P + BETA) % P = (x ^ 3 + x + BETA) % P :=
    (((Nat.mod_modEq x P).pow 3).add (Nat.mod_modEq x P)).add_right BETA
  unfold OnCurve
  rw [felt_val, felt_val, hx, ← Nat.mul_mod, applySign_sq hy, h]

/-- What a derivation gives: a point of the curve and the index of one of the 100 candidates (R99, R106). -/
structure Point.Accepted (p : Point) : Prop where
  onCurve : OnCurve p.x.val p.y.val
  index_lt : p.i < nIter

theorem pointOf_accepted {i xr : Nat} (d : Bytes 32) (hi : i < nIter) (hq : isQr (curveRhs xr) = true) :
    (pointOf d i xr (sqrtC (curveRhs xr))).Accepted where
  onCurve := onCurve_of_root (sqrtC_lt _) (by rw [sqrtC_sq _ (curveRhs_lt xr) hq, curveRhs_eq]) _
  index_lt := hi

theorem randomEcPoint_accepted {H : Hash} {seed : Bytes 160} {p : Point} (h : randomEcPoint H seed = some p) :
    p.Accepted := by
  obtain ⟨_, hi, hq, _, hp⟩ := randomEcPoint_some h
  rw [hp]
  exact pointOf_accepted p.h hi hq

/-- The five registers of a seed buffer hold field elements (R80). -/
def FeltSeed (buf : Bytes 160) : Prop := ∀ k < 5, (seedView buf k).toNat < P

theorem toNat_ofNat_of_felt {n : Nat} (h : n < P) : (BitVec.ofNat 256 n).toNat = n := by
  have hP : P < 2 ^ 256 := by decide
  rw [BitVec.toNat_ofNat, Nat.mod_eq_of_lt (h.trans hP)]

theorem seedBundle_felts {a b c d e : Nat} (ha : a < P) (hb : b < P) (hc : c < P) (hd : d < P) (he : e < P) :
    FeltSeed (seedBundle a b c d e) := by
  obtain ⟨h0, h1, h2, h3, h4⟩ := seedView_seedBundle a b c d e
  intro k hk
  match k, hk with
  | 0, _ => rwa [h0, toNat_ofNat_of_felt ha]
  | 1, _ => rwa [h1, toNat_ofNat_of_felt hb]
  | 2, _ => rwa [h2, toNat_ofNat_of_felt hc]
  | 3, _ => rwa [h3, toNat_ofNat_of_felt hd]
  | 4, _ => rwa [h4, toNat_ofNat_of_felt he]

theorem bundle_felts (i : Inputs) : FeltSeed i.bundle :=
  seedBundle_felts i.px.isLt i.py.isLt i.m.isLt i.qx.isLt i.qy.isLt

/-! ### The ways a command ends -/

/-- The state a command ends in, from the state it computes on: an error recorded, or its results committed (R120, R121).
The counter `icnt` is left at the rejected candidates when a derivation has run (R40, R102). -/
inductive CommandEnd (s : State) : Op → State → Prop where
  /-- an error before or without a derivation -/
  | error (op : Op) (e : CoreError) (he : e ≠ .notOnCurve) : CommandEnd s op (raise e s)
  /-- all candidates rejected (R103) -/
  | exhausted (op : Op) : CommandEnd s op (raiseNotOnCurve (countRejected nIter s))
  /-- HINT's write rejected by the VM (R112) -/
  | writeRejected (n : Nat) (hn : n < nIter) : CommandEnd s .hint (raise .write (countRejected n s))
  /-- a result in OUT0 -/
  | result (p : Primitive) (n : Nat) (hn : n < P) : CommandEnd s (.prim p) (completeOk (commitOut0 n s))
  /-- a bundle loaded by SERIALIZE -/
  | serialized (buf : Bytes 160) (hbuf : FeltSeed buf) :
      CommandEnd s (.prim .serialize) (completeOk (commitSeed buf s))
  /-- a point derived by DERIVE -/
  | derived (p : Point) (hp : p.Accepted) : CommandEnd s .derive (completeOk (commitPoint p (countRejected p.i s)))
  /-- a point derived and written by HINT, its bundle loaded -/
  | hinted (p : Point) (hp : p.Accepted) (buf : Bytes 160) (hbuf : FeltSeed buf) (vm : Memory)
      (hvm : s.vm.wf → vm.wf) :
      CommandEnd s .hint (completeOk (commitPoint p (commitSeed buf { countRejected p.i s with vm := vm })))

theorem CommandEnd.fsm {s t : State} {op : Op} (h : CommandEnd s op t) : t.fsm = .idle := by
  cases h <;> rfl

theorem CommandEnd.ovr {s t : State} {op : Op} (h : CommandEnd s op t) : t.status.ovr = s.status.ovr := by
  cases h <;> simp

theorem CommandEnd.draws {s t : State} {op : Op} (h : CommandEnd s op t) : t.draws = s.draws := by
  cases h <;> rfl

theorem checkFelts_error_eq {vs : List U256} {e : CoreError} (h : checkFelts vs = .error e) : e = .range := by
  rcases checkFelts_cases vs with ⟨hok, _⟩ | ⟨herr, _⟩
  · rw [hok] at h; cases h
  · rw [herr] at h; injection h with h; exact h.symm

theorem execPhase_end (p : Primitive) (s : State) : CommandEnd s (.prim p) (execPhase p s) := by
  cases p with
  | modexp => exact .result _ _ (modexp_lt _ _)
  | crhs => exact .result _ _ (curveRhs_lt _)
  | qrtest =>
    simp only [execPhase, qrtestBody]
    split
    · rename_i e h
      exact .error _ e (by rw [checkFelts_error_eq h]; decide)
    · exact .result _ _ (by split <;> decide)
  | sqrt =>
    simp only [execPhase, sqrtBody]
    split
    · rename_i e h
      exact .error _ e (by rw [checkFelts_error_eq h]; decide)
    · split
      · exact .result _ _ (sqrtC_lt _)
      · exact .error _ .notQr (by decide)
  | serialize =>
    simp only [execPhase, serializeBody]
    split
    · rename_i e h
      exact .error _ e (by rw [checkFelts_error_eq h]; decide)
    · rename_i h
      have hfelt := checkFelts_ok.1 h
      simp only [List.forall_mem_cons] at hfelt
      obtain ⟨h0, h1, h2, h3, h4, _⟩ := hfelt
      exact .serialized _ (seedBundle_felts h0 h1 h2 h3 h4)

theorem finishHint_end {p : Point} (hp : p.Accepted) (dest : Addr) (i : Inputs) (s : State) :
    CommandEnd s .hint (finishHint dest i.bundle p (countRejected p.i s)) := by
  rcases finishHint_cases dest i.bundle p (countRejected p.i s) with ⟨_, h⟩ | ⟨vm, hvm, h⟩
  · rw [h]; exact .writeRejected p.i hp.index_lt
  · rw [h]; exact .hinted p hp _ (bundle_felts i) vm fun hwf => Memory.writePair_wf hwf hvm

theorem deriveBody_end (H : Hash) (s : State) : CommandEnd s .derive (deriveBody H s) := by
  unfold deriveBody
  split
  · split
    · rename_i p h
      exact .derived p (randomEcPoint_accepted h)
    · exact .exhausted _
  · exact .error _ .seedInvalid (by decide)

theorem readInt_error_eq {m : Memory} {a : Addr} {e e' : CoreError} (h : m.readInt a e = .error e') : e' = e :=
  (Memory.readInt_error.1 h).1

theorem except_bind_error {ε α β : Type} {x : Except ε α} {f : α → Except ε β} {e : ε} :
    (x >>= f) = .error e ↔ x = .error e ∨ ∃ a, x = .ok a ∧ f a = .error e := by
  cases x <;> simp [bind, Except.bind]

/-- HINT's reads fail in E_NO_MEMBER or E_INPUT_READ (R109). -/
theorem readInputs_error_ne {m : Memory} {p q sc : Addr} {e : CoreError} (h : readInputs m p q sc = .error e) :
    e ≠ .notOnCurve := by
  simp only [readInputs, except_bind_error] at h
  rcases h with h | ⟨_, _, h | ⟨_, _, h | ⟨_, _, h | ⟨_, _, h | ⟨_, _, h⟩⟩⟩⟩⟩
  case inr => cases h
  all_goals
    rw [readInt_error_eq h]
    decide

theorem hintBody_end (H : Hash) (s : State) : CommandEnd s .hint (hintBody H s) := by
  unfold hintBody
  split
  · split
    · rename_i e h
      exact .error _ e (readInputs_error_ne h)
    · split
      · rename_i pt h
        exact finishHint_end (randomEcPoint_accepted h) _ _ s
      · exact .exhausted _
  · exact .error _ .addrUnset (by decide)

/-- A command run whole ends in one of these ways. -/
theorem opBody_end (H : Hash) (op : Op) (s : State) : CommandEnd s op (opBody H op s) := by
  cases op with
  | prim p => exact execPhase_end p s
  | derive => exact deriveBody_end H s
  | hint => exact hintBody_end H s

/-! ### The outcomes of an instruction -/

/-- The state with other values in the operand and address registers. -/
def State.withOperands (s : State) (x0 x1 x2 x3 x4 : U256) (p q m d : Option Addr) : State :=
  { s with in0 := x0, in1 := x1, in2 := x2, in3 := x3, in4 := x4, addrP := p, addrQ := q, addrM := m, addrS := d }

/-- What an instruction did, when it answered a next state. -/
inductive Executed (s : State) : Instr → State → Prop where
  /-- a write while BUSY = 1 (R33) -/
  | overrun (i : Instr) (hb : s.busy = true) (hi : ∀ idx, i ≠ .hostRd idx) : Executed s i (overrun s)
  /-- CLEAR, as a command or by a CTRL write -/
  | clear (i : Instr) (hs : s.busy = false) (hi : i = .clear ∨ i = .hostWr 0 (.u32 0)) :
      Executed s i (clearBody (accept 0 s))
  /-- an illegal word, as a command or by a CTRL write -/
  | illegal (i : Instr) (w : U32) (hs : s.busy = false) : Executed s i (raise .illegalCmd (accept w s))
  /-- a command run whole -/
  | command (i : Instr) (op : Op) (t : State) (hs : s.busy = false) (hi : i.op? = some op)
      (ht : CommandEnd (accept op.word s) op t) : Executed s i t
  /-- a command started by a CTRL write -/
  | start (w : U32) (op : Op) (hs : s.busy = false) :
      Executed s (.hostWr 0 (.u32 w)) { accept op.word s with fsm := firstPhase op }
  /-- a write to an operand or an address register, or one that is ignored -/
  | load (idx : BitVec 6) (v : BusValue) (x0 x1 x2 x3 x4 : U256) (p q m d : Option Addr) (hs : s.busy = false) :
      Executed s (.hostWr idx v) (s.withOperands x0 x1 x2 x3 x4 p q m d)
  /-- a read -/
  | read (idx : BitVec 6) : Executed s (.hostRd idx) (busRead (Reg.ofIndex idx) s)

theorem ofIndex_eq_ctrl {idx : BitVec 6} (h : Reg.ofIndex idx = .ctrl) : idx = 0 := by
  unfold Reg.ofIndex at h
  split at h
  case h_1 hidx => exact BitVec.eq_of_toNat_eq hidx
  all_goals cases h

theorem acceptCommand_executed {s : State} (hs : s.busy = false) (w : U32) :
    Executed s (.hostWr 0 (.u32 w)) (acceptCommand w s) := by
  rcases decodeCmd_cases w with ⟨rfl, hclear⟩ | ⟨op, rfl, hop⟩ | hill
  · have haccept : acceptCommand 0 s = clearBody (accept 0 s) := by simp only [acceptCommand, hclear]
    rw [haccept]
    exact .clear _ hs (.inr rfl)
  · rw [acceptCommand_of_op hop]
    exact .start _ op hs
  · have haccept : acceptCommand w s = raise .illegalCmd (accept w s) := by simp only [acceptCommand, hill]
    rw [haccept]
    exact .illegal _ w hs

theorem busWrite_executed {s : State} (hs : s.busy = false) (idx : BitVec 6) (v : BusValue) :
    Executed s (.hostWr idx v) (busWrite (Reg.ofIndex idx) v s) := by
  have ignored : Executed s (.hostWr idx v) s :=
    .load idx v s.in0 s.in1 s.in2 s.in3 s.in4 s.addrP s.addrQ s.addrM s.addrS hs
  unfold busWrite
  split
  · split
    · rename_i hctrl
      rw [ofIndex_eq_ctrl hctrl]
      exact acceptCommand_executed hs _
    · exact ignored
  · rename_i x
    split
    · exact .load _ _ x s.in1 s.in2 s.in3 s.in4 s.addrP s.addrQ s.addrM s.addrS hs
    · exact .load _ _ s.in0 x s.in2 s.in3 s.in4 s.addrP s.addrQ s.addrM s.addrS hs
    · exact .load _ _ s.in0 s.in1 x s.in3 s.in4 s.addrP s.addrQ s.addrM s.addrS hs
    · exact .load _ _ s.in0 s.in1 s.in2 x s.in4 s.addrP s.addrQ s.addrM s.addrS hs
    · exact .load _ _ s.in0 s.in1 s.in2 s.in3 x s.addrP s.addrQ s.addrM s.addrS hs
    · exact ignored
  · rename_i a
    split
    · exact .load _ _ s.in0 s.in1 s.in2 s.in3 s.in4 a s.addrQ s.addrM s.addrS hs
    · exact .load _ _ s.in0 s.in1 s.in2 s.in3 s.in4 s.addrP a s.addrM s.addrS hs
    · exact .load _ _ s.in0 s.in1 s.in2 s.in3 s.in4 s.addrP s.addrQ a s.addrS hs
    · exact .load _ _ s.in0 s.in1 s.in2 s.in3 s.in4 s.addrP s.addrQ s.addrM a hs
    · exact ignored

/-- A well-formed instruction while BUSY = 1, if it is no read, sets OVR and does nothing else (R33). -/
theorem exec_of_busy {i : Instr} {s : State} (hs : s.busy = true) (hwf : i.wf = true) (hi : ∀ idx, i ≠ .hostRd idx) :
    exec i s = .next (overrun s) := by
  have hissue : ∀ w body, issue w body s = overrun s := fun _ _ => issue_busy hs
  cases i with
  | hostRd idx => exact absurd rfl (hi idx)
  | hostWr idx v =>
    have htype : v.type = busType idx := beq_iff_eq.1 hwf
    simp only [exec, execHostWr, htype, hs, if_true]
  | clear => exact congrArg _ (hissue _ _)
  | illegal w => exact congrArg _ (hissue _ _)
  | modexp => exact congrArg _ (hissue _ _)
  | qrtest => exact congrArg _ (hissue _ _)
  | sqrt => exact congrArg _ (hissue _ _)
  | crhs => exact congrArg _ (hissue _ _)
  | serialize => exact congrArg _ (hissue _ _)
  | derive => exact congrArg _ (hissue _ _)
  | hint => exact congrArg _ (hissue _ _)

theorem issue_executed {i : Instr} {op : Op} (h : i.op? = some op) (s : State) :
    Executed s i (issue op.word (opBody sha256 op) s) := by
  cases hs : s.busy with
  | true =>
    rw [issue_busy hs]
    exact .overrun i hs fun idx hi => by rw [hi] at h; cases h
  | false =>
    rw [issue_idle hs]
    exact .command i op _ hs h (opBody_end sha256 op _)

theorem execHostWr_executed {idx : BitVec 6} {v : BusValue} {s t : State} (h : execHostWr idx v s = .next t) :
    Executed s (.hostWr idx v) t := by
  unfold execHostWr at h
  split at h
  · obtain rfl := Host.Outcome.next.inj h
    split
    · rename_i hb
      exact .overrun _ hb fun _ hi => by cases hi
    · rename_i hb
      exact busWrite_executed (Bool.eq_false_iff.2 hb) idx v
  · cases h

/-- Every next state an instruction answers is one of these outcomes. -/
theorem exec_next {i : Instr} {s t : State} (h : exec i s = .next t) : Executed s i t := by
  cases hop : i.op? with
  | some op =>
    rw [exec_of_op hop] at h
    obtain rfl := Host.Outcome.next.inj h
    exact issue_executed hop s
  | none =>
    cases i with
    | hostWr idx v => exact execHostWr_executed h
    | hostRd idx =>
      obtain rfl := Host.Outcome.next.inj h
      exact .read idx
    | clear =>
      obtain rfl := Host.Outcome.next.inj h
      cases hs : s.busy with
      | true =>
        rw [issue_busy hs]
        exact .overrun _ hs (by simp)
      | false =>
        rw [issue_idle hs]
        exact .clear _ hs (.inl rfl)
    | illegal w =>
      obtain rfl := Host.Outcome.next.inj h
      cases hs : s.busy with
      | true =>
        rw [issue_busy hs]
        exact .overrun _ hs (by simp)
      | false =>
        rw [issue_idle hs]
        exact .illegal _ w hs
    | modexp => cases hop
    | qrtest => cases hop
    | sqrt => cases hop
    | crhs => cases hop
    | serialize => cases hop
    | derive => cases hop
    | hint => cases hop

/-- A read draws a value for a result register while BUSY = 1, and else answers the register's (R118). -/
theorem busRead_cases (r : Reg) (s : State) :
    (s.busy = true ∧ isResultReg r = true ∧
      busRead r s = { s with rdata := some (.u256 (Config.busyRead s.draws)), draws := s.draws + 1 }) ∨
    ((s.busy = false ∨ isResultReg r = false) ∧ busRead r s = { s with rdata := some (s.regValue r) }) := by
  unfold busRead
  split
  · rename_i h
    obtain ⟨hb, hr⟩ := Bool.and_eq_true_iff.1 h
    exact .inl ⟨hb, hr, rfl⟩
  · rename_i h
    exact .inr ⟨Bool.and_eq_false_iff.1 (Bool.eq_false_iff.2 h), rfl⟩

end Sys2Proof.Machine
end

section
/-!
PROOFS. The invariant of the machine holds at reset and every step keeps it; and so does that OUT0 and OUT1 show a point of
the curve. The invariant is taken apart into what it says of STATUS, of the registers and VM memory, and of the engine.
-/

namespace Sys2Proof.Machine

open Sys2Proof.Config

/-! ### The parts of the invariant -/

/-- What the invariant says of STATUS alone (R29, R32, R36, R37, R119). -/
structure Status.Consistent (st : Status) : Prop where
  doneErrApart : ¬ (st.done = true ∧ st.err = true)
  codeIffErr : st.err = true ↔ st.errcode ≠ 0
  codeInTable : st.errcode.toNat ≤ 9
  memberInfo : st.errcode ≠ 6 → st.errid = false ∧ st.errmem = false
  iterRange : st.iter.toNat ≤ 100
  iterExhausted : st.iter = 100 ↔ st.errcode = 8
  iterZero : st.done = false → st.errcode ≠ 8 → st.iter = 0

/-- What the invariant says of VM memory, the result and seed registers and the counter (R24, R34, R40, R80). -/
structure State.DataInv (s : State) : Prop where
  vmCanonical : s.vm.wf
  out0Felt : s.out0.toNat < P
  out1Felt : s.out1.toNat < P
  seedUnloaded : s.status.seedValid = false → s.seedBuf = State.reset.seedBuf
  seedFelts : FeltSeed s.seedBuf
  counterBound : s.icnt.toNat ≤ 100

/-- What the invariant says of the engine at work (R22, R32, R40, R99, R102, R108, R111). -/
structure State.EngineInv (s : State) : Prop where
  busyQuiet : s.busy = true → s.status.done = false ∧ s.status.err = false
  ctrlRuns : ∀ op, s.fsm.op? = some op → s.ctrl = op.word
  deriveLoaded : ∀ r, s.fsm = .attempt r ∨ s.fsm = .fail r → r = .derive → s.status.seedValid = true
  hintAddressed : s.fsm.afterCheck = true →
    s.addrP.isSome = true ∧ s.addrQ.isSome = true ∧ s.addrM.isSome = true ∧ s.addrS.isSome = true
  counterRange : ∀ r, s.fsm = .attempt r ∨ s.fsm = .write → s.icnt.toNat ≤ 99
  counterExhausted : ∀ r, s.fsm = .fail r → s.icnt.toNat = 100
  pendingAccepted : s.fsm = .write →
    s.work.rhs.val = (s.work.xraw.toNat ^ 3 + s.work.xraw.toNat + BETA) % P ∧
      s.work.y0.val * s.work.y0.val % P = s.work.rhs.val

theorem State.inv_iff {s : State} : s.Inv ↔ s.status.Consistent ∧ s.DataInv ∧ s.EngineInv :=
  ⟨fun h => ⟨{ h with }, { h with }, { h with }⟩, fun ⟨hst, hd, he⟩ => { hst, hd, he with }⟩

/-- An idle engine has nothing to keep. -/
theorem engineInv_of_idle {s : State} (h : s.fsm = .idle) : s.EngineInv where
  busyQuiet hb := absurd h (State.busy_eq_true.1 hb)
  ctrlRuns op hop := by rw [h] at hop; cases hop
  deriveLoaded r hr := by simp [h] at hr
  hintAddressed hc := by rw [h] at hc; cases hc
  counterRange r hr := by simp [h] at hr
  counterExhausted r hr := by simp [h] at hr
  pendingAccepted hw := by simp [h] at hw

theorem inv_of_idle {s : State} (h : s.fsm = .idle) (hst : s.status.Consistent) (hd : s.DataInv) : s.Inv :=
  State.inv_iff.2 ⟨hst, hd, engineInv_of_idle h⟩

/-! ### STATUS after acceptance, an error and completion -/

theorem Status.accepted_eq_self {st : Status} (hdone : st.done = false) (herr : st.err = false)
    (hcode : st.errcode = 0) (hid : st.errid = false) (hmem : st.errmem = false) (hiter : st.iter = 0) :
    st.accepted = st := by
  cases st
  simp_all [Status.accepted]

/-- While BUSY the fields that acceptance clears are clear (R32, R38). -/
theorem accepted_status_of_busy {s : State} (hs : s.Inv) (hb : s.busy = true) : s.status.accepted = s.status := by
  obtain ⟨hdone, herr⟩ := hs.busyQuiet hb
  have hcode : s.status.errcode = 0 := by
    by_contra hne
    rw [hs.codeIffErr.2 hne] at herr
    cases herr
  obtain ⟨hid, hmem⟩ := hs.memberInfo (by simp [hcode])
  exact Status.accepted_eq_self hdone herr hcode hid hmem (hs.iterZero hdone (by simp [hcode]))

theorem Status.accepted_consistent (st : Status) : st.accepted.Consistent where
  doneErrApart := by simp
  codeIffErr := by simp
  codeInTable := by simp
  memberInfo := by simp
  iterRange := by simp
  iterExhausted := by simp
  iterZero := by simp

/-- An error on an accepted STATUS; E_NOT_ON_CURVE sets ITER and has its own lemma. -/
theorem Status.failed_consistent (st : Status) {e : CoreError} (he : e ≠ .notOnCurve) :
    (st.accepted.failed e).Consistent where
  doneErrApart := by simp
  codeIffErr := ⟨fun _ => by simpa using e.code_ne_zero, fun _ => Status.failed_err e _⟩
  codeInTable := by simpa using e.code_le
  memberInfo := by cases e <;> simp [Status.failed, Status.accepted, CoreError.code]
  iterRange := by simp
  iterExhausted := by cases e <;> simp [CoreError.code] at he ⊢
  iterZero := by simp

theorem Status.exhausted_consistent (st : Status) :
    (({ st.accepted with iter := 100 } : Status).failed .notOnCurve).Consistent where
  doneErrApart := by simp
  codeIffErr := by simp [CoreError.code]
  codeInTable := by simp [CoreError.code]
  memberInfo := by simp [Status.failed]
  iterRange := by simp
  iterExhausted := by simp [CoreError.code]
  iterZero := by simp [CoreError.code]

/-- Completion on an accepted STATUS, with what the results write into it. -/
theorem Status.completed_consistent (st : Status) (valid sign : Bool) {n : Nat} (hn : n < nIter) :
    ({ st.accepted with seedValid := valid, sign := sign, iter := BitVec.ofNat 7 n } : Status).completed.Consistent :=
  have hiter : (BitVec.ofNat 7 n).toNat = n := by
    simp only [nIter] at hn
    rw [BitVec.toNat_ofNat]
    omega
  { doneErrApart := by simp
    codeIffErr := by simp
    codeInTable := by simp
    memberInfo := by simp
    iterRange := by simp only [completed_iter, hiter]; simp only [nIter] at hn; omega
    iterExhausted := by
      have hne : BitVec.ofNat 7 n ≠ 100 := fun h => by
        rw [h] at hiter
        simp only [nIter] at hn
        simp at hiter
        omega
      exact ⟨fun h => absurd h hne, fun h => by simp at h⟩
    iterZero := by simp }

theorem Status.Consistent.withOvr {st : Status} (h : st.Consistent) (b : Bool) :
    ({ st with ovr := b } : Status).Consistent := { h with }

/-! ### The end of a command -/

/-- STATUS after a command, started on an accepted one. -/
theorem CommandEnd.consistent {s t : State} {op : Op} (h : CommandEnd s op t) (hq : s.status.accepted = s.status) :
    t.status.Consistent := by
  have hcompleted : ∀ (v b : Bool) {n : Nat}, n < nIter →
      ({ s.status with seedValid := v, sign := b, iter := BitVec.ofNat 7 n } : Status).completed.Consistent := by
    rw [← hq]
    exact fun v b _ hn => Status.completed_consistent s.status v b hn
  have hplain : ∀ v : Bool, ({ s.status with seedValid := v } : Status).completed.Consistent := by
    have hiter : s.status.iter = BitVec.ofNat 7 0 := (congrArg Status.iter hq).symm
    have h0 := fun v => hcompleted v s.status.sign (n := 0) (by decide)
    rwa [← hiter] at h0
  cases h with
  | error _ e he => rw [raise_status, ← hq]; exact Status.failed_consistent _ he
  | exhausted => rw [raiseNotOnCurve_status, countRejected_status, ← hq]; exact Status.exhausted_consistent _
  | writeRejected n hn => rw [raise_status, countRejected_status, ← hq]; exact Status.failed_consistent _ (by decide)
  | result p n hn => exact hplain s.status.seedValid
  | serialized buf hbuf => exact hplain true
  | derived p hp => exact hcompleted s.status.seedValid _ hp.index_lt
  | hinted p hp buf hbuf vm hvm => exact hcompleted true _ hp.index_lt

theorem State.DataInv.withCounter {s : State} (h : s.DataInv) {n : Nat} (hn : n ≤ 100) :
    (countRejected n s).DataInv :=
  { h with
    counterBound := by
      change (BitVec.ofNat 7 n).toNat ≤ 100
      rw [BitVec.toNat_ofNat]
      omega }

theorem CommandEnd.data {s t : State} {op : Op} (h : CommandEnd s op t) (hd : s.DataInv) : t.DataInv := by
  have hcount : ∀ {n : Nat}, n < nIter → (countRejected n s).DataInv := fun hn => hd.withCounter (Nat.le_of_lt hn)
  have hfelt : ∀ v : Felt, (BitVec.ofNat 256 v.val).toNat < P := fun v => by
    rw [toNat_ofNat_of_felt v.isLt]
    exact v.isLt
  cases h with
  | error _ e he => exact { hd with seedUnloaded := by simpa using hd.seedUnloaded }
  | exhausted => exact { hd.withCounter (n := nIter) (le_refl _) with }
  | writeRejected n hn => exact { hcount hn with }
  | result p n hn => exact { hd with out0Felt := by rwa [completeOk_out0, commitOut0_out0, toNat_ofNat_of_felt hn] }
  | serialized buf hbuf => exact { hd with seedUnloaded := fun hv => (by cases hv), seedFelts := hbuf }
  | derived p hp => exact { hcount hp.index_lt with out0Felt := hfelt p.x, out1Felt := hfelt p.y }
  | hinted p hp buf hbuf vm hvm =>
    exact
      { hcount hp.index_lt with
        vmCanonical := hvm hd.vmCanonical
        out0Felt := hfelt p.x
        out1Felt := hfelt p.y
        seedUnloaded := fun hv => (by cases hv)
        seedFelts := hbuf }

/-- A command that ends keeps the invariant, whatever its working state was. -/
theorem CommandEnd.inv {s t : State} {op : Op} (h : CommandEnd s op t) (hq : s.status.accepted = s.status)
    (hd : s.DataInv) : t.Inv :=
  inv_of_idle h.fsm (h.consistent hq) (h.data hd)

/-- A completed DERIVE or HINT shows the point it derived (R105, R107). -/
theorem CommandEnd.showsCurvePoint {s t : State} {op : Op} (h : CommandEnd s op t) (hctrl : s.ctrl = op.word) :
    t.ShowsCurvePoint := by
  have hpoint : ∀ p : Point, p.Accepted →
      OnCurve (BitVec.ofNat 256 p.x.val).toNat (BitVec.ofNat 256 p.y.val).toNat := fun p hp => by
    rw [toNat_ofNat_of_felt p.x.isLt, toNat_ofNat_of_felt p.y.isLt]
    exact hp.onCurve
  cases h with
  | error _ e he => intro hdone; simp at hdone
  | exhausted => intro hdone; simp at hdone
  | writeRejected n hn => intro hdone; simp at hdone
  | result p n hn =>
    intro _ hword
    have hne : (Op.prim p).word ≠ Op.derive.word ∧ (Op.prim p).word ≠ Op.hint.word := by cases p <;> decide
    rw [completeOk_ctrl, commitOut0_ctrl, hctrl] at hword
    exact absurd hword (not_or.2 hne)
  | serialized buf hbuf =>
    intro _ hword
    rw [completeOk_ctrl, commitSeed_ctrl, hctrl] at hword
    exact absurd hword (by decide)
  | derived p hp => exact fun _ _ => hpoint p hp
  | hinted p hp buf hbuf vm hvm => exact fun _ _ => hpoint p hp

/-! ### The engine -/

/-- What an engine step does in a state that meets the invariant: the command goes on, with nothing changed but the working
state, the counter and the phase (R61, R102), or it ends. -/
inductive EngineMoved (s : State) : State → Prop where
  | advanced (wk : Work) (n : BitVec 7) (f : Fsm) (hn : n.toNat ≤ 100)
      (he : ({ s with work := wk, icnt := n, fsm := f } : State).EngineInv) :
      EngineMoved s { s with work := wk, icnt := n, fsm := f }
  | ended (wk : Work) (op : Op) (t : State) (hb : s.busy = true) (hop : s.fsm.op? = some op)
      (ht : CommandEnd { s with work := wk } op t) : EngineMoved s t

/-- The next phase of the command in progress keeps what the invariant says of the engine, when it keeps what it says of
that phase. -/
theorem engineInv_of_next {s : State} (hs : s.Inv) (hb : s.busy = true) {wk : Work} {n : BitVec 7} {f : Fsm}
    (hop : f.op? = s.fsm.op?)
    (hload : ∀ r, f = .attempt r ∨ f = .fail r → r = .derive → s.status.seedValid = true)
    (haddr : f.afterCheck = true →
      s.addrP.isSome = true ∧ s.addrQ.isSome = true ∧ s.addrM.isSome = true ∧ s.addrS.isSome = true)
    (hrange : ∀ r, f = .attempt r ∨ f = .write → n.toNat ≤ 99) (hexh : ∀ r, f = .fail r → n.toNat = 100)
    (hpend : f = .write →
      wk.rhs.val = (wk.xraw.toNat ^ 3 + wk.xraw.toNat + BETA) % P ∧ wk.y0.val * wk.y0.val % P = wk.rhs.val) :
    ({ s with work := wk, icnt := n, fsm := f } : State).EngineInv where
  busyQuiet _ := hs.busyQuiet hb
  ctrlRuns op h := hs.ctrlRuns op (hop ▸ h)
  deriveLoaded := hload
  hintAddressed := haddr
  counterRange := hrange
  counterExhausted := hexh
  pendingAccepted := hpend

theorem EngineMoved.raised {s : State} {e : CoreError} {op : Op} (hop : s.fsm.op? = some op) (he : e ≠ .notOnCurve) :
    EngineMoved s (raise e s) :=
  .ended s.work op _ (State.busy_eq_true.2 fun h => by rw [h] at hop; cases hop) hop (.error op e he)

/-- The command a phase of the sampler runs for. -/
def Requester.op : Requester → Op
  | .derive => .derive
  | .hint => .hint

theorem op?_seedHash (r : Requester) : (Fsm.seedHash r).op? = some r.op := by cases r <;> rfl
theorem op?_attempt (r : Requester) : (Fsm.attempt r).op? = some r.op := by cases r <;> rfl
theorem op?_fail (r : Requester) : (Fsm.fail r).op? = some r.op := by cases r <;> rfl

theorem afterCheck_attempt (r : Requester) : (Fsm.attempt r).afterCheck = (Fsm.seedHash r).afterCheck := by
  cases r <;> rfl
theorem afterCheck_fail (r : Requester) : (Fsm.fail r).afterCheck = (Fsm.attempt r).afterCheck := by cases r <;> rfl

/-- The working state of an accepted candidate holds its right-hand side and a root of it (R98, R99). -/
theorem holdAccepted_root {H : Hash} {s : State} (hq : isQr (curveRhs (s.nextCandidate H)) = true) :
    (s.holdAccepted H).work.rhs.val =
        ((s.holdAccepted H).work.xraw.toNat ^ 3 + (s.holdAccepted H).work.xraw.toNat + BETA) % P ∧
      (s.holdAccepted H).work.y0.val * (s.holdAccepted H).work.y0.val % P = (s.holdAccepted H).work.rhs.val := by
  have hx : (s.holdAccepted H).work.xraw.toNat = s.nextCandidate H :=
    (BitVec.toNat_ofNat _ 256).trans (Nat.mod_eq_of_lt (candidate_lt H s.work.hd s.icnt.toNat))
  have hrhs : (s.holdAccepted H).work.rhs.val = curveRhs (s.nextCandidate H) := Nat.mod_eq_of_lt (curveRhs_lt _)
  have hy : (s.holdAccepted H).work.y0.val = sqrtC (curveRhs (s.nextCandidate H)) := Nat.mod_eq_of_lt (sqrtC_lt _)
  rw [hx, hrhs, hy]
  exact ⟨curveRhs_eq _, sqrtC_sq _ (curveRhs_lt _) hq⟩

/-- The phase after READ(k) is HINT's, and none of TRY, FAIL and WRITE (R39). -/
theorem afterRead_spec (k : Fin 5) :
    (afterRead k).op? = some .hint ∧ (∀ r, afterRead k ≠ .attempt r) ∧ (∀ r, afterRead k ≠ .fail r) ∧
      afterRead k ≠ .write := by
  fin_cases k <;> simp [afterRead, Fsm.op?]

/-- A failed read is E_NO_MEMBER or E_INPUT_READ (R109). -/
theorem readTarget_error_ne {s : State} {k : Fin 5} {a : Addr} {e : CoreError} (h : s.readTarget k = some (a, e)) :
    e ≠ .notOnCurve := by
  fin_cases k
  all_goals
    obtain ⟨_, _, htarget⟩ := Option.map_eq_some_iff.1 h
    rw [← (Prod.mk.inj htarget).2]
    decide

section Phases

variable {s : State} (hs : s.Inv)

include hs

theorem seedHashPhase_moved (H : Hash) {r : Requester} (hf : s.fsm = .seedHash r) :
    EngineMoved s (seedHashPhase H r s) := by
  have hop : s.fsm.op? = some r.op := by rw [hf, op?_seedHash]
  have hb : s.busy = true := State.busy_eq_true.2 (by simp [hf])
  unfold seedHashPhase
  split
  · exact .raised hop (by decide)
  · rename_i hloaded
    refine .advanced _ 0 (.attempt r) (by decide) (engineInv_of_next hs hb ?_ ?_ ?_ ?_ ?_ ?_)
    · rw [hop, op?_attempt]
    · rintro r' (hr | hr) hderive <;> cases hr
      exact Bool.of_not_eq_false fun hv => hloaded ⟨hderive, hv⟩
    · rw [afterCheck_attempt, ← hf]
      exact hs.hintAddressed
    · exact fun _ _ => by decide
    · intro r' hr; cases hr
    · intro hw; cases hw

theorem attemptPhase_moved (H : Hash) {r : Requester} (hf : s.fsm = .attempt r) :
    EngineMoved s (attemptPhase H r s) := by
  have hop : s.fsm.op? = some r.op := by rw [hf, op?_attempt]
  have hb : s.busy = true := State.busy_eq_true.2 (by simp [hf])
  have hcount : s.icnt.toNat ≤ 99 := hs.counterRange r (.inl hf)
  cases hq : isQr (curveRhs (s.nextCandidate H)) with
  | true =>
    have hp : (s.holdAccepted H).pendingPoint.Accepted := by
      rw [holdAccepted_pendingPoint]
      exact pointOf_accepted _ (Nat.lt_succ_of_le hcount) hq
    cases r with
    | derive =>
      rw [attemptPhase_derive_of_accepted hq]
      have hend := CommandEnd.derived (s := s.holdAccepted H) _ hp
      have hsame : countRejected (s.holdAccepted H).pendingPoint.i (s.holdAccepted H) = s.holdAccepted H :=
        countRejected_icnt_self _
      rw [hsame] at hend
      exact .ended _ .derive _ hb hop hend
    | hint =>
      rw [attemptPhase_hint_of_accepted hq]
      refine .advanced _ s.icnt .write hs.counterBound (engineInv_of_next hs hb hop.symm ?_ ?_ ?_ ?_ ?_)
      · rintro r' (hr | hr) <;> cases hr
      · exact fun _ => hs.hintAddressed (by rw [hf]; rfl)
      · exact fun _ _ => hcount
      · intro r' hr; cases hr
      · exact fun _ => holdAccepted_root hq
  | false =>
    rw [attemptPhase_of_rejected hq]
    have hnext : (s.holdRejected H r).icnt.toNat = s.icnt.toNat + 1 :=
      holdRejected_icnt_toNat (Nat.lt_succ_of_le hcount)
    have hload : ∀ r', r = r' → r' = .derive → s.status.seedValid = true := fun r' hr hd =>
      hs.deriveLoaded r' (.inl (hr ▸ hf)) hd
    have hbound : (s.icnt + 1).toNat ≤ 100 := hnext.trans_le (by omega)
    unfold State.holdRejected
    split
    · rename_i hlt
      refine .advanced _ _ (.attempt r) hbound (engineInv_of_next hs hb (by rw [hf]) ?_ ?_ ?_ ?_ ?_)
      · rintro r' (hr | hr) <;> cases hr
        exact hload r rfl
      · rw [← hf]
        exact hs.hintAddressed
      · exact fun _ _ => hnext.trans_le hlt
      · intro r' hr; cases hr
      · intro hw; cases hw
    · rename_i hge
      refine .advanced _ _ (.fail r) hbound (engineInv_of_next hs hb (by rw [hop, op?_fail]) ?_ ?_ ?_ ?_ ?_)
      · rintro r' (hr | hr) <;> cases hr
        exact hload r rfl
      · rw [afterCheck_fail, ← hf]
        exact hs.hintAddressed
      · rintro r' (hr | hr) <;> cases hr
      · intro r' hr
        simp only [nIter] at hge
        exact hnext.trans (by omega)
      · intro hw; cases hw

theorem failPhase_moved {r : Requester} (hf : s.fsm = .fail r) : EngineMoved s (raiseNotOnCurve s) := by
  have hcount : s.icnt.toNat = nIter := hs.counterExhausted r hf
  have hend := CommandEnd.exhausted (s := s) r.op
  rw [← hcount, countRejected_icnt_self] at hend
  exact .ended s.work r.op _ (State.busy_eq_true.2 (by simp [hf])) (by rw [hf, op?_fail]) hend

theorem checkPhase_moved (hf : s.fsm = .check) : EngineMoved s (checkPhase s) := by
  have hb : s.busy = true := State.busy_eq_true.2 (by simp [hf])
  unfold checkPhase
  split
  · exact .raised (op := .hint) (by rw [hf]; rfl) (by decide)
  · rename_i haddr
    refine .advanced s.work s.icnt (.read 0) hs.counterBound (engineInv_of_next hs hb (by rw [hf]; rfl) ?_ ?_ ?_ ?_ ?_)
    · rintro r (hr | hr) <;> cases hr
    · intro _
      simpa [Option.isSome_iff_ne_none, and_assoc] using haddr
    · rintro r (hr | hr) <;> cases hr
    · intro r hr; cases hr
    · intro hw; cases hw

theorem readPhase_moved {k : Fin 5} (hf : s.fsm = .read k) : EngineMoved s (readPhase k s) := by
  have hop : s.fsm.op? = some .hint := by rw [hf]; rfl
  have hb : s.busy = true := State.busy_eq_true.2 (by simp [hf])
  unfold readPhase
  split
  · exact .raised hop (by decide)
  · rename_i a e htarget
    split
    · rename_i e' hread
      exact .raised hop (by rw [readInt_error_eq hread]; exact readTarget_error_ne htarget)
    · obtain ⟨hnext, hload, hexh, hwrite⟩ := afterRead_spec k
      refine .advanced _ s.icnt (afterRead k) hs.counterBound
        (engineInv_of_next hs hb (hnext.trans hop.symm) ?_ ?_ ?_ ?_ ?_)
      · rintro r (hr | hr)
        · exact absurd hr (hload r)
        · exact absurd hr (hexh r)
      · exact fun _ => hs.hintAddressed (by rw [hf]; rfl)
      · rintro r (hr | hr)
        · exact absurd hr (hload r)
        · exact absurd hr hwrite
      · exact fun r hr => absurd hr (hexh r)
      · exact fun hw => absurd hw hwrite

theorem writePhase_moved (hf : s.fsm = .write) : EngineMoved s (writePhase s) := by
  have hop : s.fsm.op? = some .hint := by rw [hf]; rfl
  unfold writePhase
  split
  · exact .raised hop (by decide)
  · rename_i dest _
    have hcount : s.icnt.toNat ≤ 99 := hs.counterRange .hint (.inr hf)
    obtain ⟨hrhs, hroot⟩ := hs.pendingAccepted hf
    have hp : s.pendingPoint.Accepted :=
      { onCurve := onCurve_of_root s.work.y0.isLt (hroot.trans hrhs) _
        index_lt := Nat.lt_succ_of_le hcount }
    have hend := finishHint_end hp dest s.work.inputs s
    have hsame : countRejected s.pendingPoint.i s = s := countRejected_icnt_self s
    rw [hsame] at hend
    exact .ended s.work .hint _ (State.busy_eq_true.2 (by simp [hf])) hop hend

/-- One engine step in a state that meets the invariant. -/
theorem engineStepWith_moved (H : Hash) : EngineMoved s (engineStepWith H s) := by
  cases hf : s.fsm with
  | idle =>
    rw [engineStepWith_idle hf]
    exact .advanced s.work s.icnt s.fsm hs.counterBound (State.inv_iff.1 hs).2.2
  | exec p =>
    rw [engineStepWith_exec hf]
    exact .ended s.work (.prim p) _ (State.busy_eq_true.2 (by simp [hf])) (by rw [hf]; rfl) (execPhase_end p s)
  | seedHash r => rw [engineStepWith_seedHash hf]; exact seedHashPhase_moved hs H hf
  | attempt r => rw [engineStepWith_attempt hf]; exact attemptPhase_moved hs H hf
  | fail r => rw [engineStepWith_fail hf]; exact failPhase_moved hs hf
  | check => rw [engineStepWith_check hf]; exact checkPhase_moved hs hf
  | read k => rw [engineStepWith_read hf]; exact readPhase_moved hs hf
  | write => rw [engineStepWith_write hf]; exact writePhase_moved hs hf

end Phases

theorem EngineMoved.inv {s t : State} (h : EngineMoved s t) (hs : s.Inv) : t.Inv := by
  obtain ⟨hst, hd, _⟩ := State.inv_iff.1 hs
  cases h with
  | advanced wk n f hn he => exact State.inv_iff.2 ⟨hst, { hd with counterBound := hn }, he⟩
  | ended wk op t hb hop ht =>
    have hq := accepted_status_of_busy hs hb
    exact ht.inv hq { hd with }

/-- A phase that ends the command shows a point, and the others change nothing that shows. -/
theorem EngineMoved.showsCurvePoint {s t : State} (h : EngineMoved s t) (hs : s.Inv) (hp : s.ShowsCurvePoint) :
    t.ShowsCurvePoint := by
  cases h with
  | advanced wk n f hn he => exact hp
  | ended wk op t hb hop ht => exact ht.showsCurvePoint (hs.ctrlRuns op hop)

/-! ### Instructions -/

theorem State.DataInv.ofOperands {s : State} (h : s.DataInv) (x0 x1 x2 x3 x4 : U256) (p q m d : Option Addr) :
    (s.withOperands x0 x1 x2 x3 x4 p q m d).DataInv := { h with }

theorem op?_firstPhase (op : Op) : (firstPhase op).op? = some op := by
  cases op <;> rfl

/-- The state in which a command starts (R38, R71). -/
theorem start_inv {s : State} (hd : s.DataInv) (op : Op) :
    ({ accept op.word s with fsm := firstPhase op } : State).Inv := by
  have hfirst : (firstPhase op).afterCheck = false ∧ (∀ r, firstPhase op ≠ .attempt r) ∧
      (∀ r, firstPhase op ≠ .fail r) ∧ firstPhase op ≠ .write := by cases op <;> simp [firstPhase, Fsm.afterCheck]
  obtain ⟨hcheck, hattempt, hfail, hwrite⟩ := hfirst
  refine State.inv_iff.2 ⟨Status.accepted_consistent s.status, { hd with }, ?_⟩
  exact
    { busyQuiet := fun _ => ⟨rfl, rfl⟩
      ctrlRuns := fun op' h => by
        rw [Option.some.inj ((op?_firstPhase op).symm.trans h)]
        rfl
      deriveLoaded := fun r hr => by simp [hattempt, hfail] at hr
      hintAddressed := fun h => by rw [hcheck] at h; cases h
      counterRange := fun r hr => by simp [hattempt, hwrite] at hr
      counterExhausted := fun r hr => absurd hr (hfail r)
      pendingAccepted := fun h => absurd h hwrite }

/-- An idle machine with other operands keeps the invariant, and BUSY = 1 keeps it with OVR set; a command ends or starts on
an accepted STATUS. -/
theorem Executed.inv {s t : State} {i : Instr} (h : Executed s i t) (hs : s.Inv) : t.Inv := by
  obtain ⟨hst, hd, he⟩ := State.inv_iff.1 hs
  cases h with
  | overrun _ hb hi => exact State.inv_iff.2 ⟨hst.withOvr true, { hd with }, { he with }⟩
  | clear _ hidle hi =>
    exact inv_of_idle (State.busy_eq_false.1 hidle) ((Status.accepted_consistent s.status).withOvr false) { hd with }
  | illegal _ w hidle =>
    have hend := CommandEnd.error (s := accept w s) .derive .illegalCmd (by decide)
    exact hend.inv rfl { hd with }
  | command _ op _ hidle hi ht => exact ht.inv rfl { hd with }
  | start w op hidle => exact start_inv hd op
  | load idx v x0 x1 x2 x3 x4 p q m d hidle =>
    exact inv_of_idle (State.busy_eq_false.1 hidle) hst (hd.ofOperands x0 x1 x2 x3 x4 p q m d)
  | read idx =>
    rcases busRead_cases (Reg.ofIndex idx) s with ⟨_, _, hread⟩ | ⟨_, hread⟩
    · rw [hread]; exact { hs with }
    · rw [hread]; exact { hs with }

theorem Executed.showsCurvePoint {s t : State} {i : Instr} (h : Executed s i t) (hp : s.ShowsCurvePoint) :
    t.ShowsCurvePoint := by
  cases h with
  | overrun _ hb hi => exact hp
  | clear _ hidle hi => intro hdone; simp at hdone
  | illegal _ w hidle => intro hdone; simp at hdone
  | command _ op _ hidle hi ht => exact ht.showsCurvePoint rfl
  | start w op hidle => intro hdone; simp at hdone
  | load idx v x0 x1 x2 x3 x4 p q m d hidle => exact hp
  | read idx =>
    rcases busRead_cases (Reg.ofIndex idx) s with ⟨_, _, hread⟩ | ⟨_, hread⟩
    · rw [hread]; exact hp
    · rw [hread]; exact hp

/-! ### The step -/

theorem State.Inv.withAgenda {s : State} (hs : s.Inv) (rest : List Turn) : ({ s with agenda := rest } : State).Inv :=
  { hs with }

theorem State.Inv.vmWrite {s : State} (hs : s.Inv) (a : Addr) (c : VmCell) :
    ({ s with vm := s.vm.set a c } : State).Inv := { hs with vmCanonical := Memory.set_wf hs.vmCanonical a c }

theorem hostVmWrite_next {a : Addr} {c : VmCell} {s t : State} (h : hostVmWrite a c s = .next t) :
    t = { s with vm := s.vm.set a c } := by
  unfold hostVmWrite at h
  split at h
  · cases h
  · exact (Host.Outcome.next.inj h).symm

/-- A property that the agenda does not matter to, and that the engine, the reset input, the host's writes to VM memory and
the instructions keep, is kept by every step. -/
theorem step_keeps {I : State → Prop} (hagenda : ∀ s rest, I s → I { s with agenda := rest })
    (hengine : ∀ s, I s → I (engineStep s)) (hreset : ∀ s, I s → I (resetCore s))
    (hvm : ∀ s a c, I s → I { s with vm := s.vm.set a c }) (hexec : ∀ s t i, I s → Executed s i t → I t)
    {s t : State} (hs : I s) (h : step s = .next t) : I t := by
  rcases step_next h with ⟨_, rfl⟩ | ⟨rest, _, rfl⟩ | ⟨rest, _, rfl⟩ | ⟨rest, a, c, _, hw⟩ | ⟨rest, r, i, _, _, hi⟩
  · exact hengine s hs
  · exact hengine _ (hagenda s rest hs)
  · exact hreset _ (hagenda s rest hs)
  · rw [hostVmWrite_next hw]
    exact hvm _ a c (hagenda s rest hs)
  · exact hexec _ t i (hagenda s rest hs) (exec_next hi)

theorem reset_status_consistent : State.reset.status.Consistent where
  doneErrApart := by decide
  codeIffErr := by decide
  codeInTable := by decide
  memberInfo := by decide
  iterRange := by decide
  iterExhausted := by decide
  iterZero := by decide

theorem reset_seed_felts : FeltSeed State.reset.seedBuf := by
  unfold FeltSeed
  decide +kernel

theorem reset_data : State.reset.DataInv where
  vmCanonical := reset_vm_wf
  out0Felt := by decide
  out1Felt := by decide
  seedUnloaded _ := rfl
  seedFelts := reset_seed_felts
  counterBound := by decide

theorem resetCore_inv {s : State} (hs : s.Inv) : (resetCore s).Inv :=
  inv_of_idle rfl reset_status_consistent { reset_data with vmCanonical := State.vmAfterReset_wf hs.vmCanonical }

/-- Settles O45. -/
theorem invariantHoldsAtReset : Obligations.InvariantHoldsAtReset :=
  inv_of_idle rfl reset_status_consistent reset_data

/-- Settles O46: the engine's phases by `engineStepWith_moved`, the instructions by the outcomes of `Executed`. -/
theorem stepKeepsInvariant : Obligations.StepKeepsInvariant := fun _ _ hs h =>
  step_keeps (I := State.Inv) (fun _ rest hs => hs.withAgenda rest)
    (fun _ hs => (engineStepWith_moved hs sha256).inv hs) (fun _ hs => resetCore_inv hs)
    (fun _ a c hs => hs.vmWrite a c) (fun _ _ _ hs hi => hi.inv hs) hs h

/-- Settles O47, together with the invariant, which says that the result HINT has pending is a point. -/
theorem stepKeepsCurvePoint : Obligations.StepKeepsCurvePoint := fun _ _ hs hp h =>
  (step_keeps (I := fun s => s.Inv ∧ s.ShowsCurvePoint) (fun _ rest ⟨hs, hp⟩ => ⟨hs.withAgenda rest, hp⟩)
    (fun _ ⟨hs, hp⟩ =>
      have hm := engineStepWith_moved hs sha256
      ⟨hm.inv hs, hm.showsCurvePoint hs hp⟩)
    (fun _ ⟨hs, _⟩ => ⟨resetCore_inv hs, fun hdone => by cases hdone⟩) (fun _ a c ⟨hs, hp⟩ => ⟨hs.vmWrite a c, hp⟩)
    (fun _ _ _ ⟨hs, hp⟩ hi => ⟨hi.inv hs, hi.showsCurvePoint hp⟩) ⟨hs, hp⟩ h).2

end Sys2Proof.Machine
end

section
/-!
PROOFS. What the host does beside the engine: OVR, the agenda, the value last read and the draws are not looked at by the
engine, and it leaves them alone (spec/10_state.md R33, spec/20_memory.md R61, R66).
-/

namespace Sys2Proof.Machine

open Sys2Proof.Config

/-- The state with other values of what only the host's turns write. -/
def State.withHost (s : State) (ovr : Bool) (agenda : List Turn) (rdata : Option BusValue) (draws : Nat) : State :=
  { s with status := { s.status with ovr := ovr }, agenda := agenda, rdata := rdata, draws := draws }

section Engine

variable (s : State) (ovr : Bool) (agenda : List Turn) (rdata : Option BusValue) (draws : Nat)

@[simp] theorem withHost_in0 : (s.withHost ovr agenda rdata draws).in0 = s.in0 := rfl
@[simp] theorem withHost_in1 : (s.withHost ovr agenda rdata draws).in1 = s.in1 := rfl
@[simp] theorem withHost_in2 : (s.withHost ovr agenda rdata draws).in2 = s.in2 := rfl
@[simp] theorem withHost_in3 : (s.withHost ovr agenda rdata draws).in3 = s.in3 := rfl
@[simp] theorem withHost_in4 : (s.withHost ovr agenda rdata draws).in4 = s.in4 := rfl
@[simp] theorem withHost_addrS : (s.withHost ovr agenda rdata draws).addrS = s.addrS := rfl
@[simp] theorem withHost_vm : (s.withHost ovr agenda rdata draws).vm = s.vm := rfl

/-- Of a choice between two states. -/
theorem ite_withHost {c : Prop} [Decidable c] {t u t' u' : State} (ht : t' = t.withHost ovr agenda rdata draws)
    (hu : u' = u.withHost ovr agenda rdata draws) :
    (if c then t' else u') = (if c then t else u).withHost ovr agenda rdata draws := by
  rw [ht, hu]
  exact (apply_ite (fun s : State => s.withHost ovr agenda rdata draws) c t u).symm

theorem raise_withHost (e : CoreError) :
    raise e (s.withHost ovr agenda rdata draws) = (raise e s).withHost ovr agenda rdata draws := by
  cases e <;> rfl

theorem execPhase_withHost (p : Primitive) :
    execPhase p (s.withHost ovr agenda rdata draws) = (execPhase p s).withHost ovr agenda rdata draws := by
  cases p with
  | modexp => rfl
  | crhs => rfl
  | qrtest =>
    simp only [execPhase, qrtestBody, withHost_in0]
    split
    · exact raise_withHost s ovr agenda rdata draws _
    · rfl
  | sqrt =>
    simp only [execPhase, sqrtBody, withHost_in0]
    split
    · exact raise_withHost s ovr agenda rdata draws _
    · exact ite_withHost ovr agenda rdata draws rfl rfl
  | serialize =>
    simp only [execPhase, serializeBody, withHost_in0, withHost_in1, withHost_in2, withHost_in3, withHost_in4]
    split
    · exact raise_withHost s ovr agenda rdata draws _
    · rfl

theorem seedHashPhase_withHost (H : Hash) (r : Requester) :
    seedHashPhase H r (s.withHost ovr agenda rdata draws) = (seedHashPhase H r s).withHost ovr agenda rdata draws := by
  unfold seedHashPhase
  refine ite_withHost ovr agenda rdata draws rfl ?_
  cases r <;> rfl

theorem attemptPhase_withHost (H : Hash) (r : Requester) :
    attemptPhase H r (s.withHost ovr agenda rdata draws) = (attemptPhase H r s).withHost ovr agenda rdata draws := by
  have hnext : (s.withHost ovr agenda rdata draws).nextCandidate H = s.nextCandidate H := rfl
  cases hq : isQr (curveRhs (s.nextCandidate H)) with
  | true =>
    cases r with
    | derive =>
      rw [attemptPhase_derive_of_accepted hq, attemptPhase_derive_of_accepted (by rw [hnext, hq])]
      rfl
    | hint =>
      rw [attemptPhase_hint_of_accepted hq, attemptPhase_hint_of_accepted (by rw [hnext, hq])]
      rfl
  | false =>
    rw [attemptPhase_of_rejected hq, attemptPhase_of_rejected (by rw [hnext, hq])]
    rfl

theorem checkPhase_withHost :
    checkPhase (s.withHost ovr agenda rdata draws) = (checkPhase s).withHost ovr agenda rdata draws := by
  unfold checkPhase
  exact ite_withHost ovr agenda rdata draws rfl rfl

theorem readPhase_withHost (k : Fin 5) :
    readPhase k (s.withHost ovr agenda rdata draws) = (readPhase k s).withHost ovr agenda rdata draws := by
  have htarget : (s.withHost ovr agenda rdata draws).readTarget k = s.readTarget k := rfl
  unfold readPhase
  rw [htarget]
  cases s.readTarget k with
  | none => rfl
  | some target =>
    obtain ⟨a, e⟩ := target
    have hread : (s.withHost ovr agenda rdata draws).vm.readInt a e = s.vm.readInt a e := rfl
    simp only [hread]
    cases s.vm.readInt a e with
    | error e => exact raise_withHost s ovr agenda rdata draws e
    | ok v => rfl

theorem writePhase_withHost :
    writePhase (s.withHost ovr agenda rdata draws) = (writePhase s).withHost ovr agenda rdata draws := by
  have hpoint : (s.withHost ovr agenda rdata draws).pendingPoint = s.pendingPoint := rfl
  simp only [writePhase, finishHint, withHost_addrS, withHost_vm, hpoint]
  split
  · rfl
  · split
    · rfl
    · rfl

/-- The engine does not look at what the host's turns write, and leaves it alone. -/
theorem engineStepWith_withHost (H : Hash) :
    engineStepWith H (s.withHost ovr agenda rdata draws) = (engineStepWith H s).withHost ovr agenda rdata draws := by
  have hfsm : (s.withHost ovr agenda rdata draws).fsm = s.fsm := rfl
  unfold engineStepWith
  rw [hfsm]
  cases s.fsm with
  | idle => rfl
  | exec p => exact execPhase_withHost s ovr agenda rdata draws p
  | seedHash r => exact seedHashPhase_withHost s ovr agenda rdata draws H r
  | attempt r => exact attemptPhase_withHost s ovr agenda rdata draws H r
  | fail r => rfl
  | check => exact checkPhase_withHost s ovr agenda rdata draws
  | read k => exact readPhase_withHost s ovr agenda rdata draws k
  | write => exact writePhase_withHost s ovr agenda rdata draws

end Engine

/-- The engine keeps OVR, the agenda, the value last read and the draws. -/
theorem engineStep_withHost_self (s : State) :
    (engineStep s).withHost s.status.ovr s.agenda s.rdata s.draws = engineStep s :=
  (engineStepWith_withHost s s.status.ovr s.agenda s.rdata s.draws sha256).symm

theorem engineStep_ovr (s : State) : (engineStep s).status.ovr = s.status.ovr :=
  (congrArg (·.status.ovr) (engineStep_withHost_self s)).symm

theorem engineStep_agenda (s : State) : (engineStep s).agenda = s.agenda := engineStepWith_agenda sha256 s

theorem engineStep_rdata (s : State) : (engineStep s).rdata = s.rdata :=
  (congrArg State.rdata (engineStep_withHost_self s)).symm

theorem engineStep_draws (s : State) : (engineStep s).draws = s.draws :=
  (congrArg State.draws (engineStep_withHost_self s)).symm

/-- An engine step after OVR was set gives what it gives without it, but for OVR. -/
theorem engineStep_overrun (s : State) :
    engineStep (overrun s) = { engineStep s with status := { (engineStep s).status with ovr := true } } :=
  calc engineStep (overrun s)
      = (engineStep s).withHost true s.agenda s.rdata s.draws := engineStepWith_withHost s _ _ _ _ sha256
    _ = (engineStep s).withHost true (engineStep s).agenda (engineStep s).rdata (engineStep s).draws := by
        rw [engineStep_agenda, engineStep_rdata, engineStep_draws]

/-- An engine step after a read gives what it gives without it, but for the value read and the draws. -/
theorem engineStep_busRead (r : Reg) (s : State) :
    engineStep (busRead r s) = { engineStep s with rdata := (busRead r s).rdata, draws := (busRead r s).draws } := by
  have hread : busRead r s = s.withHost s.status.ovr s.agenda (busRead r s).rdata (busRead r s).draws := by
    rcases busRead_cases r s with ⟨_, _, h⟩ | ⟨_, h⟩ <;> rw [h] <;> rfl
  calc engineStep (busRead r s)
      = (engineStep s).withHost s.status.ovr s.agenda (busRead r s).rdata (busRead r s).draws := by
        conv_lhs => rw [hread]
        exact engineStepWith_withHost s _ _ _ _ sha256
    _ = (engineStep s).withHost (engineStep s).status.ovr (engineStep s).agenda (busRead r s).rdata
          (busRead r s).draws := by
        rw [engineStep_ovr, engineStep_agenda]

/-- Settles O51. -/
theorem hostTransactionsDoNotDisturbTheEngine : Obligations.HostTransactionsDoNotDisturbTheEngine := fun s =>
  ⟨fun hb =>
    ⟨fun _ hwf hread => ⟨overrun s, exec_of_busy hb hwf hread, engineStep_overrun s⟩,
      fun idx => ⟨busRead (Reg.ofIndex idx) s, rfl, engineStep_busRead _ s⟩⟩,
    fun ovr agenda rdata draws => engineStepWith_withHost s ovr agenda rdata draws sha256⟩

end Sys2Proof.Machine
end

section
/-!
PROOFS. The host's transactions: reads and the register map, writes while BUSY = 1, the STATUS word, the host's own writes to
VM memory, and the step that runs an instruction (spec/10_state.md R20, R29, R33, spec/43_control.md R118).
-/

namespace Sys2Proof.Machine

open Sys2Proof.Config

/-! ### The step and the values of reset -/

/-- A HOST_WR whose value is of another type does not decode (R21, R68). -/
theorem decode_wrong_type {idx : BitVec 6} {v : BusValue} (h : v.type ≠ busType idx) :
    decode (.bus (busHeader true idx) (some v)) = .error .wrongValueType := by
  obtain ⟨hres, hwrite, hidx⟩ := Laws.busHeader_fields true idx
  simp [decode, decodeBus, hres, hwrite, hidx, h]

theorem step_raw {s : State} {r : Raw} {rest : List Turn} (h : s.agenda = .raw r :: rest) :
    step s = runRaw r { s with agenda := rest } := by simp [step, h, runTurn]

theorem runRaw_ok {r : Raw} {i : Instr} (h : decode r = .ok i) (s : State) : runRaw r s = exec i s := by
  simp [runRaw, h]

/-- Settles O6. -/
theorem wrongValueTypeIsRefused : Obligations.WrongValueTypeIsRefused := fun s idx v h =>
  ⟨if_neg h, fun rest hag => by simp [step_raw hag, runRaw, decode_wrong_type h]⟩

theorem decode_rawOfTableWord {nbits w : Nat} {i : Instr} (h : decodeTableWord nbits w = some i) :
    decode (rawOfTableWord nbits w) = .ok i := by
  unfold decodeTableWord at h
  split at h
  · rename_i hd
    rw [hd, Option.some.inj h]
  · cases h

/-- Settles O7. -/
theorem stepRunsDecodedInstruction : Obligations.StepRunsDecodedInstruction :=
  ⟨fun s _ _ rest hag hd => by rw [step_raw hag, runRaw_ok hd],
    fun s nbits w i h => by
      have hag : (s.withFetchWord nbits w).agenda = .raw (rawOfTableWord nbits w) :: s.agenda := rfl
      rw [step_raw hag, runRaw_ok (decode_rawOfTableWord h)]
      rfl⟩

/-- Settles O42. -/
theorem resetValues : Obligations.ResetValues := by
  refine ⟨rfl, ?_, rfl, rfl, rfl, rfl, rfl, rfl, rfl, rfl, ?_, rfl, rfl, rfl, rfl, rfl, rfl, rfl⟩
  · decide
  · decide +kernel

/-- Settles O27: each bit is found in the concatenation that makes up the word. -/
theorem statusWordLayout : Obligations.StatusWordLayout := by
  intro s
  have hbusy : s.statusWord.getLsbD 0 = s.busy := by
    simp only [State.statusWord, Status.word, BitVec.getLsbD_append]
    simp
  refine ⟨by rw [hbusy, State.busy_eq_true], ?_, ?_, ?_, ?_, ?_, ?_, ?_, ?_, ?_, ?_, ?_, ?_⟩
  case refine_6 | refine_7 | refine_10 | refine_11 | refine_12 =>
    ext i hi
    simp only [BitVec.getElem_extractLsb', State.statusWord, Status.word, BitVec.getLsbD_append]
    interval_cases i <;> simp
  all_goals
    simp only [State.statusWord, Status.word, BitVec.getLsbD_append]
    simp

/-! ### Writes while BUSY = 1 -/

/-- Settles O11. -/
theorem writesWhileBusyOnlySetOvr : Obligations.WritesWhileBusyOnlySetOvr := fun _ _ hb hwf hi => exec_of_busy hb hwf hi

/-! ### Reads -/

/-- The registers in the order of their indices; the indices above are reserved (R20, R28). -/
def Reg.mapped : List Reg :=
  [.ctrl, .status, .in0, .in1, .in2, .in3, .in4, .out0, .out1, .hseed, .seed0, .seed1, .seed2, .seed3, .seed4, .ap, .aq,
    .am, .as]

theorem ofIndex_eq : ∀ idx : BitVec 6, Reg.ofIndex idx = Reg.mapped[idx.toNat]?.getD .reserved := by decide

theorem isResultReg_ofIndex :
    ∀ idx : BitVec 6, isResultReg (Reg.ofIndex idx) = true ↔ 0x07 ≤ idx.toNat ∧ idx.toNat ≤ 0x0E := by decide

/-- The value of a register whose index lies in a slice of the map. -/
theorem regValue_of_slice {s : State} {idx : BitVec 6} {k n : Nat} {v : BusValue} (hk : k ≤ idx.toNat)
    (h : (((Reg.mapped.drop k).take n).map s.regValue)[idx.toNat - k]? = some v) :
    s.regValue (Reg.ofIndex idx) = v ∧ idx.toNat < k + n := by
  rw [List.getElem?_map, List.getElem?_take] at h
  split at h
  · rw [List.getElem?_drop, Nat.add_sub_cancel' hk] at h
    obtain ⟨r, hr, hv⟩ := Option.map_eq_some_iff.1 h
    refine ⟨?_, by omega⟩
    rw [ofIndex_eq, hr]
    exact hv
  · cases h

theorem exec_hostRd_exact {s : State} {idx : BitVec 6} {v : BusValue} (hv : s.regValue (Reg.ofIndex idx) = v)
    (h : s.busy = false ∨ ¬ (0x07 ≤ idx.toNat ∧ idx.toNat ≤ 0x0E)) :
    exec (.hostRd idx) s = .next { s with rdata := some v } := by
  have hread : exec (.hostRd idx) s = .next (busRead (Reg.ofIndex idx) s) := rfl
  rcases busRead_cases (Reg.ofIndex idx) s with ⟨hb, hr, _⟩ | ⟨_, hexact⟩
  · rcases h with h | h
    · rw [hb] at h; cases h
    · exact absurd ((isResultReg_ofIndex idx).1 hr) h
  · rw [hread, hexact, hv]

/-- Settles O26: each clause is a slice of the register map. -/
theorem hostReadResult : Obligations.HostReadResult := by
  intro s idx
  refine ⟨fun v h => ?_, fun v hlow h => ?_, fun hlow => ?_, fun v hlow hb h => ?_, fun hlow hhigh hb => ?_⟩
  · obtain ⟨hv, hlt⟩ := regValue_of_slice (k := 0) (n := 7) (Nat.zero_le _) h
    exact exec_hostRd_exact hv (.inr (by omega))
  · obtain ⟨hv, _⟩ := regValue_of_slice (k := 0x0F) (n := 4) hlow h
    exact exec_hostRd_exact hv (.inr (by omega))
  · have hnone : Reg.mapped[idx.toNat]? = none := List.getElem?_eq_none hlow
    exact exec_hostRd_exact (by rw [ofIndex_eq, hnone]; rfl) (.inr (by omega))
  · have h' := congrArg (Option.map BusValue.u256) h
    rw [← List.getElem?_map] at h'
    obtain ⟨hv, _⟩ := regValue_of_slice (k := 0x07) (n := 8) hlow h'
    exact exec_hostRd_exact hv (.inl hb)
  · rcases busRead_cases (Reg.ofIndex idx) s with ⟨_, _, hdraw⟩ | ⟨hidle | hno, _⟩
    · exact ⟨Config.busyRead s.draws, congrArg Host.Outcome.next hdraw⟩
    · rw [hb] at hidle; cases hidle
    · rw [(isResultReg_ofIndex idx).2 ⟨hlow, hhigh⟩] at hno; cases hno

/-! ### The host's own writes to VM memory -/

/-- The cells of a HINT: AP, AP+1, AQ, AQ+1, AM, AS and AS+1 (R142). -/
theorem mem_hintCells {s : State} {a : Addr} :
    a ∈ s.hintCells ↔ (s.addrP = some a ∨ s.addrQ = some a ∨ s.addrM = some a ∨ s.addrS = some a ∨
      ∃ b, a = s.vm.addrAdd b 1 ∧ (s.addrP = some b ∨ s.addrQ = some b ∨ s.addrS = some b)) := by
  have hpair : ∀ o : Option Addr, (a ∈ o.toList.flatMap fun b => [s.vm.memberX b, s.vm.memberY b]) ↔
      o = some a ∨ ∃ b, a = s.vm.addrAdd b 1 ∧ o = some b := by
    intro o
    cases o with
    | none => simp
    | some b => simp [Memory.memberY, eq_comm]
  have hscalar : ∀ o : Option Addr, a ∈ o.toList.map s.vm.memberX ↔ o = some a := by
    intro o
    cases o with
    | none => simp
    | some b => simp [eq_comm]
  simp only [State.hintCells, List.mem_append, hpair, hscalar, and_or_left, exists_or]
  simp only [or_assoc, or_left_comm]

theorem step_vmWrite {s : State} {a : Addr} {c : VmCell} {rest : List Turn} (h : s.agenda = .vmWrite a c :: rest) :
    step s = hostVmWrite a c { s with agenda := rest } := by simp [step, h, runTurn]

/-- Settles O33. -/
theorem hostVmWriteKeepsOffHintCells : Obligations.HostVmWriteKeepsOffHintCells := by
  intro s a c rest hwf hag hintCell hcell
  rw [← mem_hintCells] at hcell
  have hsame : ({ s with agenda := rest } : State).hintCells = s.hintCells ∧
      ({ s with agenda := rest } : State).busy = s.busy := ⟨rfl, rfl⟩
  rw [step_vmWrite hag]
  refine ⟨fun hb hc => ?_, fun hfree => ⟨s.vm.set a c, ?_, Memory.set_wf hwf a c, ?_, fun b hb => ?_⟩⟩
  · simp [hostVmWrite, hsame, hb, hcell.1 hc]
  · have hno : ¬ (s.busy && s.hintCells.contains a) = true := by
      rcases hfree with hb | hc
      · simp [hb]
      · simp [← hcell, hc]
    exact if_neg hno
  · rw [Memory.read_set hwf, if_pos rfl]
  · rw [Memory.read_set hwf, if_neg hb]

end Sys2Proof.Machine
end

section
/-!
PROOFS. What steps leave alone: errors are precise (spec/60_exceptions.md R122), OVR and SEED_VALID are set and cleared only
as spec/10_state.md R33 and R34 say, and turns that keep the hazards of spec/70_reset_and_hazards.md set no OVR and draw
nothing.
-/

namespace Sys2Proof.Machine

open Sys2Proof.Config

/-! ### Errors -/

/-- A command that ends in error changes only STATUS and the engine's control state, and the counter only when its derivation
has run (R120, R122). -/
theorem CommandEnd.precise {s t : State} {op : Op} (h : CommandEnd s op t) (herr : t.status.err = true) :
    { t with status := s.status, icnt := s.icnt } = { s with fsm := .idle } ∧ t.status.ovr = s.status.ovr ∧
      t.status.seedValid = s.status.seedValid ∧ t.status.sign = s.status.sign ∧
      (t.status.errcode ≠ 8 → t.status.errcode ≠ 9 → t.icnt = s.icnt) := by
  cases h with
  | error _ e he => exact ⟨rfl, by simp, by simp, by simp, fun _ _ => rfl⟩
  | exhausted => exact ⟨rfl, by simp, by simp, by simp, fun h8 _ => absurd rfl h8⟩
  | writeRejected n hn => exact ⟨rfl, by simp, by simp, by simp, fun _ h9 => absurd rfl h9⟩
  | result p n hn => simp at herr
  | serialized buf hbuf => simp at herr
  | derived p hp => simp at herr
  | hinted p hp buf hbuf vm hvm => simp at herr

/-- Settles O28: of the outcomes of an instruction, a command's end in error and an illegal word show ERR. -/
theorem errorsArePrecise : Obligations.ErrorsArePrecise := by
  intro i s t hwr hrd hidle h herr
  have hfsm : { s with fsm := .idle } = s := by rw [← State.busy_eq_false.1 hidle]
  have hend : ∀ (w : U32) (op : Op), CommandEnd (accept w s) op t →
      { t with ctrl := s.ctrl, status := s.status, icnt := s.icnt } = s ∧ t.status.ovr = s.status.ovr ∧
        t.status.seedValid = s.status.seedValid ∧ t.status.sign = s.status.sign ∧
        (t.status.errcode ≠ 8 → t.status.errcode ≠ 9 → t.icnt = s.icnt) := fun w op ht => by
    obtain ⟨hframe, hrest⟩ := ht.precise herr
    have hs := congrArg (fun u : State => { u with ctrl := s.ctrl, status := s.status }) hframe
    exact ⟨hs.trans hfsm, hrest⟩
  cases exec_next h with
  | overrun _ hb hi => rw [hidle] at hb; cases hb
  | clear _ _ hi => cases herr
  | illegal _ w _ => exact hend w .derive (.error _ .illegalCmd (by decide))
  | command _ op _ _ hi ht => exact hend _ op ht
  | start w op _ => exact absurd rfl (hwr _ _)
  | load idx v => exact absurd rfl (hwr _ _)
  | read idx => exact absurd rfl (hrd _)

/-! ### OVR -/

theorem busRead_status (r : Reg) (s : State) : (busRead r s).status = s.status := by
  rcases busRead_cases r s with ⟨_, _, h⟩ | ⟨_, h⟩ <;> rw [h]

/-- An instruction changes OVR only as a write while BUSY = 1 or as a CLEAR while BUSY = 0 (R33). -/
theorem Executed.ovr_cases {s t : State} {i : Instr} (h : Executed s i t) :
    t.status.ovr = s.status.ovr ∨ (s.busy = true ∧ (∀ idx, i ≠ .hostRd idx) ∧ t.status.ovr = true) ∨
      (s.busy = false ∧ (i = .clear ∨ i = .hostWr 0 (.u32 0)) ∧ t.status.ovr = false) := by
  cases h with
  | overrun _ hb hi => exact .inr (.inl ⟨hb, hi, rfl⟩)
  | clear _ hidle hi => exact .inr (.inr ⟨hidle, hi, rfl⟩)
  | illegal _ w hidle => exact .inl rfl
  | command _ op _ hidle hi ht => exact .inl ht.ovr
  | start w op hidle => exact .inl rfl
  | load => exact .inl rfl
  | read idx => exact .inl (congrArg Status.ovr (busRead_status _ s))

theorem decodeCmd_eq_clear {w : U32} (h : decodeCmd w = .clear) : w = 0 := by
  rcases decodeCmd_cases w with ⟨hw, _⟩ | ⟨op, _, hop⟩ | hill
  · exact hw
  · rw [h] at hop; cases hop
  · rw [h] at hill; cases hill

theorem decodeCmd_ne_hostWr (w : U32) (idx : BitVec 6) (v : BusValue) : decodeCmd w ≠ .hostWr idx v := by
  intro h
  rcases decodeCmd_cases w with ⟨_, hclear⟩ | ⟨op, _, hop⟩ | hill
  · rw [h] at hclear; cases hclear
  · rw [h] at hop; cases hop
  · rw [h] at hill; cases hill

/-- A bus transaction decodes to a bus operation, by its WE bit (R68). -/
theorem decode_bus_cases {h : BitVec 8} {data : Option BusValue} {i : Instr} (hd : decode (.bus h data) = .ok i) :
    headerReserved h = false ∧
      ((headerWrite h = true ∧ ∃ v, data = some v ∧ i = .hostWr (headerIndex h) v) ∨
        (headerWrite h = false ∧ i = .hostRd (headerIndex h))) := by
  simp only [decode, decodeBus] at hd
  split at hd
  · cases hd
  · rename_i hres
    refine ⟨Bool.eq_false_iff.2 hres, ?_⟩
    split at hd
    · rename_i hwrite
      cases data with
      | none => cases hd
      | some v =>
        dsimp only at hd
        split at hd
        · exact .inl ⟨hwrite, v, rfl, (Except.ok.inj hd).symm⟩
        · cases hd
    · rename_i hwrite
      cases data with
      | none => exact .inr ⟨Bool.eq_false_iff.2 hwrite, (Except.ok.inj hd).symm⟩
      | some v => cases hd

theorem eq_busHeader_of_fields :
    ∀ h : BitVec 8, headerReserved h = false → h = busHeader (headerWrite h) (headerIndex h) := by decide

/-- CLEAR comes as its command word, or as a write of it to CTRL (R76). -/
theorem decode_eq_clear {r : Raw} {i : Instr} (hd : decode r = .ok i) (hi : i = .clear ∨ i = .hostWr 0 (.u32 0)) :
    r = .command 0 ∨ r = .bus 0x80 (some (.u32 0)) := by
  cases r with
  | command w =>
    have hw : decodeCmd w = i := Except.ok.inj hd
    rcases hi with rfl | rfl
    · exact .inl (by rw [decodeCmd_eq_clear hw])
    · exact absurd hw (decodeCmd_ne_hostWr w _ _)
  | bus h data =>
    obtain ⟨hres, ⟨hwrite, v, rfl, rfl⟩ | ⟨_, rfl⟩⟩ := decode_bus_cases hd
    · rcases hi with hi | hi
      · cases hi
      · obtain ⟨hidx, rfl⟩ := Instr.hostWr.inj hi
        have hheader : h = busHeader true 0 := by rw [eq_busHeader_of_fields h hres, hwrite, hidx]
        exact .inr (by rw [hheader]; rfl)
    · rcases hi with hi | hi <;> cases hi

theorem decode_hostWr {idx : BitVec 6} {v : BusValue} (h : v.type = busType idx) :
    decode (.bus (busHeader true idx) (some v)) = .ok (.hostWr idx v) := by
  obtain ⟨hres, hwrite, hidx⟩ := Laws.busHeader_fields true idx
  simp [decode, decodeBus, hres, hwrite, hidx, h]

/-- Settles O48. -/
theorem ovrIsSetByWritesWhileBusyAndCleared : Obligations.OvrIsSetByWritesWhileBusyAndCleared := by
  refine ⟨fun s idx v rest hb htype hag => ?_, fun s t h hset hclear => ?_⟩
  · have hwf : (Instr.hostWr idx v).wf = true := beq_iff_eq.2 htype
    have hb' : ({ s with agenda := rest } : State).busy = true := hb
    rw [step_raw hag, runRaw_ok (decode_hostWr htype), exec_of_busy hb' hwf (by simp)]
    rfl
  · have hkept : t.status.ovr ≠ s.status.ovr := by rw [hset, hclear]; decide
    rcases step_next h with
      ⟨_, rfl⟩ | ⟨rest, _, rfl⟩ | ⟨rest, hag, rfl⟩ | ⟨rest, a, c, _, hw⟩ | ⟨rest, r, i, hag, hd, hi⟩
    · exact absurd (engineStep_ovr s) hkept
    · exact absurd (engineStep_ovr _) hkept
    · exact ⟨rest, .inl hag⟩
    · rw [hostVmWrite_next hw] at hkept
      exact absurd rfl hkept
    · rcases (exec_next hi).ovr_cases with heq | ⟨_, _, hovr⟩ | ⟨hidle, hi, _⟩
      · exact absurd heq hkept
      · rw [hclear] at hovr; cases hovr
      · refine ⟨rest, .inr ⟨hidle, ?_⟩⟩
        rcases decode_eq_clear hd hi with rfl | rfl
        · exact .inl hag
        · exact .inr hag

/-! ### SEED_VALID -/

/-- SEED_VALID after a step is as it was, or set by a SERIALIZE or a HINT (R34). -/
def State.KeepsOrLoadsSeed (s t : State) : Prop :=
  t.status.seedValid = s.status.seedValid ∨
    (t.status.seedValid = true ∧ (t.ctrl = (Op.prim .serialize).word ∨ t.ctrl = Op.hint.word))

theorem CommandEnd.keepsOrLoadsSeed {s t : State} {op : Op} (h : CommandEnd s op t) (hctrl : s.ctrl = op.word) :
    s.KeepsOrLoadsSeed t := by
  cases h with
  | error _ e he => exact .inl (by simp)
  | exhausted => exact .inl (by simp)
  | writeRejected n hn => exact .inl (by simp)
  | result p n hn => exact .inl rfl
  | serialized buf hbuf => exact .inr ⟨rfl, .inl hctrl⟩
  | derived p hp => exact .inl rfl
  | hinted p hp buf hbuf vm hvm => exact .inr ⟨rfl, .inr hctrl⟩

theorem EngineMoved.keepsOrLoadsSeed {s t : State} (h : EngineMoved s t) (hs : s.Inv) : s.KeepsOrLoadsSeed t := by
  cases h with
  | advanced wk n f hn he => exact .inl rfl
  | ended wk op t hb hop ht => exact ht.keepsOrLoadsSeed (hs.ctrlRuns op hop)

theorem Executed.keepsOrLoadsSeed {s t : State} {i : Instr} (h : Executed s i t) : s.KeepsOrLoadsSeed t := by
  cases h with
  | overrun _ hb hi => exact .inl rfl
  | clear _ hidle hi => exact .inl rfl
  | illegal _ w hidle => exact .inl rfl
  | command _ op _ hidle hi ht => exact ht.keepsOrLoadsSeed rfl
  | start w op hidle => exact .inl rfl
  | load => exact .inl rfl
  | read idx => exact .inl (congrArg Status.seedValid (busRead_status _ s))

/-- No phase of the engine clears SEED_VALID, in any state. -/
theorem engineStepWith_seedValid (H : Hash) {s : State} (hv : s.status.seedValid = true) :
    (engineStepWith H s).status.seedValid = true := by
  cases hf : s.fsm with
  | idle => rw [engineStepWith_idle hf, hv]
  | exec p =>
    rw [engineStepWith_exec hf]
    rcases execPhase_cases p s with ⟨_, h⟩ | ⟨_, h⟩ | ⟨_, h⟩ <;> simp [h, hv]
  | seedHash r =>
    rw [engineStepWith_seedHash hf]
    rcases seedHashPhase_cases H r s with ⟨_, _, h⟩ | h <;> simp [h, hv, State.holdDigest]
  | attempt r =>
    rw [engineStepWith_attempt hf]
    rcases attemptPhase_cases H r s with h | h | h <;> simp [h, hv, State.holdAccepted, State.holdRejected]
  | fail r => rw [engineStepWith_fail hf]; simp [hv]
  | check =>
    rw [engineStepWith_check hf]
    rcases checkPhase_cases s with h | h <;> simp [h, hv]
  | read k =>
    rw [engineStepWith_read hf]
    rcases readPhase_cases k s with ⟨_, h⟩ | ⟨_, h⟩ <;> simp [h, hv]
  | write =>
    rw [engineStepWith_write hf]
    rcases writePhase_cases s with ⟨_, h⟩ | ⟨_, _, _, h⟩ <;> simp [h, hv]

theorem State.KeepsOrLoadsSeed.not_cleared {s t : State} (h : s.KeepsOrLoadsSeed t) (hv : s.status.seedValid = true) :
    t.status.seedValid = true := by
  rcases h with h | ⟨h, _⟩
  · rw [h, hv]
  · exact h

theorem State.KeepsOrLoadsSeed.loaded {s t : State} (h : s.KeepsOrLoadsSeed t) (hv : s.status.seedValid = false)
    (hv' : t.status.seedValid = true) : t.ctrl = (Op.prim .serialize).word ∨ t.ctrl = Op.hint.word := by
  rcases h with h | ⟨_, h⟩
  · rw [h, hv] at hv'; cases hv'
  · exact h

/-- A step that is no reset does not clear SEED_VALID, and in a reachable state sets it only by a SERIALIZE or a HINT. -/
theorem step_seedValid {s t : State} (h : step s = .next t) :
    (∃ rest, s.agenda = .reset :: rest ∧ t.status.seedValid = false) ∨
      ((s.status.seedValid = true → t.status.seedValid = true) ∧ (s.Inv → s.KeepsOrLoadsSeed t)) := by
  rcases step_next h with ⟨_, rfl⟩ | ⟨rest, _, rfl⟩ | ⟨rest, hag, rfl⟩ | ⟨rest, a, c, _, hw⟩ | ⟨rest, r, i, _, _, hi⟩
  · exact .inr ⟨engineStepWith_seedValid sha256, fun hs => (engineStepWith_moved hs sha256).keepsOrLoadsSeed hs⟩
  · refine .inr ⟨engineStepWith_seedValid (s := { s with agenda := rest }) sha256, fun hs => ?_⟩
    have hs' := hs.withAgenda rest
    exact (engineStepWith_moved hs' sha256).keepsOrLoadsSeed hs'
  · exact .inl ⟨rest, hag, rfl⟩
  · rw [hostVmWrite_next hw]
    exact .inr ⟨id, fun _ => .inl rfl⟩
  · have hk := (exec_next hi).keepsOrLoadsSeed
    exact .inr ⟨hk.not_cleared, fun _ => hk⟩

/-- Settles O49. -/
theorem seedValidIsClearedOnlyByReset : Obligations.SeedValidIsClearedOnlyByReset := by
  intro s t h
  rcases step_seedValid h with ⟨rest, hag, hreset⟩ | ⟨hkept, hloaded⟩
  · refine ⟨fun _ _ => ⟨rest, hag⟩, fun _ _ hset => ?_⟩
    rw [hreset] at hset
    cases hset
  · refine ⟨fun hv hclear => ?_, fun hs => (hloaded hs).loaded⟩
    rw [hkept hv] at hclear
    cases hclear

/-! ### Turns that keep the hazards -/

/-- A transaction of a turn that keeps the hazards is no write while BUSY = 1, and no read of a result register then (R139,
R140). -/
theorem keepsHazards_raw {s : State} {r : Raw} {i : Instr} (hk : (Turn.raw r).keepsHazards s = true)
    (hd : decode r = .ok i) (hb : s.busy = true) :
    ∃ idx, i = .hostRd idx ∧ isResultReg (Reg.ofIndex idx) = false := by
  cases r with
  | command w => simp [Turn.keepsHazards, hb] at hk
  | bus h data =>
    simp only [Turn.keepsHazards, hb, Bool.not_true, Bool.false_or, Bool.and_eq_true, Bool.not_eq_true'] at hk
    obtain ⟨hread, hreg⟩ := hk
    obtain ⟨_, ⟨hwrite, _⟩ | ⟨_, rfl⟩⟩ := decode_bus_cases hd
    · rw [hread] at hwrite; cases hwrite
    · exact ⟨_, rfl, hreg⟩

/-- Of the instructions only a read of a result register while BUSY = 1 draws a value (R118). -/
theorem Executed.draws {s t : State} {i : Instr} (h : Executed s i t)
    (hread : s.busy = true → ∀ idx, i = .hostRd idx → isResultReg (Reg.ofIndex idx) = false) : t.draws = s.draws := by
  cases h with
  | overrun _ hb hi => rfl
  | clear _ hidle hi => rfl
  | illegal _ w hidle => rfl
  | command _ op _ hidle hi ht => exact ht.draws
  | start w op hidle => rfl
  | load => rfl
  | read idx =>
    rcases busRead_cases (Reg.ofIndex idx) s with ⟨hb, hr, _⟩ | ⟨_, h⟩
    · rw [hread hb idx rfl] at hr; cases hr
    · rw [h]

theorem decode_hostRd (idx : BitVec 6) : decode (.bus (busHeader false idx) none) = .ok (.hostRd idx) := by
  obtain ⟨hres, hwrite, hidx⟩ := Laws.busHeader_fields false idx
  simp [decode, decodeBus, hres, hwrite, hidx]

theorem regValue_agenda (s : State) (rest : List Turn) (r : Reg) :
    ({ s with agenda := rest } : State).regValue r = s.regValue r := by
  cases r <;> rfl

/-- Settles O55, by the kind of turn. -/
theorem hazardFreeTurnsKeepOvrClearAndReadExactly : Obligations.HazardFreeTurnsKeepOvrClearAndReadExactly := by
  intro s t turn rest hag hk h
  have hturn : runTurn turn { s with agenda := rest } = .next t := by simpa [step, hag] using h
  cases turn with
  | engine =>
    obtain rfl := Host.Outcome.next.inj hturn
    exact ⟨(engineStep_ovr { s with agenda := rest }).trans, fun _ hr => (by cases hr), fun _ => engineStep_draws _⟩
  | reset =>
    obtain rfl := Host.Outcome.next.inj hturn
    exact ⟨fun _ => rfl, fun _ hr => (by cases hr), fun hne => absurd rfl hne⟩
  | vmWrite a c =>
    rw [hostVmWrite_next hturn]
    exact ⟨id, fun _ hr => (by cases hr), fun _ => rfl⟩
  | raw r =>
    cases hd : decode r with
    | error e => simp [runTurn, runRaw, hd] at hturn
    | ok i =>
      have hi : exec i { s with agenda := rest } = .next t := (runRaw_ok hd _).symm.trans hturn
      refine ⟨fun hovr => ?_, fun idx hr => ?_, fun _ => (exec_next hi).draws fun hb idx hread => ?_⟩
      · rcases (exec_next hi).ovr_cases with heq | ⟨hb, hwrite, _⟩ | ⟨_, _, hclear⟩
        · exact heq.trans hovr
        · obtain ⟨idx, hread, _⟩ := keepsHazards_raw hk hd hb
          exact absurd hread (hwrite idx)
        · exact hclear
      · obtain rfl := Turn.raw.inj hr
        obtain rfl := Except.ok.inj (hd.symm.trans (decode_hostRd idx))
        have hexact : ({ s with agenda := rest } : State).busy = false ∨ ¬ (0x07 ≤ idx.toNat ∧ idx.toNat ≤ 0x0E) := by
          cases hb : s.busy with
          | false => exact .inl hb
          | true =>
            obtain ⟨idx', hsame, hreg⟩ := keepsHazards_raw hk hd hb
            obtain rfl := Instr.hostRd.inj hsame
            rw [← isResultReg_ofIndex, hreg]
            exact .inr Bool.false_ne_true
        rw [exec_hostRd_exact rfl hexact] at hi
        obtain rfl := Host.Outcome.next.inj hi
        exact congrArg some (regValue_agenda s rest _)
      · obtain ⟨idx', hsame, hreg⟩ := keepsHazards_raw hk hd hb
        obtain rfl := Instr.hostRd.inj (hread.symm.trans hsame)
        exact hreg

end Sys2Proof.Machine
end

section
/-!
PROOFS. The derivation and the two commands that run it (spec/41_point_derivation.md R93 to R105,
spec/42_marker_handler.md R107 to R112): what the sampling loop answers in the words of the rules, and the end states of
DERIVE and HINT.
-/

namespace Sys2Proof.Machine

open Sys2Proof.Config

/-! ### The sampling loop in the words of the rules -/

theorem candidateOf_eq (H : Hash) (d : Bytes 32) (i : Nat) : candidateOf H d i = candidate H d i := by
  simp [candidateOf, candidate, blockOf]

theorem rhsOf_eq (H : Hash) (d : Bytes 32) (i : Nat) : rhsOf H d i = curveRhs (candidate H d i) := by
  rw [rhsOf, candidateOf_eq, curveRhs_eq]

theorem square_rhsOf_iff {H : Hash} {d : Bytes 32} {i : Nat} :
    Square (rhsOf H d i) ↔ isQr (curveRhs (candidate H d i)) = true := by
  rw [rhsOf_eq, square_iff_isQr (curveRhs_lt _)]

/-- The derivation answers the first candidate whose right-hand side is a residue (R99). -/
theorem randomEcPoint_of_first {H : Hash} {seed : Bytes 160} {i : Nat} (hi : i < 100)
    (hq : Square (rhsOf H (H seed.val) i)) (hfirst : ∀ j < i, ¬ Square (rhsOf H (H seed.val) j)) :
    randomEcPoint H seed =
      some (pointOf (H seed.val) i (candidateOf H (H seed.val) i) (sqrtC (rhsOf H (H seed.val) i))) := by
  rw [candidateOf_eq, rhsOf_eq]
  rw [square_rhsOf_iff] at hq
  rcases search_spec H (H seed.val) nIter 0 with ⟨_, hall⟩ | ⟨j, _, _, hj, hbefore, hsome⟩
  · rw [hall i (Nat.zero_le _) (by simpa [nIter] using hi)] at hq
    cases hq
  · rcases Nat.lt_trichotomy i j with hlt | rfl | hgt
    · rw [hbefore i (Nat.zero_le _) hlt] at hq
      cases hq
    · exact hsome
    · exact absurd (square_rhsOf_iff.2 hj) (hfirst j hgt)

/-- The derivation answers none when no candidate's right-hand side is a residue (R101). -/
theorem randomEcPoint_of_exhausted {H : Hash} {seed : Bytes 160}
    (hno : ∀ j < 100, ¬ Square (rhsOf H (H seed.val) j)) : randomEcPoint H seed = none := by
  rcases search_spec H (H seed.val) nIter 0 with ⟨hnone, _⟩ | ⟨j, _, hlt, hj, _, _⟩
  · exact hnone
  · exact absurd (square_rhsOf_iff.2 hj) (hno j (by simpa [nIter] using hlt))

/-! ### DERIVE -/

theorem deriveBody_of_some {H : Hash} {s : State} {p : Point} (hv : s.status.seedValid = true)
    (h : randomEcPoint H s.seedBuf = some p) : deriveBody H s = completeOk (commitPoint p (countRejected p.i s)) := by
  simp [deriveBody, hv, h]

theorem deriveBody_of_none {H : Hash} {s : State} (hv : s.status.seedValid = true)
    (h : randomEcPoint H s.seedBuf = none) : deriveBody H s = raiseNotOnCurve (countRejected nIter s) := by
  simp [deriveBody, hv, h]

theorem deriveWith_of_idle {H : Hash} {s : State} (hs : s.busy = false) :
    deriveWith H s = .next (deriveBody H (accept 0x00000006 s)) := by
  rw [deriveWith, issue_idle hs]
  rfl

theorem hintWith_of_idle {H : Hash} {s : State} (hs : s.busy = false) :
    hintWith H s = .next (hintBody H (accept 0x00000007 s)) := by
  rw [hintWith, issue_idle hs]
  rfl

/-- Settles O20: the root is the canonical one. -/
theorem deriveResult : Obligations.DeriveResult := by
  rintro s d i hs hv rfl hi hq hfirst
  generalize hr : rhsOf sha256 (sha256 s.seedBuf.val) i = r at hq
  have hlt : r < P := by rw [← hr, rhsOf_eq]; exact curveRhs_lt _
  refine ⟨sqrtC r, sqrtC_le_half r, sqrtC_sq r hlt ((square_iff_isQr hlt).1 hq), ?_⟩
  have hpoint := randomEcPoint_of_first hi (hr ▸ hq) hfirst
  rw [hr] at hpoint
  have hy : (felt (applySign (sqrtC r) (signBit (sha256 s.seedBuf.val)))).val =
      if ((sha256 s.seedBuf.val).val.headD 0).getLsbD 0 then (P - sqrtC r) % P else sqrtC r :=
    Nat.mod_eq_of_lt (applySign_lt _ _ (sqrtC_lt r))
  change deriveWith sha256 s = _
  rw [deriveWith_of_idle hs, deriveBody_of_some (s := accept 0x00000006 s) hv hpoint, ← hy, State.busy_eq_false.1 hs]
  rfl

/-- Settles O21. -/
theorem deriveExhaustion : Obligations.DeriveExhaustion := by
  refine ⟨fun H s hs hv hno => ?_, fun s => rfl⟩
  have hnone := randomEcPoint_of_exhausted hno
  rw [deriveWith_of_idle hs, deriveBody_of_none (s := accept 0x00000006 s) hv hnone, State.busy_eq_false.1 hs]
  rfl

/-! ### HINT -/

theorem Memory.writePair_of_admits {m : Memory} {a : Addr} {v0 v1 : Felt} (h0 : m.admits a v0 = true)
    (h1 : m.admits (m.addrAdd a 1) v1 = true) :
    m.writePair a v0 v1 = some ((m.set a (.int v0)).set (m.addrAdd a 1) (.int v1)) := by
  simp [Memory.writePair, h0, h1]

theorem Memory.writePair_of_rejects {m : Memory} {a : Addr} {v0 v1 : Felt}
    (h : m.admits a v0 = false ∨ m.admits (m.addrAdd a 1) v1 = false) : m.writePair a v0 v1 = none := by
  rcases h with h | h <;> simp [Memory.writePair, h]

section Hint

variable {H : Hash} {s : State} {p q m dest : Addr} {i : Inputs} (hp : s.addrP = some p) (hq : s.addrQ = some q)
  (hm : s.addrM = some m) (hdest : s.addrS = some dest) (hread : readInputs s.vm p q m = .ok i)

include hp hq hm hdest hread

/-- HINT on addressed and readable inputs is the derivation from their bundle (R107, R110). -/
theorem hintBody_of_read : hintBody H s = endDerivation .hint i.bundle (randomEcPoint H i.bundle) s := by
  rw [hintBody_of_addressed hp hq hm hdest, hread]
  rfl

theorem hintBody_of_exhausted (h : randomEcPoint H i.bundle = none) :
    hintBody H s = raiseNotOnCurve (countRejected nIter s) := by
  rw [hintBody_of_read hp hq hm hdest hread, h]
  rfl

theorem hintBody_of_some {pt : Point} (h : randomEcPoint H i.bundle = some pt) :
    hintBody H s = finishHint dest i.bundle pt (countRejected pt.i s) := by
  rw [hintBody_of_read hp hq hm hdest hread, h]
  exact writeResult_of_addrS (s := countRejected pt.i s) hdest i.bundle pt

end Hint

theorem finishHint_of_some {dest : Addr} {pt : Point} {s : State} {vm : Memory} (buf : Bytes 160)
    (h : s.vm.writePair dest pt.x pt.y = some vm) :
    finishHint dest buf pt s = completeOk (commitPoint pt (commitSeed buf { s with vm := vm })) := by
  simp [finishHint, h]

theorem finishHint_of_none {dest : Addr} {pt : Point} {s : State} (buf : Bytes 160)
    (h : s.vm.writePair dest pt.x pt.y = none) : finishHint dest buf pt s = raise .write s := by
  simp [finishHint, h]

/-- Settles O22: the two cells by the transaction's `writePair_spec`, the seed registers by `seedView_seedBundle`. -/
theorem hintResult : Obligations.HintResult := by
  intro s p q m dest i pt hs hp hq hm hdest hpx hpy hqx hqy hmv hpoint hadm0 hadm1
  refine ⟨?_, ?_⟩
  · have hread : readInputs s.vm p q m = .ok i := readInputs_ok.2 ⟨hpx, hpy, hqx, hqy, hmv⟩
    have hpair := Memory.writePair_of_admits hadm0 hadm1
    obtain ⟨_, _, ⟨hpolicy, hoffsets⟩, hx, hy, hother, _⟩ := Memory.writePair_spec hpair
    refine ⟨_, ?_, hpolicy, hoffsets, hx, hy, hother⟩
    have hbody := hintBody_of_some (s := accept 0x00000007 s) hp hq hm hdest hread hpoint
    rw [finishHint_of_some (s := countRejected pt.i (accept 0x00000007 s)) i.bundle hpair] at hbody
    change hintWith sha256 s = _
    rw [hintWith_of_idle hs, hbody, State.busy_eq_false.1 hs]
    rfl
  · obtain ⟨h0, h1, h2, h3, h4⟩ := seedView_seedBundle i.px.val i.py.val i.m.val i.qx.val i.qy.val
    rw [Inputs.bundle, h0, h1, h2, h3, h4]
    exact ⟨toNat_ofNat_of_felt i.px.isLt, toNat_ofNat_of_felt i.py.isLt, toNat_ofNat_of_felt i.m.isLt,
      toNat_ofNat_of_felt i.qx.isLt, toNat_ofNat_of_felt i.qy.isLt⟩

/-- Settles O24. -/
theorem hintLateErrors : Obligations.HintLateErrors := by
  refine ⟨fun H s p q m dest i hs hp hq hm hdest hpx hpy hqx hqy hmv => ?_, fun s => rfl⟩
  have hread : readInputs s.vm p q m = .ok i := readInputs_ok.2 ⟨hpx, hpy, hqx, hqy, hmv⟩
  rw [hintWith_of_idle hs]
  refine ⟨fun hnone => ?_, fun pt hpoint hrej => ?_⟩
  · rw [hintBody_of_exhausted (s := accept 0x00000007 s) hp hq hm hdest hread hnone, State.busy_eq_false.1 hs]
    rfl
  · rw [hintBody_of_some (s := accept 0x00000007 s) hp hq hm hdest hread hpoint,
      finishHint_of_none (s := countRejected pt.i (accept 0x00000007 s)) i.bundle (Memory.writePair_of_rejects hrej),
      State.busy_eq_false.1 hs]
    rfl

end Sys2Proof.Machine
end

section
/-!
PROOFS. VM memory: the canonical list is what its reads show, the two-cell transaction is atomic, HINT alone writes, and the
engine looks at VM memory in the phases READ(k) and WRITE only (spec/20_memory.md R46 to R50, R62, R63, R66).
-/

namespace Sys2Proof.Machine

/-! ### The canonical form -/

/-- The entries of a canonical list are the cells that do not read UNSET. -/
theorem mem_iff_cellAt {l : List (Addr × VmCell)} (h : CellsWf l) {x : Addr × VmCell} :
    x ∈ l ↔ x.2 ≠ .unset ∧ cellAt l x.1 = x.2 := by
  induction l with
  | nil => simp [cellAt, eq_comm]
  | cons y l ih =>
    obtain ⟨hlt, hy, hl⟩ := cellsWf_cons.1 h
    by_cases hxy : x.1 = y.1
    · have hnot : x ∉ l := fun hx => by
        have hbefore := hlt x hx
        rw [hxy, addrBefore_irrefl] at hbefore
        cases hbefore
      have hhead : cellAt (y :: l) x.1 = y.2 := by rw [cellAt, if_pos hxy]
      rw [List.mem_cons, or_iff_left hnot, hhead, Prod.ext_iff, and_iff_right hxy]
      exact ⟨fun hc => ⟨hc ▸ hy, hc.symm⟩, fun ⟨_, hc⟩ => hc.symm⟩
    · have hne : x ≠ y := fun he => hxy (congrArg Prod.fst he)
      have htail : cellAt (y :: l) x.1 = cellAt l x.1 := by rw [cellAt, if_neg hxy]
      rw [List.mem_cons, htail, ← ih hl]
      exact or_iff_right hne

/-- Canonical lists that read alike have the same entries, in the same rising order. -/
theorem cells_eq_of_cellAt {l l' : List (Addr × VmCell)} (h : CellsWf l) (h' : CellsWf l')
    (hread : ∀ a, cellAt l a = cellAt l' a) : l = l' := by
  have hirrefl : Std.Irrefl fun x y : Addr × VmCell => addrBefore x.1 y.1 = true :=
    ⟨fun x => by simp [addrBefore_irrefl]⟩
  have hantisymm : Std.Antisymm fun x y : Addr × VmCell => addrBefore x.1 y.1 = true :=
    ⟨fun x _ hxy hyx => absurd (addrBefore_trans hxy hyx) (hirrefl.irrefl x)⟩
  have hmem : ∀ x, x ∈ l ↔ x ∈ l' := fun x => by rw [mem_iff_cellAt h, mem_iff_cellAt h', hread]
  exact h.1.eq_of_mem_iff h'.1 hmem

/-- Settles O32. -/
theorem canonicalMemoriesAreEqual : Obligations.CanonicalMemoriesAreEqual := by
  intro m n hm hn hpolicy hoffsets hread
  have hcells : m.cells = n.cells := cells_eq_of_cellAt hm hn hread
  cases m
  cases n
  rw [Memory.mk.injEq]
  exact ⟨hcells, hpolicy, hoffsets⟩

/-! ### The two-cell transaction -/

/-- Settles O31. -/
theorem memWriteIsAtomic : Obligations.MemWriteIsAtomic := by
  intro m a v0 v1
  refine ⟨fun h0 h1 => ?_, Memory.writePair_of_rejects⟩
  have hpair := Memory.writePair_of_admits h0 h1
  obtain ⟨_, _, _, hx, hy, hother, _⟩ := Memory.writePair_spec hpair
  exact ⟨_, hpair, hx, hy, hother⟩

/-! ### The instructions that write VM memory -/

theorem CommandEnd.vm_of_ne_hint {s t : State} {op : Op} (h : CommandEnd s op t) (hop : op ≠ .hint) : t.vm = s.vm := by
  cases h with
  | writeRejected => rfl
  | hinted => exact absurd rfl hop
  | error => rfl
  | exhausted => rfl
  | result => rfl
  | serialized => rfl
  | derived => rfl

theorem op?_eq_hint {i : Instr} (h : i.op? = some .hint) : i = .hint := by
  cases i with
  | hint => rfl
  | _ => cases h

/-- Of the outcomes of an instruction only the end of a HINT has another VM memory (R50). -/
theorem Executed.vm_of_ne_hint {s t : State} {i : Instr} (h : Executed s i t) (hi : i ≠ .hint) : t.vm = s.vm := by
  cases h with
  | overrun => rfl
  | clear => rfl
  | illegal => rfl
  | command _ op _ _ hop ht => exact ht.vm_of_ne_hint fun he => hi (op?_eq_hint (he ▸ hop))
  | start => rfl
  | load => rfl
  | read idx => rcases busRead_cases (Reg.ofIndex idx) s with ⟨_, _, h⟩ | ⟨_, h⟩ <;> rw [h]

theorem finishHint_vm (dest : Addr) (buf : Bytes 160) (p : Point) (s : State) :
    (finishHint dest buf p s).vm = s.vm ∨ s.vm.writePair dest p.x p.y = some (finishHint dest buf p s).vm := by
  rcases finishHint_cases dest buf p s with ⟨_, h⟩ | ⟨vm, hvm, h⟩
  · exact .inl (by rw [h, raise_vm])
  · exact .inr (by rw [h, hvm]; rfl)

/-- HINT leaves VM memory alone, or makes its one transaction on the cells of `s` (R112). -/
theorem hintBody_vm (H : Hash) (s : State) :
    (hintBody H s).vm = s.vm ∨
      ∃ dest v0 v1, s.addrS = some dest ∧ s.vm.writePair dest v0 v1 = some (hintBody H s).vm := by
  unfold hintBody
  split
  · rename_i hdest
    split
    · exact .inl rfl
    · split
      · rename_i i _ _ pt _
        exact (finishHint_vm _ i.bundle pt (countRejected pt.i s)).imp id fun h => ⟨_, pt.x, pt.y, hdest, h⟩
      · exact .inl rfl
  · exact .inl rfl

/-- HINT as an instruction writes no cell but the two of `s`. -/
theorem execHint_read {s t : State} (h : exec .hint s = .next t) {a : Addr}
    (ha : ∀ dest, s.addrS = some dest → a ≠ dest ∧ a ≠ s.vm.addrAdd dest 1) : t.vm.read a = s.vm.read a := by
  obtain rfl := Host.Outcome.next.inj h
  cases hs : s.busy with
  | true => rw [issue_busy hs]; rfl
  | false =>
    rw [issue_idle hs]
    rcases hintBody_vm sha256 (accept Op.hint.word s) with hvm | ⟨dest, v0, v1, hdest, hpair⟩
    · rw [hvm, accept_vm]
    · obtain ⟨hbase, hnext⟩ := ha dest hdest
      obtain ⟨_, _, _, _, _, hother, _⟩ := Memory.writePair_spec hpair
      exact hother a hbase hnext

/-- Settles O30. -/
theorem onlyHintWritesVmMemory : Obligations.OnlyHintWritesVmMemory :=
  ⟨fun _ _ _ hi h => (exec_next h).vm_of_ne_hint hi, fun _ _ h _ ha => execHint_read h ha⟩

/-! ### The phases that use VM memory -/

/-- The state with another VM memory. -/
def State.withVm (s : State) (vm : Memory) : State := { s with vm := vm }

section Engine

variable (s : State) (vm : Memory)

@[simp] theorem withVm_in0 : (s.withVm vm).in0 = s.in0 := rfl
@[simp] theorem withVm_in1 : (s.withVm vm).in1 = s.in1 := rfl
@[simp] theorem withVm_in2 : (s.withVm vm).in2 = s.in2 := rfl
@[simp] theorem withVm_in3 : (s.withVm vm).in3 = s.in3 := rfl
@[simp] theorem withVm_in4 : (s.withVm vm).in4 = s.in4 := rfl
@[simp] theorem withVm_vm : (s.withVm vm).vm = vm := rfl

/-- Of a choice between two states. -/
theorem ite_withVm (c : Prop) [Decidable c] (t u : State) :
    (if c then t.withVm vm else u.withVm vm) = (if c then t else u).withVm vm :=
  (apply_ite (fun s : State => s.withVm vm) c t u).symm

theorem execPhase_withVm (p : Primitive) : execPhase p (s.withVm vm) = (execPhase p s).withVm vm := by
  cases p with
  | modexp => rfl
  | crhs => rfl
  | qrtest =>
    simp only [execPhase, qrtestBody, withVm_in0]
    split <;> rfl
  | sqrt =>
    simp only [execPhase, sqrtBody, withVm_in0]
    split
    · rfl
    · exact ite_withVm vm _ (completeOk (commitOut0 (sqrtC s.in0.toNat) s)) (raise .notQr s)
  | serialize =>
    simp only [execPhase, serializeBody, withVm_in0, withVm_in1, withVm_in2, withVm_in3, withVm_in4]
    split <;> rfl

theorem seedHashPhase_withVm (H : Hash) (r : Requester) :
    seedHashPhase H r (s.withVm vm) = (seedHashPhase H r s).withVm vm := by
  cases r <;> exact ite_withVm vm _ (raise .seedInvalid s) (s.holdDigest H _)

theorem attemptPhase_withVm (H : Hash) (r : Requester) :
    attemptPhase H r (s.withVm vm) = (attemptPhase H r s).withVm vm := by
  have hnext : (s.withVm vm).nextCandidate H = s.nextCandidate H := rfl
  cases hq : isQr (curveRhs (s.nextCandidate H)) with
  | true =>
    cases r with
    | derive =>
      rw [attemptPhase_derive_of_accepted hq, attemptPhase_derive_of_accepted (by rw [hnext, hq])]
      rfl
    | hint =>
      rw [attemptPhase_hint_of_accepted hq, attemptPhase_hint_of_accepted (by rw [hnext, hq])]
      rfl
  | false =>
    rw [attemptPhase_of_rejected hq, attemptPhase_of_rejected (by rw [hnext, hq])]
    rfl

theorem checkPhase_withVm : checkPhase (s.withVm vm) = (checkPhase s).withVm vm :=
  ite_withVm vm _ (raise .addrUnset s) { s with fsm := .read 0 }

/-- In every phase but READ(k) and WRITE the engine does not look at VM memory, and leaves it alone (R50, R62, R66). -/
theorem engineStepWith_withVm (H : Hash) (hread : ∀ k, s.fsm ≠ .read k) (hwrite : s.fsm ≠ .write) :
    engineStepWith H (s.withVm vm) = (engineStepWith H s).withVm vm := by
  have hfsm : (s.withVm vm).fsm = s.fsm := rfl
  cases hf : s.fsm with
  | idle => rw [engineStepWith_idle hf, engineStepWith_idle (hfsm.trans hf)]
  | exec p => rw [engineStepWith_exec hf, engineStepWith_exec (hfsm.trans hf), execPhase_withVm]
  | seedHash r => rw [engineStepWith_seedHash hf, engineStepWith_seedHash (hfsm.trans hf), seedHashPhase_withVm]
  | attempt r => rw [engineStepWith_attempt hf, engineStepWith_attempt (hfsm.trans hf), attemptPhase_withVm]
  | fail r => rw [engineStepWith_fail hf, engineStepWith_fail (hfsm.trans hf)]; rfl
  | check => rw [engineStepWith_check hf, engineStepWith_check (hfsm.trans hf), checkPhase_withVm]
  | read k => exact absurd hf (hread k)
  | write => exact absurd hf hwrite

/-- The address of the cell that READ(k) reads is the VM's, and depends on no cell (R51). -/
theorem readTarget_withVm (hoffsets : vm.offsets = s.vm.offsets) (k : Fin 5) :
    (s.withVm vm).readTarget k = s.readTarget k := by
  have hX : vm.memberX = s.vm.memberX := funext fun a => Memory.addrAdd_congr hoffsets a 0
  have hY : vm.memberY = s.vm.memberY := funext fun a => Memory.addrAdd_congr hoffsets a 1
  unfold State.readTarget
  rw [withVm_vm, hX, hY]
  rfl

theorem Memory.readInt_congr {m n : Memory} {a : Addr} (h : m.read a = n.read a) (e : CoreError) :
    m.readInt a e = n.readInt a e := by
  unfold Memory.readInt
  rw [h]

/-- READ(k) depends on the one cell it reads, and leaves VM memory alone (R109). -/
theorem readPhase_withVm {k : Fin 5} {a : Addr} {e : CoreError} (hoffsets : vm.offsets = s.vm.offsets)
    (htarget : s.readTarget k = some (a, e)) (hcell : vm.read a = s.vm.read a) :
    readPhase k (s.withVm vm) = (readPhase k s).withVm vm := by
  have hread : (s.withVm vm).vm.readInt a e = s.vm.readInt a e := Memory.readInt_congr hcell e
  simp only [readPhase, readTarget_withVm s vm hoffsets, htarget, hread]
  split <;> rfl

end Engine

theorem engineStepWith_vm_of_read (H : Hash) {s : State} {k : Fin 5} (h : s.fsm = .read k) :
    (engineStepWith H s).vm = s.vm := by
  rw [engineStepWith_read h]
  rcases readPhase_cases k s with ⟨e, h⟩ | ⟨v, h⟩ <;> simp [h]

/-- No phase but WRITE changes VM memory: READ(k) does not, and the others do not look at it. -/
theorem engineStepWith_vm (H : Hash) {s : State} (hwrite : s.fsm ≠ .write) : (engineStepWith H s).vm = s.vm := by
  by_cases hread : ∃ k, s.fsm = .read k
  · obtain ⟨k, hk⟩ := hread
    exact engineStepWith_vm_of_read H hk
  · have hself : engineStepWith H s = (engineStepWith H s).withVm s.vm :=
      engineStepWith_withVm s s.vm H (not_exists.1 hread) hwrite
    rw [hself, withVm_vm]

/-- Settles O52. -/
theorem engineUsesVmMemoryOnlyInReadAndWritePhases : Obligations.EngineUsesVmMemoryOnlyInReadAndWritePhases := by
  refine fun s => ⟨fun vm hread hwrite => ?_, fun vm k a e hk hoffsets htarget hcell => ?_, fun hwrite => ?_⟩
  · exact engineStepWith_withVm s vm sha256 hread hwrite
  · have hphase := readPhase_withVm s vm hoffsets htarget hcell
    rwa [← engineStepWith_read (H := sha256) hk, ← engineStepWith_read (H := sha256) (s := s.withVm vm) hk] at hphase
  · exact engineStepWith_vm sha256 hwrite

/-! ### The write-while-busy program -/

/-- A DERIVE just started from reset: no seed is loaded, so its first phase ends it in E_SEED_INVALID. -/
def State.derivingFromReset : State := acceptCommand Op.derive.word State.reset

/-- Settles O56: the end states are those of the four turns, the write being an overrun before the engine's step and a load
of IN0 after it (R33, R63). -/
theorem writeWhileBusyHasBothEndStates : Obligations.WriteWhileBusyHasBothEndStates :=
  ⟨⟨busRead .in0 (engineStep (overrun .derivingFromReset)), rfl, by decide, rfl⟩,
    busRead .in0 (busWrite .in0 (.u256 7) (engineStep .derivingFromReset)), rfl, by decide, rfl⟩

end Sys2Proof.Machine
end

section
/-!
PROOFS. The encoding: the opcode map and the bus headers, what becomes of a word that is no command and of a header that is no
transaction's, and that decoding and encoding agree both ways (spec/30_encoding.md R67 to R72, R76).
-/

namespace Sys2Proof.Machine

/-! ### Command words -/

/-- Settles O3. -/
theorem opcodeMapOfCommandWords : Obligations.OpcodeMapOfCommandWords :=
  ⟨rfl, rfl, rfl, rfl, rfl, rfl, rfl, rfl, fun _ => decodeCmd_of_ge⟩

/-- The eight command words, one by one (R70). -/
theorem encode_decodeCmd_of_lt : ∀ n < 8, (decodeCmd (BitVec.ofNat 32 n)).wf = true ∧
    encode (decodeCmd (BitVec.ofNat 32 n)) = .command (BitVec.ofNat 32 n) := by decide

/-- Decoding a command word loses nothing of it: an illegal word is carried whole (R71, R72). -/
theorem encode_decodeCmd (w : U32) : (decodeCmd w).wf = true ∧ encode (decodeCmd w) = .command w := by
  rcases Nat.lt_or_ge w.toNat 8 with h | h
  · simpa using encode_decodeCmd_of_lt w.toNat h
  · rw [decodeCmd_of_ge h]
    exact ⟨decide_eq_true h, rfl⟩

/-- The two ways to be illegal, by the reserved bits and by the opcode (R72). -/
theorem le_toNat_of_illegal_fields {w : U32}
    (h : (w.extractLsb' 8 24).toNat ≠ 0 ∨ 8 ≤ (w.extractLsb' 0 8).toNat) : 8 ≤ w.toNat := by
  simp only [BitVec.extractLsb'_toNat, Nat.shiftRight_eq_div_pow] at h
  omega

/-- Settles O13: the error leaves the engine idle, as it was. -/
theorem illegalWordResult : Obligations.IllegalWordResult := by
  intro s w hidle hw
  refine ⟨decodeCmd_of_ge (le_toNat_of_illegal_fields hw), ?_⟩
  have hfsm : s.fsm = .idle := State.busy_eq_false.1 hidle
  rw [exec_illegal_of_idle hidle, raise, accept, ← hfsm]
  rfl

/-! ### Bus transactions -/

theorem decode_reserved_bit {h : BitVec 8} (hres : headerReserved h = true) (data : Option BusValue) :
    decode (.bus h data) = .error .reservedHeaderBit := if_pos hres

/-- Settles O5. -/
theorem reservedHeaderBitIsRefused : Obligations.ReservedHeaderBitIsRefused := fun s h data rest hag hbit => by
  rw [step_raw hag, runRaw, decode_reserved_bit hbit]

theorem toNat_busHeader (we : Bool) (idx : BitVec 6) :
    (busHeader we idx).toNat = (if we then 0x80 else 0) + idx.toNat := by
  rw [busHeader, BitVec.toNat_append, ← Nat.shiftLeft_add_eq_or_of_lt idx.isLt]
  cases we <;> rfl

/-- Settles O4: the lines of R76 are instances of a transaction on any index. -/
theorem busHeadersOfAssemblyLines : Obligations.BusHeadersOfAssemblyLines :=
  ⟨fun w => decode_hostWr (idx := 0x00) (v := .u32 w) rfl, decode_hostRd 0x01,
    fun v => decode_hostWr (idx := 0x02) (v := .u256 v) rfl, decode_hostRd 0x07, decode_hostRd 0x08,
    fun a => decode_hostWr (idx := 0x0F) (v := .oaddr a) rfl, fun a => decode_hostWr (idx := 0x12) (v := .oaddr a) rfl,
    toNat_busHeader⟩

/-- A read that carries a value from the host does not decode (R68). -/
theorem decode_read_with_value (idx : BitVec 6) (v : BusValue) :
    decode (.bus (busHeader false idx) (some v)) = .error .unexpectedData := by
  obtain ⟨hres, hwrite, -⟩ := Laws.busHeader_fields false idx
  simp [decode, decodeBus, hres, hwrite]

/-- A header without the reserved bit is made of its WE bit and its index, and the data phase is there for a write, of the
register's type, and only for a write (R21, R68). -/
theorem encode_of_decode_bus {h : BitVec 8} {data : Option BusValue} {i : Instr}
    (hd : decode (.bus h data) = .ok i) : i.wf = true ∧ encode i = .bus h data := by
  obtain ⟨hres, ⟨hwrite, v, rfl, rfl⟩ | ⟨hread, rfl⟩⟩ := decode_bus_cases hd
  · have hheader : h = busHeader true (headerIndex h) := hwrite ▸ eq_busHeader_of_fields h hres
    refine ⟨beq_iff_eq.2 ?_, by rw [encode, ← hheader]⟩
    by_contra htype
    rw [hheader, decode_wrong_type htype] at hd
    cases hd
  · have hheader : h = busHeader false (headerIndex h) := hread ▸ eq_busHeader_of_fields h hres
    refine ⟨rfl, ?_⟩
    cases data with
    | none => rw [encode, ← hheader]
    | some v =>
      rw [hheader, decode_read_with_value] at hd
      cases hd

/-! ### Decode and encode agree -/

/-- Settles O2. -/
theorem encodeDecodeRoundTrip : Obligations.EncodeDecodeRoundTrip := by
  intro r i hd
  cases r with
  | command w => exact Except.ok.inj hd ▸ encode_decodeCmd w
  | bus h data => exact encode_of_decode_bus hd

/-- Settles O1, by the row of the opcode table. -/
theorem decodeEncodeRoundTrip : Obligations.DecodeEncodeRoundTrip := by
  intro i hwf
  cases i with
  | clear | modexp | qrtest | sqrt | crhs | serialize | derive | hint => rfl
  | hostWr idx v => exact decode_hostWr (beq_iff_eq.1 hwf)
  | hostRd idx => exact decode_hostRd idx
  | illegal w => exact congrArg Except.ok (decodeCmd_of_ge (of_decide_eq_true hwf))

end Sys2Proof.Machine
end

section
/-!
PROOFS. The serializer byte by byte, the seed bundle, and the deserializer as a sum of weighted bytes
(spec/40_field_primitives.md R78 to R80).
-/

namespace Sys2Proof.Machine

open Sys2Proof.Config

/-! ### The serializer -/

/-- The bytes of a padded encoding (R78). -/
theorem toPaddedBytes_getElem? (n : Nat) {k : Nat} (hk : k < 32) :
    (toPaddedBytes n).val[k]? = some (BitVec.ofNat 8 (n / 256 ^ (31 - k))) := by
  simp [toPaddedBytes, hk]

/-- A field element's highest byte is 8 at most, and 0 below 2^248: `P` starts with the byte 8 (R78). -/
theorem felt_highest_byte {n : Nat} (hn : n < P) :
    n / 256 ^ 31 ≤ 8 ∧ (n < 2 ^ 248 → n / 256 ^ 31 = 0) := by
  simp only [P] at hn
  omega

/-- Settles O40. -/
theorem paddedEncodingOfFieldElements : Obligations.PaddedEncodingOfFieldElements := by
  intro n hn
  obtain ⟨hle, hzero⟩ := felt_highest_byte hn
  have hfirst : (BitVec.ofNat 8 (n / 256 ^ 31)).toNat = n / 256 ^ 31 := by
    rw [BitVec.toNat_ofNat]
    omega
  refine ⟨(toPaddedBytes n).property, fun k hk => ?_, _, toPaddedBytes_getElem? n (by decide : 0 < 32), ?_, fun h => ?_⟩
  · rw [toPaddedBytes_getElem? n hk, Option.map_some, BitVec.toNat_ofNat]
  · exact hfirst.trans_le hle
  · exact hfirst.trans (hzero h)

/-- In a concatenation of padded encodings, byte `j` of element `k` stands at `32k + j`. -/
theorem flatMap_toPaddedBytes_getElem? (ns : List Nat) (k : Nat) {j : Nat} (hj : j < 32) :
    (ns.flatMap fun n => (toPaddedBytes n).val)[32 * k + j]? =
      ns[k]?.map fun n => BitVec.ofNat 8 (n / 256 ^ (31 - j)) := by
  induction ns generalizing k with
  | nil => simp
  | cons n ns ih =>
    have hlen : (toPaddedBytes n).val.length = 32 := (toPaddedBytes n).property
    rw [List.flatMap_cons]
    cases k with
    | zero =>
      rw [List.getElem?_append_left (by omega), Nat.mul_zero, Nat.zero_add, toPaddedBytes_getElem? n hj]
      rfl
    | succ k =>
      rw [List.getElem?_append_right (by omega), hlen, show 32 * (k + 1) + j - 32 = 32 * k + j by omega, ih]
      rfl

/-- The seed bundle is the concatenation of its five padded encodings (R80). -/
theorem seedBundle_val (a b c d e : Nat) :
    (seedBundle a b c d e).val = [a, b, c, d, e].flatMap fun n => (toPaddedBytes n).val := by
  simp [seedBundle]

/-! ### The deserializer -/

/-- A byte string spells the sum of its bytes by their weights. -/
theorem fromBigEndian_eq_sum (bs : List Byte) :
    fromBigEndian bs =
      ((List.range bs.length).map fun k => (bs.getD k 0).toNat * 256 ^ (bs.length - 1 - k)).sum := by
  induction bs with
  | nil => rfl
  | cons b bs ih =>
    rw [fromBigEndian_cons, ih, List.length_cons, List.range_succ_eq_map, List.map_cons, List.map_map, List.sum_cons]
    simp only [Function.comp_def, List.getD_cons_zero, List.getD_cons_succ, Nat.succ_eq_add_one,
      Nat.add_sub_cancel, Nat.sub_zero, Nat.sub_sub, Nat.add_comm 1]

/-- Settles O41. -/
theorem deserializerIsBigEndianSum : Obligations.DeserializerIsBigEndianSum := by
  refine ⟨fun d => ⟨?_, fromBe32_lt d⟩, fun n hn => ?_⟩
  · rw [fromBe32, fromBigEndian_eq_sum, d.property]
  · rw [fromBe32_toPaddedBytes, Nat.mod_eq_of_lt (hn.trans (by decide))]

end Sys2Proof.Machine
end

section
/-!
PROOFS. The results of the single-phase commands MODEXP, QRTEST, SQRT, CRHS and SERIALIZE, their errors and their frames
(spec/40_field_primitives.md R81 to R92).
-/

namespace Sys2Proof.Machine

open Sys2Proof.Config

/-! ### The ends of a command that was accepted by an idle engine -/

/-- An idle engine takes the CTRL write and runs the pseudocode of the command (notes/assumptions/6.md). -/
theorem exec_of_op_of_idle {i : Instr} {op : Op} (h : i.op? = some op) {s : State} (hs : s.busy = false) :
    exec i s = .next (opBody sha256 op (accept op.word s)) := by
  rw [exec_of_op h, issue_idle hs]

/-- A result in OUT0 changes CTRL, OUT0 and STATUS only (R38, R69, R121). -/
theorem completeOk_commitOut0_accept {s : State} (hs : s.busy = false) (w : U32) (n : Nat) :
    completeOk (commitOut0 n (accept w s)) =
      { s with ctrl := w, out0 := BitVec.ofNat 256 n, status := doneStatus s.status } := by
  rw [State.busy_eq_false.1 hs]
  rfl

/-- A loaded seed bundle changes CTRL, SEEDBUF and STATUS only (R34, R38, R121). -/
theorem completeOk_commitSeed_accept {s : State} (hs : s.busy = false) (w : U32) (buf : Bytes 160) :
    completeOk (commitSeed buf (accept w s)) =
      { s with ctrl := w, seedBuf := buf, status := { doneStatus s.status with seedValid := true } } := by
  rw [State.busy_eq_false.1 hs]
  rfl

/-- An error other than E_NO_MEMBER changes CTRL and STATUS only (R38, R120). -/
theorem raise_accept {s : State} (hs : s.busy = false) (w : U32) {e : CoreError} (he : ∀ id mem, e ≠ .noMember id mem) :
    raise e (accept w s) = { s with ctrl := w, status := errorStatus e.code s.status } := by
  rw [State.busy_eq_false.1 hs]
  cases e with
  | noMember id mem => exact absurd rfl (he id mem)
  | illegalCmd | range | notQr | seedInvalid | addrUnset | inputRead | notOnCurve | write => rfl

/-! ### MODEXP and CRHS: no operand is refused -/

/-- Settles O14. -/
theorem modexpResult : Obligations.ModexpResult := by
  intro s hs
  rw [exec_of_op_of_idle rfl hs, ← modexp_eq, ← completeOk_commitOut0_accept hs]
  rfl

/-- Settles O17. -/
theorem crhsResult : Obligations.CrhsResult := by
  intro s hs
  rw [exec_of_op_of_idle rfl hs, ← curveRhs_eq, ← completeOk_commitOut0_accept hs]
  rfl

/-! ### QRTEST and SQRT: one field-element operand -/

theorem checkFelts_singleton_of_lt {v : U256} (h : v.toNat < P) : checkFelts [v] = .ok () :=
  checkFelts_ok.2 (List.forall_mem_singleton.2 h)

theorem checkFelts_singleton_of_le {v : U256} (h : P ≤ v.toNat) : checkFelts [v] = .error .range :=
  checkFelts_error ⟨v, List.mem_singleton_self v, h⟩

theorem qrtestBody_of_range {s : State} (h : P ≤ s.in0.toNat) : qrtestBody s = raise .range s := by
  simp only [qrtestBody, checkFelts_singleton_of_le h]

theorem qrtestBody_of_felt {s : State} (h : s.in0.toNat < P) :
    qrtestBody s = completeOk (commitOut0 (if isQr s.in0.toNat then 1 else 0) s) := by
  simp only [qrtestBody, checkFelts_singleton_of_lt h]

theorem sqrtBody_of_range {s : State} (h : P ≤ s.in0.toNat) : sqrtBody s = raise .range s := by
  simp only [sqrtBody, checkFelts_singleton_of_le h]

theorem sqrtBody_of_felt {s : State} (h : s.in0.toNat < P) :
    sqrtBody s =
      if isQr s.in0.toNat then completeOk (commitOut0 (sqrtC s.in0.toNat) s) else raise .notQr s := by
  simp only [sqrtBody, checkFelts_singleton_of_lt h]

theorem exec_qrtest_of_idle {s : State} (hs : s.busy = false) :
    exec .qrtest s = .next (qrtestBody (accept 0x00000002 s)) :=
  exec_of_op_of_idle (op := .prim .qrtest) rfl hs

theorem exec_sqrt_of_idle {s : State} (hs : s.busy = false) :
    exec .sqrt s = .next (sqrtBody (accept 0x00000003 s)) :=
  exec_of_op_of_idle (op := .prim .sqrt) rfl hs

/-- Settles O15: the predicate is that of the squares, by `square_iff_isQr`. -/
theorem qrtestResult : Obligations.QrtestResult := by
  intro s hs
  rw [exec_qrtest_of_idle hs]
  refine ⟨fun hrange => ?_, fun hfelt hsq => ?_, fun hfelt hnsq => ?_⟩
  · rw [qrtestBody_of_range (s := accept 0x00000002 s) hrange, raise_accept hs _ (by simp)]
    rfl
  · rw [qrtestBody_of_felt (s := accept 0x00000002 s) hfelt, accept_in0, if_pos ((square_iff_isQr hfelt).1 hsq),
      completeOk_commitOut0_accept hs]
    rfl
  · rw [qrtestBody_of_felt (s := accept 0x00000002 s) hfelt, accept_in0,
      if_neg (mt (square_iff_isQr hfelt).2 hnsq), completeOk_commitOut0_accept hs]
    rfl

/-- Settles O16: the root is the canonical one, the only one at most HALF by `root_unique`. -/
theorem sqrtResult : Obligations.SqrtResult := by
  intro s hs
  rw [exec_sqrt_of_idle hs]
  refine ⟨fun hrange => ?_, fun hfelt hnsq => ?_, fun hfelt hsq => ?_⟩
  · rw [sqrtBody_of_range (s := accept 0x00000003 s) hrange, raise_accept hs _ (by simp)]
    rfl
  · rw [sqrtBody_of_felt (s := accept 0x00000003 s) hfelt, accept_in0,
      if_neg (mt (square_iff_isQr hfelt).2 hnsq), raise_accept hs _ (by simp)]
    rfl
  · have hqr : isQr s.in0.toNat = true := (square_iff_isQr hfelt).1 hsq
    have hroot : sqrtC s.in0.toNat * sqrtC s.in0.toNat % P = s.in0.toNat := sqrtC_sq _ hfelt hqr
    refine ⟨sqrtC s.in0.toNat, sqrtC_le_half _, hroot, fun r hr hr2 => ?_, ?_⟩
    · exact root_unique r _ hr (sqrtC_le_half _) (hr2.trans hroot.symm)
    · rw [sqrtBody_of_felt (s := accept 0x00000003 s) hfelt, accept_in0, if_pos hqr,
        completeOk_commitOut0_accept hs]

/-! ### SERIALIZE: five field-element operands -/

/-- The operands of SERIALIZE, in the order of the bundle (R92). -/
def State.operands (s : State) : List U256 := [s.in0, s.in1, s.in2, s.in3, s.in4]

/-- The bundle of the five operands (R80, R92). -/
def State.operandBundle (s : State) : Bytes 160 :=
  seedBundle s.in0.toNat s.in1.toNat s.in2.toNat s.in3.toNat s.in4.toNat

theorem serializeBody_of_range {s : State} (h : ∃ v ∈ s.operands, P ≤ v.toNat) : serializeBody s = raise .range s := by
  have hcheck : checkFelts [s.in0, s.in1, s.in2, s.in3, s.in4] = .error .range := checkFelts_error h
  simp only [serializeBody, hcheck]

theorem serializeBody_of_felts {s : State} (h : ∀ v ∈ s.operands, v.toNat < P) :
    serializeBody s = completeOk (commitSeed s.operandBundle s) := by
  have hcheck : checkFelts [s.in0, s.in1, s.in2, s.in3, s.in4] = .ok () := checkFelts_ok.2 h
  simp only [serializeBody, hcheck, State.operandBundle]

/-- Register SEEDk of the operands' bundle reads INk (R26, R92). -/
theorem seedView_operandBundle (s : State) :
    seedView s.operandBundle 0 = s.in0 ∧ seedView s.operandBundle 1 = s.in1 ∧ seedView s.operandBundle 2 = s.in2 ∧
      seedView s.operandBundle 3 = s.in3 ∧ seedView s.operandBundle 4 = s.in4 := by
  simpa only [State.operandBundle, BitVec.ofNat_toNat, BitVec.setWidth_eq] using
    seedView_seedBundle s.in0.toNat s.in1.toNat s.in2.toNat s.in3.toNat s.in4.toNat

/-- Byte `j` of operand `k` in the operands' bundle (R78, R80). -/
theorem operandBundle_getElem? {s : State} {k j : Nat} {v : U256} (hv : s.operands[k]? = some v) (hj : j < 32) :
    s.operandBundle.val[32 * k + j]? = some (BitVec.ofNat 8 (v.toNat / 256 ^ (31 - j))) := by
  have hmap : s.operandBundle.val = (s.operands.map BitVec.toNat).flatMap fun n => (toPaddedBytes n).val :=
    seedBundle_val _ _ _ _ _
  rw [hmap, flatMap_toPaddedBytes_getElem? _ _ hj, List.getElem?_map, hv]
  rfl

theorem exec_serialize_of_idle {s : State} (hs : s.busy = false) :
    exec .serialize s = .next (serializeBody (accept 0x00000005 s)) :=
  exec_of_op_of_idle (op := .prim .serialize) rfl hs

/-- Settles O18: the buffer is the bundle of the operands. -/
theorem serializeResult : Obligations.SerializeResult := by
  intro s hs
  rw [exec_serialize_of_idle hs]
  refine ⟨fun hrange => ?_, fun hfelts => ⟨s.operandBundle, ?_, seedView_operandBundle s, fun k j v => ?_⟩⟩
  · rw [serializeBody_of_range (s := accept 0x00000005 s) hrange, raise_accept hs _ (by simp)]
    rfl
  · rw [serializeBody_of_felts (s := accept 0x00000005 s) hfelts, completeOk_commitSeed_accept hs]
    rfl
  · exact operandBundle_getElem?

end Sys2Proof.Machine
end

section
/-!
PROOFS. What a derivation promises of its point (spec/41_point_derivation.md R105, R106): it lies on the curve, y on the
side that the sign bit says; the bit decides y alone; the result is a function of the seed, and a later DERIVE gives it
again.
-/

namespace Sys2Proof.Machine

open Sys2Proof.Config

/-! ### The two roots -/

theorem P_eq_two_HALF : P = 2 * HALF + 1 := by decide

theorem neg_of_zero : neg 0 = 0 := Nat.mod_self P

theorem neg_of_pos {y : Nat} (hpos : 0 < y) : neg y = P - y := Nat.mod_eq_of_lt (by have := P_pos; omega)

theorem neg_neg_of_lt {y : Nat} (hy : y < P) : neg (neg y) = y := by
  rcases Nat.eq_zero_or_pos y with rfl | hpos
  · rw [neg_of_zero, neg_of_zero]
  · rw [neg_of_pos hpos, neg_of_pos (by omega)]
    omega

theorem HALF_lt_neg {y : Nat} (hpos : 0 < y) (hy : y ≤ HALF) : HALF < neg y := by
  rw [neg_of_pos hpos, P_eq_two_HALF]
  omega

/-- The opposite sign bit selects the opposite root (R86). -/
theorem applySign_not {y : Nat} (hy : y < P) (b : Bool) : applySign y (!b) = neg (applySign y b) := by
  cases b with
  | false => rfl
  | true => exact (neg_neg_of_lt hy).symm

theorem pointOf_y (d : Bytes 32) (i xr : Nat) {y0 : Nat} (hy : y0 < P) :
    (pointOf d i xr y0).y.val = applySign y0 (signBit d) := Nat.mod_eq_of_lt (applySign_lt _ _ hy)

/-! ### The sides of y -/

/-- `y` is the root that a sign bit selects of a root and its negative: the one at most HALF, or the other, which is above
HALF unless both are 0 (R83, R100, R106). -/
def OnSide (y : Nat) (sign : Bool) : Prop :=
  (sign = false → y ≤ HALF) ∧ (sign = true → y = 0 ∨ HALF < y)

theorem applySign_onSide {y : Nat} (hy : y ≤ HALF) (b : Bool) : OnSide (applySign y b) b := by
  cases b with
  | false => exact ⟨fun _ => hy, fun h => by cases h⟩
  | true =>
    refine ⟨fun h => (by cases h), fun _ => ?_⟩
    rcases Nat.eq_zero_or_pos y with rfl | hpos
    · exact .inl neg_of_zero
    · exact .inr (HALF_lt_neg hpos hy)

theorem randomEcPoint_onSide {H : Hash} {seed : Bytes 160} {p : Point} (h : randomEcPoint H seed = some p) :
    OnSide p.y.val (signBit p.h) := by
  obtain ⟨_, _, _, _, hp⟩ := randomEcPoint_some h
  rw [hp, pointOf_y _ _ _ (sqrtC_lt _)]
  exact applySign_onSide (sqrtC_le_half _) _

/-- A derived point does not lie at x-coordinate 0, where BETA would be a square. -/
theorem Point.Accepted.x_ne_zero {p : Point} (hp : p.Accepted) : p.x.val ≠ 0 := fun h =>
  not_onCurve_zero p.y.val (h ▸ hp.onCurve)

/-! ### The end of DERIVE -/

theorem exec_derive_of_idle {s : State} (hs : s.busy = false) :
    exec .derive s = .next (deriveBody sha256 (accept 0x00000006 s)) :=
  exec_of_op_of_idle (op := .derive) rfl hs

theorem deriveBody_of_unloaded {H : Hash} {s : State} (hv : s.status.seedValid = false) :
    deriveBody H s = raise .seedInvalid s := by
  simp [deriveBody, hv]

/-- Settles O19. -/
theorem deriveWithoutSeed : Obligations.DeriveWithoutSeed := by
  intro s hs hv
  rw [exec_derive_of_idle hs, deriveBody_of_unloaded (s := accept 0x00000006 s) hv, raise_accept hs _ (by simp)]
  rfl

/-- A DERIVE that succeeds has derived a point from a loaded bundle, and committed it (R105). -/
theorem deriveBody_of_done {H : Hash} {s : State} (hdone : (deriveBody H s).status.done = true) :
    s.status.seedValid = true ∧ ∃ p, randomEcPoint H s.seedBuf = some p ∧
      deriveBody H s = completeOk (commitPoint p (countRejected p.i s)) := by
  cases hv : s.status.seedValid with
  | false => simp [deriveBody_of_unloaded hv] at hdone
  | true =>
    cases hp : randomEcPoint H s.seedBuf with
    | none => simp [deriveBody_of_none hv hp] at hdone
    | some p => exact ⟨rfl, p, rfl, deriveBody_of_some hv hp⟩

theorem exec_derive_of_done {s t : State} (hs : s.busy = false) (h : exec .derive s = .next t)
    (hdone : t.status.done = true) :
    s.status.seedValid = true ∧ ∃ p, randomEcPoint sha256 s.seedBuf = some p ∧
      t = completeOk (commitPoint p (countRejected p.i (accept 0x00000006 s))) := by
  rw [exec_derive_of_idle hs] at h
  obtain rfl := Host.Outcome.next.inj h
  exact deriveBody_of_done hdone

/-- Settles O34: the point is on the curve by `randomEcPoint_accepted`, and at no x-coordinate 0 because BETA is no
square. -/
theorem derivedPointIsOnCurve : Obligations.DerivedPointIsOnCurve := by
  intro s t hs h hdone
  obtain ⟨_, p, hp, rfl⟩ := exec_derive_of_done hs h hdone
  have hacc := randomEcPoint_accepted hp
  simp only [completeOk_out0, completeOk_out1, completeOk_status, Status.completed_sign, commitPoint_out0,
    commitPoint_out1, commitPoint_status, toNat_ofNat_of_felt p.x.isLt, toNat_ofNat_of_felt p.y.isLt]
  exact ⟨hacc.onCurve, p.x.isLt, p.y.isLt, hacc.x_ne_zero, randomEcPoint_onSide hp⟩

/-! ### The sign bit decides y alone -/

/-- The candidates do not look at the first digest byte (R95). -/
theorem candidate_of_same_tail (H : Hash) {d d' : Bytes 32} (h : d.val.drop 1 = d'.val.drop 1) (i : Nat) :
    candidate H d' i = candidate H d i := by
  simp only [candidate, blockOf, h]

/-- Digests with the same tail accept the same candidate and root, or none (R95, R99). -/
theorem search_of_same_tail (H : Hash) {d d' : Bytes 32} (h : d.val.drop 1 = d'.val.drop 1) (n i : Nat) :
    (search H d n i = none ∧ search H d' n i = none) ∨
    ∃ j xr y0, y0 < P ∧ search H d n i = some (pointOf d j xr y0) ∧ search H d' n i = some (pointOf d' j xr y0) := by
  induction n generalizing i with
  | zero => exact .inl ⟨rfl, rfl⟩
  | succ n ih =>
    simp only [search, withNat_eq, candidate_of_same_tail H h]
    split
    · exact .inr ⟨_, _, _, sqrtC_lt _, rfl, rfl⟩
    · exact ih (i + 1)

/-- Settles O35: the two searches accept the same candidate and root, and the sign bits select opposite roots of it. -/
theorem signBitFlipsOnlyY : Obligations.SignBitFlipsOnlyY := by
  intro H d d' htail hsign
  rcases search_of_same_tail H htail 100 0 with hnone | ⟨j, xr, y0, hy, hd, hd'⟩
  · exact .inl hnone
  · refine .inr ⟨_, _, hd, hd', rfl, rfl, ?_⟩
    rw [pointOf_y d' j xr hy, pointOf_y d j xr hy, hsign, applySign_not hy]
    rfl

/-! ### The seed decides the result -/

/-- Settles O36: the derivation from the common seed answers a point or none, and DERIVE shows its answer. -/
theorem equalSeedsGiveEqualResults : Obligations.EqualSeedsGiveEqualResults := by
  intro s t s' t' hs ht hsv htv hseed hexecS hexecT
  rw [exec_derive_of_idle hs] at hexecS
  rw [exec_derive_of_idle ht] at hexecT
  obtain rfl := Host.Outcome.next.inj hexecS
  obtain rfl := Host.Outcome.next.inj hexecT
  cases hp : randomEcPoint sha256 s.seedBuf with
  | none =>
    rw [deriveBody_of_none (s := accept _ s) hsv hp, deriveBody_of_none (s := accept _ t) htv (hseed ▸ hp)]
    exact ⟨rfl, rfl, rfl, fun hdone => by simp at hdone⟩
  | some p =>
    rw [deriveBody_of_some (s := accept _ s) hsv hp, deriveBody_of_some (s := accept _ t) htv (hseed ▸ hp)]
    exact ⟨rfl, rfl, rfl, fun _ => ⟨rfl, rfl, rfl, rfl⟩⟩

/-! ### DERIVE repeats the last derivation -/

/-- A DERIVE on the bundle whose point a command has just committed commits the point again, which changes CTRL only. -/
theorem exec_derive_of_committed {s : State} {p : Point} (w : U32) (hv : s.status.seedValid = true)
    (hp : randomEcPoint sha256 s.seedBuf = some p) :
    exec .derive (completeOk (commitPoint p (countRejected p.i (accept w s)))) =
      .next { completeOk (commitPoint p (countRejected p.i (accept w s))) with ctrl := 0x00000006 } := by
  generalize ht : completeOk (commitPoint p (countRejected p.i (accept w s))) = t
  have hidle : t.busy = false := by rw [← ht]; rfl
  have htv : t.status.seedValid = true := by rw [← ht]; exact hv
  have htp : randomEcPoint sha256 t.seedBuf = some p := by rw [← ht]; exact hp
  rw [exec_derive_of_idle hidle, deriveBody_of_some (s := accept _ t) htv htp, ← ht]
  rfl

/-- A HINT that succeeds has derived a point from a bundle, and committed both (R107, R112). -/
theorem hintBody_of_done {H : Hash} {s : State} (hdone : (hintBody H s).status.done = true) :
    ∃ buf p vm, randomEcPoint H buf = some p ∧
      hintBody H s = completeOk (commitPoint p (commitSeed buf { countRejected p.i s with vm := vm })) := by
  rcases unaddressed_or_addressed s with h | ⟨p, q, m, dest, hp, hq, hm, hdest⟩
  · simp [hintBody_of_unaddressed h] at hdone
  cases hread : readInputs s.vm p q m with
  | error e => simp [hintBody_of_addressed hp hq hm hdest, hread, orRaise] at hdone
  | ok i =>
    cases hpoint : randomEcPoint H i.bundle with
    | none => simp [hintBody_of_exhausted hp hq hm hdest hread hpoint] at hdone
    | some pt =>
      have hbody := hintBody_of_some hp hq hm hdest hread hpoint
      rcases finishHint_cases dest i.bundle pt (countRejected pt.i s) with ⟨_, h⟩ | ⟨vm, _, h⟩
      · simp [hbody, h] at hdone
      · exact ⟨_, pt, vm, hpoint, hbody.trans h⟩

/-- A HINT that succeeds ends as a derivation does that commits its point on the loaded bundle (R107). -/
theorem exec_hint_of_done {s t : State} (hs : s.busy = false) (h : exec .hint s = .next t)
    (hdone : t.status.done = true) :
    ∃ (u : State) (p : Point), u.status.seedValid = true ∧ randomEcPoint sha256 u.seedBuf = some p ∧
      t = completeOk (commitPoint p (countRejected p.i (accept 0x00000007 u))) := by
  have hexec : exec .hint s = .next (hintBody sha256 (accept 0x00000007 s)) :=
    exec_of_op_of_idle (op := .hint) rfl hs
  obtain rfl := Host.Outcome.next.inj (h.symm.trans hexec)
  obtain ⟨buf, p, vm, hp, hbody⟩ := hintBody_of_done hdone
  exact ⟨commitSeed buf { s with vm := vm }, p, rfl, hp, hbody⟩

/-- Settles O37: both commands end in a commit that DERIVE makes again. -/
theorem deriveRepeatsTheLastDerivation : Obligations.DeriveRepeatsTheLastDerivation := by
  refine ⟨fun s t hs h hdone => ?_, fun s t hs h hdone => ?_⟩
  · obtain ⟨u, p, hv, hp, rfl⟩ := exec_hint_of_done hs h hdone
    exact exec_derive_of_committed _ hv hp
  · obtain ⟨hv, p, hp, rfl⟩ := exec_derive_of_done hs h hdone
    exact exec_derive_of_committed _ hv hp

end Sys2Proof.Machine
end

section
/-!
PROOFS. The engine shows nothing before the end of a command (spec/20_memory.md R61, spec/41_point_derivation.md R102).
-/

namespace Sys2Proof.Machine

/-- An engine step that leaves the engine at work has written its phase, its counter and its working state, and nothing
else. -/
theorem engineStepWith_of_busy {H : Hash} {s : State} (hb : (engineStepWith H s).busy = true) :
    ∃ wk n f, engineStepWith H s = { s with work := wk, icnt := n, fsm := f } := by
  have ended : ∀ {t : State} {C : Prop}, engineStepWith H s = t → t.fsm = .idle → C := fun ht hidle =>
    absurd (ht ▸ hidle) (State.busy_eq_true.1 hb)
  cases hf : s.fsm with
  | idle => exact ended (engineStepWith_idle hf) hf
  | exec p => exact ended (engineStepWith_exec hf) (execPhase_end p s).fsm
  | seedHash r =>
    have hstep := engineStepWith_seedHash (H := H) hf
    rcases seedHashPhase_cases H r s with ⟨_, _, h⟩ | h
    · exact ended (hstep.trans h) rfl
    · exact ⟨_, _, _, hstep.trans h⟩
  | attempt r =>
    have hstep := engineStepWith_attempt (H := H) hf
    rcases attemptPhase_cases H r s with h | h | h
    · exact ended (hstep.trans h) rfl
    · exact ⟨_, _, _, hstep.trans h⟩
    · exact ⟨_, _, _, hstep.trans h⟩
  | fail r => exact ended (engineStepWith_fail hf) (raiseNotOnCurve_fsm s)
  | check =>
    have hstep := engineStepWith_check (H := H) hf
    rcases checkPhase_cases s with h | h
    · exact ended (hstep.trans h) rfl
    · exact ⟨_, _, _, hstep.trans h⟩
  | read k =>
    have hstep := engineStepWith_read (H := H) hf
    rcases readPhase_cases k s with ⟨_, h⟩ | ⟨_, h⟩
    · exact ended (hstep.trans h) rfl
    · exact ⟨_, _, _, hstep.trans h⟩
  | write => exact ended ((engineStepWith_write hf).trans (writePhase_eq s)) (writeResult_fsm _ _ s)

/-- Settles O50: the step that goes on is undone by restoring the phase, the counter and the working state. -/
theorem nothingVisibleChangesBeforeTheCommit : Obligations.NothingVisibleChangesBeforeTheCommit := by
  intro s hb
  obtain ⟨wk, n, f, hstep⟩ := engineStepWith_of_busy hb
  have hstep : engineStep s = { s with work := wk, icnt := n, fsm := f } := hstep
  rw [hstep]

end Sys2Proof.Machine
end

section
/-!
PROOFS. The errors of HINT's address check and of its five reads (spec/42_marker_handler.md R107 to R109): the first in
check order is the one that STATUS names.
-/

namespace Sys2Proof.Machine

/-! ### The first read that fails -/

/-- The cell holds an integer (R48). -/
def Memory.HoldsInt (m : Memory) (a : Addr) : Prop := ∃ v, m.read a = .int v

/-- The reads end in an error exactly when a cell holds no integer and those read before it do, and the error is that
cell's (R109). -/
theorem readInputs_error {m : Memory} {p q sc : Addr} {e : CoreError} :
    readInputs m p q sc = .error e ↔
      (e = .noMember .p .x ∧ ¬ m.HoldsInt p) ∨
        m.HoldsInt p ∧ ((e = .noMember .p .y ∧ ¬ m.HoldsInt (m.addrAdd p 1)) ∨
          m.HoldsInt (m.addrAdd p 1) ∧ ((e = .noMember .q .x ∧ ¬ m.HoldsInt q) ∨
            m.HoldsInt q ∧ ((e = .noMember .q .y ∧ ¬ m.HoldsInt (m.addrAdd q 1)) ∨
              m.HoldsInt (m.addrAdd q 1) ∧ e = .inputRead ∧ ¬ m.HoldsInt sc))) := by
  simp only [readInputs, except_bind_error, Memory.readInt_ok, Memory.readInt_error, Memory.memberX_eq, Memory.memberY,
    Memory.HoldsInt, not_exists, ne_eq, exists_and_right, exists_false, pure, Except.pure, reduceCtorEq, and_false,
    or_false]

/-! ### The ends in error -/

/-- E_NO_MEMBER changes CTRL and STATUS only, where ERRID and ERRMEM name the member (R38, R120). -/
theorem raise_noMember_accept {s : State} (hs : s.busy = false) (w : U32) (id : StructId) (mem : Member) :
    raise (.noMember id mem) (accept w s) =
      { s with ctrl := w, status := { errorStatus 6 s.status with errid := id == .q, errmem := mem == .y } } := by
  rw [State.busy_eq_false.1 hs]
  rfl

theorem exec_hint_of_idle {s : State} (hs : s.busy = false) :
    exec .hint s = .next (hintBody sha256 (accept 0x00000007 s)) := hintWith_of_idle hs

theorem exec_hint_of_unaddressed {s : State} (hs : s.busy = false)
    (h : s.addrP = none ∨ s.addrQ = none ∨ s.addrM = none ∨ s.addrS = none) :
    exec .hint s = .next (raise .addrUnset (accept 0x00000007 s)) := by
  rw [exec_hint_of_idle hs, hintBody_of_unaddressed (s := accept 0x00000007 s) h]

/-- An addressed HINT with an unreadable cell ends in the error of its reads (R107, R109). -/
theorem exec_hint_of_read_error {s : State} {p q m dest : Addr} {e : CoreError} (hs : s.busy = false)
    (hp : s.addrP = some p) (hq : s.addrQ = some q) (hm : s.addrM = some m) (hdest : s.addrS = some dest)
    (hread : readInputs s.vm p q m = .error e) :
    exec .hint s = .next (raise e (accept 0x00000007 s)) := by
  have hbody := hintBody_of_addressed (H := sha256) (s := accept 0x00000007 s) hp hq hm hdest
  rw [accept_vm, hread] at hbody
  rw [exec_hint_of_idle hs, hbody]
  rfl

/-- Settles O23: each clause is a case of `readInputs_error`, after the address check. -/
theorem hintInputErrors : Obligations.HintInputErrors := by
  intro s hs
  refine ⟨fun hunset => ?_, fun p q m dest hp hq hm hdest => ?_⟩
  · rw [exec_hint_of_unaddressed hs hunset, raise_accept hs _ (by simp)]
    rfl
  have noMember {id : StructId} {mem : Member} (hread : readInputs s.vm p q m = .error (.noMember id mem)) :
      exec .hint s = .next { s with
        ctrl := 0x00000007
        status := { errorStatus 6 s.status with errid := id == .q, errmem := mem == .y } } := by
    rw [exec_hint_of_read_error hs hp hq hm hdest hread, raise_noMember_accept hs]
  refine ⟨fun hpx => ?px, fun hpx hpy => ?py, fun hpx hpy hqx => ?qx, fun hpx hpy hqx hqy => ?qy,
    fun hpx hpy hqx hqy hmv => ?m⟩
  case px => exact noMember (readInputs_error.2 (.inl ⟨rfl, not_exists.2 hpx⟩))
  case py => exact noMember (readInputs_error.2 (.inr ⟨hpx, .inl ⟨rfl, not_exists.2 hpy⟩⟩))
  case qx => exact noMember (readInputs_error.2 (.inr ⟨hpx, .inr ⟨hpy, .inl ⟨rfl, not_exists.2 hqx⟩⟩⟩))
  case qy =>
    exact noMember (readInputs_error.2 (.inr ⟨hpx, .inr ⟨hpy, .inr ⟨hqx, .inl ⟨rfl, not_exists.2 hqy⟩⟩⟩⟩))
  case m =>
    have hread : readInputs s.vm p q m = .error .inputRead :=
      readInputs_error.2 (.inr ⟨hpx, .inr ⟨hpy, .inr ⟨hqx, .inr ⟨hqy, rfl, not_exists.2 hmv⟩⟩⟩⟩)
    rw [exec_hint_of_read_error hs hp hq hm hdest hread, raise_accept hs _ (by simp)]
    rfl

end Sys2Proof.Machine
end

section
/-!
PROOFS. CLEAR and HOST_WR (spec/43_control.md R116, R117): what each writes, what a CTRL write starts, and what is ignored.
-/

namespace Sys2Proof.Machine

/-! ### CLEAR -/

/-- Settles O12: idle, it is acceptance of the word 0 and the clearing of OVR; busy, it is a write like any other. -/
theorem clearResult : Obligations.ClearResult := by
  refine fun s => ⟨fun hs => ?idle, fun hb => ?busy⟩
  case idle =>
    rw [exec_clear_of_idle hs]
    rfl
  case busy => exact exec_of_busy hb rfl fun idx hi => by cases hi

/-! ### HOST_WR while BUSY = 0 -/

theorem exec_hostWr_of_idle {idx : BitVec 6} {v : BusValue} {s : State} (hs : s.busy = false) (hv : v.type = busType idx) :
    exec (.hostWr idx v) s = .next (busWrite (Reg.ofIndex idx) v s) := by
  simp only [exec, execHostWr, hv, hs, if_true, Bool.false_eq_true, if_false]

/-- The read-only registers (R21) and the reserved indices (R28). -/
def ignoresWrites : Reg → Bool
  | .status | .out0 | .out1 | .hseed | .seed0 | .seed1 | .seed2 | .seed3 | .seed4 | .reserved => true
  | .ctrl | .in0 | .in1 | .in2 | .in3 | .in4 | .ap | .aq | .am | .as => false

theorem ignoresWrites_ofIndex : ∀ idx : BitVec 6, ignoresWrites (Reg.ofIndex idx) = true ↔
    idx.toNat = 0x01 ∨ (0x07 ≤ idx.toNat ∧ idx.toNat ≤ 0x0E) ∨ 0x13 ≤ idx.toNat := by decide

theorem busWrite_of_ignoresWrites {r : Reg} (h : ignoresWrites r = true) (v : BusValue) (s : State) :
    busWrite r v s = s := by
  cases r
  case ctrl | in0 | in1 | in2 | in3 | in4 | ap | aq | am | as => cases h
  case status | out0 | out1 | hseed | seed0 | seed1 | seed2 | seed3 | seed4 | reserved => cases v <;> rfl

/-! ### A write to CTRL -/

theorem exec_ctrlWrite_of_idle {s : State} (hs : s.busy = false) (w : U32) :
    exec (.hostWr 0x00 (.u32 w)) s = .next (acceptCommand w s) := exec_hostWr_of_idle hs rfl

theorem decodeCmd_word_op? (op : Op) : (decodeCmd op.word).op? = some op := by
  cases op with
  | prim p => cases p <;> rfl
  | derive => rfl
  | hint => rfl

/-- A command that runs is only started (R38, R71). -/
theorem exec_ctrlWrite_word {s : State} (hs : s.busy = false) (op : Op) :
    exec (.hostWr 0x00 (.u32 op.word)) s = .next { accept op.word s with fsm := firstPhase op } := by
  rw [exec_ctrlWrite_of_idle hs, acceptCommand_of_op (decodeCmd_word_op? op)]

/-- CLEAR completes in the step of its CTRL write (R30). -/
theorem exec_ctrlWrite_zero {s : State} (hs : s.busy = false) :
    exec (.hostWr 0x00 (.u32 0)) s = exec .clear s := by
  rw [exec_ctrlWrite_of_idle hs, exec_clear_of_idle hs]
  rfl

/-- An illegal word fails in the step of its CTRL write (R30, R72). -/
theorem exec_ctrlWrite_illegal {s : State} (hs : s.busy = false) {w : U32} (hw : 8 ≤ w.toNat) :
    exec (.hostWr 0x00 (.u32 w)) s = exec (.illegal w) s := by
  have haccept : acceptCommand w s = raise .illegalCmd (accept w s) := by
    simp only [acceptCommand, decodeCmd_of_ge hw]
  rw [exec_ctrlWrite_of_idle hs, exec_illegal_of_idle hs, haccept]

/-! ### Every index -/

/-- Settles O25: BUSY = 1 first, then the operand registers, the address registers, the ignored indices, and CTRL. -/
theorem hostWriteResult : Obligations.HostWriteResult := by
  refine fun s => ⟨fun hb idx v hv => ?busy, fun hs => ⟨fun v => ?operand, fun a => ?address,
    fun idx v hv hidx => ?ignored, fun w => ⟨fun op hop => ?starts, fun hzero => ?clears, exec_ctrlWrite_illegal hs⟩⟩⟩
  case busy => exact exec_of_busy hb (beq_iff_eq.2 hv) fun _ hi => by cases hi
  case operand =>
    exact ⟨exec_hostWr_of_idle hs rfl, exec_hostWr_of_idle hs rfl, exec_hostWr_of_idle hs rfl,
      exec_hostWr_of_idle hs rfl, exec_hostWr_of_idle hs rfl⟩
  case address =>
    exact ⟨exec_hostWr_of_idle hs rfl, exec_hostWr_of_idle hs rfl, exec_hostWr_of_idle hs rfl,
      exec_hostWr_of_idle hs rfl⟩
  case ignored =>
    rw [exec_hostWr_of_idle hs hv, busWrite_of_ignoresWrites ((ignoresWrites_ofIndex idx).2 hidx)]
  case starts =>
    rw [hop, exec_ctrlWrite_word hs]
    cases op <;> rfl
  case clears => rw [hzero, exec_ctrlWrite_zero hs]

end Sys2Proof.Machine
end

section
/-!
PROOFS. What stops the machine and what an engine error touches (spec/60_exceptions.md R119 to R125, R134): no
well-formed instruction stops a step, and the phase that ends a command in error is a `raise`.
-/

namespace Sys2Proof.Machine

/-! ### Waiting -/

theorem step_of_agenda_nil {s : State} (h : s.agenda = []) : step s = .next (engineStep s) := by simp [step, h]

/-- Settles O8: with no turn to come the step is the engine's, and an idle engine takes none. -/
theorem idleMachineKeepsItsState : Obligations.IdleMachineKeepsItsState := fun s hag hidle => by
  rw [step_of_agenda_nil hag, engineStep, engineStepWith_idle (State.busy_eq_false.1 hidle)]

/-! ### What stops a step -/

/-- Settles O9: only HOST_WR looks at its operand before it answers, and well-formedness is what it asks for (R21). -/
theorem wellFormedInstructionsAnswerNext : Obligations.WellFormedInstructionsAnswerNext := by
  intro i s hwf
  cases i with
  | hostWr idx v => exact ⟨_, if_pos (beq_iff_eq.1 hwf)⟩
  | clear | modexp | qrtest | sqrt | crhs | serialize | derive | hint | hostRd | illegal => exact ⟨_, rfl⟩

/-- What decodes is well formed and answers a next state. -/
theorem runRaw_answers_next {r : Raw} {i : Instr} (h : decode r = .ok i) (s : State) : ∃ t, runRaw r s = .next t := by
  obtain ⟨hwf, -⟩ := encodeDecodeRoundTrip r i h
  rw [runRaw_ok h]
  exact wellFormedInstructionsAnswerNext i s hwf

/-- Every command word decodes (R70 to R72), so what does not decode is a bus transaction. -/
theorem bus_of_decode_error {r : Raw} {e : DecodeError} (h : decode r = .error e) : ∃ hdr data, r = .bus hdr data := by
  cases r with
  | command w => cases h
  | bus hdr data => exact ⟨hdr, data, rfl⟩

/-- A host write to VM memory is done, or refused for a cell of the HINT in progress (R142, U7). -/
theorem hostVmWrite_cases (a : Addr) (c : VmCell) (s : State) :
    (∃ t, hostVmWrite a c s = .next t) ∨
      (s.busy = true ∧ a ∈ s.hintCells ∧ hostVmWrite a c s = .refused .hostWriteDuringCommand) := by
  unfold hostVmWrite
  split
  · rename_i hcell
    obtain ⟨hb, ha⟩ := Bool.and_eq_true_iff.1 hcell
    exact .inr ⟨hb, List.contains_iff_mem.1 ha, rfl⟩
  · exact .inl ⟨_, rfl⟩

/-- Settles O10, by the turn to come. -/
theorem onlyMalformedTurnsStop : Obligations.OnlyMalformedTurnsStop := by
  intro s
  cases hag : s.agenda with
  | nil => exact .inl ⟨_, step_of_agenda_nil hag⟩
  | cons turn rest =>
    cases turn with
    | engine => exact .inl ⟨engineStep { s with agenda := rest }, by simp [step, hag, runTurn]⟩
    | reset => exact .inl ⟨resetCore { s with agenda := rest }, by simp [step, hag, runTurn]⟩
    | raw r =>
      rw [step_raw hag]
      cases hd : decode r with
      | ok i => exact .inl (runRaw_answers_next hd _)
      | error e =>
        obtain ⟨hdr, data, rfl⟩ := bus_of_decode_error hd
        exact .inr (.inl ⟨hdr, data, rest, e, rfl, hd, by rw [runRaw, hd]⟩)
    | vmWrite a c =>
      rw [step_vmWrite hag]
      rcases hostVmWrite_cases a c { s with agenda := rest } with hnext | ⟨hb, ha, hrefused⟩
      · exact .inl hnext
      · exact .inr (.inr ⟨a, c, rest, rfl, hb, ha, hrefused⟩)

/-! ### The engine step that ends a command in error -/

/-- A phase that sets ERR is a `raise`, with nothing written before it but ITER (R103, R120). -/
theorem engineStepWith_of_err {H : Hash} {s : State} (hquiet : s.status.err = false)
    (herr : (engineStepWith H s).status.err = true) :
    ∃ e n, engineStepWith H s = raise e { s with status := { s.status with iter := n } } := by
  have noErr : ∀ {t : State} {C : Prop}, engineStepWith H s = t → t.status.err = false → C := fun ht hno =>
    absurd (ht ▸ herr) (Bool.eq_false_iff.1 hno)
  have raised : ∀ {e : CoreError}, engineStepWith H s = raise e s →
      ∃ e n, engineStepWith H s = raise e { s with status := { s.status with iter := n } } := fun h =>
    ⟨_, s.status.iter, h⟩
  cases hf : s.fsm with
  | idle => exact noErr (engineStepWith_idle hf) hquiet
  | exec p =>
    have hstep := engineStepWith_exec (H := H) hf
    rcases execPhase_cases p s with ⟨_, h⟩ | ⟨_, h⟩ | ⟨_, h⟩
    · exact raised (hstep.trans h)
    · exact noErr (hstep.trans h) rfl
    · exact noErr (hstep.trans h) rfl
  | seedHash r =>
    have hstep := engineStepWith_seedHash (H := H) hf
    rcases seedHashPhase_cases H r s with ⟨_, _, h⟩ | h
    · exact raised (hstep.trans h)
    · exact noErr (hstep.trans h) hquiet
  | attempt r =>
    have hstep := engineStepWith_attempt (H := H) hf
    rcases attemptPhase_cases H r s with h | h | h
    · exact noErr (hstep.trans h) rfl
    · exact noErr (hstep.trans h) hquiet
    · exact noErr (hstep.trans h) hquiet
  | fail r => exact ⟨.notOnCurve, 100, engineStepWith_fail hf⟩
  | check =>
    have hstep := engineStepWith_check (H := H) hf
    rcases checkPhase_cases s with h | h
    · exact raised (hstep.trans h)
    · exact noErr (hstep.trans h) hquiet
  | read k =>
    have hstep := engineStepWith_read (H := H) hf
    rcases readPhase_cases k s with ⟨_, h⟩ | ⟨_, h⟩
    · exact raised (hstep.trans h)
    · exact noErr (hstep.trans h) hquiet
  | write =>
    have hstep := engineStepWith_write (H := H) hf
    rcases writePhase_cases s with ⟨_, h⟩ | ⟨_, _, _, h⟩
    · exact raised (hstep.trans h)
    · exact noErr (hstep.trans h) rfl

/-- Settles O29: while BUSY = 1 ERR is 0 (R32), so the step that shows it is the `raise` of this command. -/
theorem engineErrorsArePrecise : Obligations.EngineErrorsArePrecise := by
  intro s hinv hb herr
  obtain ⟨-, hquiet⟩ := hinv.busyQuiet hb
  obtain ⟨e, n, hraise⟩ := engineStepWith_of_err hquiet herr
  have hstep : engineStep s = raise e { s with status := { s.status with iter := n } } := hraise
  rw [hstep]
  exact ⟨rfl, rfl, Status.failed_ovr e _, Status.failed_seedValid e _, Status.failed_sign e _⟩

end Sys2Proof.Machine
end

section
/-!
PROOFS. The reset input (spec/70_reset_and_hazards.md R135, R136): the values it gives CORE, and what it leaves of the
transaction that HINT's write step had under way.
-/

namespace Sys2Proof.Machine

/-! ### The reset turn -/

theorem step_reset {s : State} {rest : List Turn} (h : s.agenda = .reset :: rest) :
    step s = .next (resetCore { s with agenda := rest }) := by simp [step, h, runTurn]

/-- Settles O43: each field that the statement keeps is the one `resetCore` takes from `State.reset`. -/
theorem resetInputResetsCore : Obligations.ResetInputResetsCore := fun _ _ hag => ⟨_, step_reset hag, rfl⟩

/-! ### VM memory after a reset -/

theorem State.vmAfterReset_of_ne_write {s : State} (h : s.fsm ≠ .write) : s.vmAfterReset = s.vm := by
  unfold State.vmAfterReset
  split
  · next hwrite _ => exact absurd hwrite h
  · rfl

/-- A reset leaves VM memory alone, or lets the whole two-cell transaction of HINT's write step through (R136, U6). -/
theorem State.vmAfterReset_cases (s : State) :
    s.vmAfterReset = s.vm ∨
      ∃ dest, s.fsm = .write ∧ s.addrS = some dest ∧
        s.vm.writePair dest s.pendingPoint.x s.pendingPoint.y = some s.vmAfterReset := by
  unfold State.vmAfterReset
  split
  · next dest hwrite hdest =>
    split
    · split
      · next hpair => exact .inr ⟨dest, hwrite, hdest, hpair⟩
      · exact .inl rfl
    · exact .inl rfl
  · exact .inl rfl

/-- The engine's own WRITE step leaves the memory that its transaction makes (R112). -/
theorem engineStep_vm_of_write {s : State} {dest : Addr} {vm : Memory} (hwrite : s.fsm = .write)
    (hdest : s.addrS = some dest) (hpair : s.vm.writePair dest s.pendingPoint.x s.pendingPoint.y = some vm) :
    (engineStep s).vm = vm := by
  have hstep : engineStep s = finishHint dest s.work.inputs.bundle s.pendingPoint s := by
    rw [engineStep, engineStepWith_write hwrite, writePhase, hdest]
  rw [hstep, finishHint_of_some _ hpair]
  rfl

/-- Settles O44: where the reset lets the transaction through, it is the one the engine's step would have made. -/
theorem resetLeavesBothCellsOrNeither : Obligations.ResetLeavesBothCellsOrNeither := by
  intro s t rest hag hstep
  obtain rfl := Host.Outcome.next.inj ((step_reset hag).symm.trans hstep)
  have hvm : (resetCore { s with agenda := rest }).vm = s.vmAfterReset := rfl
  rw [hvm]
  refine ⟨⟨rfl, rfl⟩, State.vmAfterReset_of_ne_write, s.vmAfterReset_cases.imp_right ?_⟩
  rintro ⟨dest, hwrite, hdest, hpair⟩
  have hengine := engineStep_vm_of_write hwrite hdest hpair
  exact ⟨dest, _, _, hdest, hpair, by rw [hengine], by rw [hengine]⟩

end Sys2Proof.Machine
end
